-- ==== Sys2Proof/Word.lean ====
section
/-! DEFINITION. The value types of PSC (spec/00_scope.md R5, R6). Bit vectors stand only for what the spec treats as
bits: a byte of a text and the 32-bit header. Every other number is an exact integer. -/

namespace Sys2Proof

/-- `Byte` of R6. -/
abbrev Byte := BitVec 8

/-- `Text` of R6: a finite list of bytes. -/
abbrev Text := List Byte

/-- `Word32` of R5 and R6: bit `i` weighs `2^i`. -/
abbrev Word32 := BitVec 32

/-- `Token` of R6: a non-empty list of bytes, none of them a separator (the tokenizer of R86 gives no other). -/
abbrev Token := List Byte

/-- `Payload` of R6. -/
abbrev Payload := List Int

/-- `Chunk` of R6: header word and payload of what the parser holds to be one packet. -/
abbrev Chunk := List Int

/-- `Packet` of R6, as PP produces it: a payload. -/
abbrev Packet := List Int

/-- `GoldenRecord` of R6: pairs of a value and its timestamp. -/
abbrev GoldenRecord := List (Int × Int)

end Sys2Proof
end

