-- ==== Sys2Proof/Config.lean ====
section
/-! DEFINITION. The constants of one model instance (spec/00_scope.md R4, the rows of kind "model"). No operation writes
one (spec/10_state.md R12). The defaults are those of R4. -/

namespace Sys2Proof

/-- `P_RANGE_POLICY` (R66). -/
inductive RangePolicy where
  | truncate
  | rangeError
  deriving DecidableEq, Repr

/-- `P_MARKER_CLOSE` (R90, R101). -/
inductive MarkerClose where
  | afterNextWord
  | atMarker
  deriving DecidableEq, Repr

/-- The values `P_BUS_BYTE_ORDER` could take (R30); no rule reads it. -/
inductive ByteOrder where
  | littleEndian
  | bigEndian
  deriving DecidableEq, Repr

/-- The model-level parameters of R4. -/
structure Config where
  /-- `P_RANGE_POLICY`. -/
  rangePolicy : RangePolicy := .truncate
  /-- `P_MARKER_CLOSE`. -/
  markerClose : MarkerClose := .afterNextWord
  /-- `P_SEPARATORS`: tab, line feed, vertical tab, form feed, carriage return, space, comma (R43). -/
  separators : List Byte := [0x09#8, 0x0A#8, 0x0B#8, 0x0C#8, 0x0D#8, 0x20#8, 0x2C#8]
  /-- `P_MARKERS`: the token `TLAST`. -/
  markers : List Token := [[0x54#8, 0x4C#8, 0x41#8, 0x53#8, 0x54#8]]
  /-- `P_IGNORABLE`: the tokens `HEADER`, `ID` and `HEADER/ID`. -/
  ignorable : List Token :=
    [[0x48#8, 0x45#8, 0x41#8, 0x44#8, 0x45#8, 0x52#8], [0x49#8, 0x44#8],
     [0x48#8, 0x45#8, 0x41#8, 0x44#8, 0x45#8, 0x52#8, 0x2F#8, 0x49#8, 0x44#8]]
  /-- `parse_int`, as far as this instance's differs from the default of R50: the tokens it reads otherwise, each with what
  it reads there (none: not an integer). Every other token is read as R50 says. A table, since a field is plain data;
  DESIGN CHOICE, notes/assumptions/10.md. -/
  parseIntTable : List (Token × Option Int) := []
  /-- `P_LINE_END` (R27). -/
  lineEnd : Byte := 0x0A#8
  /-- `WORD_BITS`: none is exact integers (R115). -/
  wordBits : Option Nat := none
  /-- `ACC_BITS`: none is exact integers (R115). -/
  accBits : Option Nat := none
  /-- `P_BUS_BYTE_ORDER`: open, and read by no rule (R30). -/
  busByteOrder : Option ByteOrder := none
  deriving DecidableEq, Repr

/-- Every parameter at the default of R4. -/
def Config.default : Config := {}

end Sys2Proof
end

