-- ==== Sys2Proof/Machine/Flags.lean ====
section
/-! DEFINITION. The one flag PSC computes: the parity of a word (spec/00_scope.md R7, spec/30_encoding.md R48). -/

namespace Sys2Proof.Machine

/-- `popcount` of R7: the number of one bits. -/
def popcount {w : Nat} (x : BitVec w) : Nat :=
  (List.range w).countP fun i => x.getLsbD i

/-- The parity bit of R48: 1 exactly when the body has an even number of one bits. -/
def parityBit {w : Nat} (body : BitVec w) : BitVec 1 :=
  if popcount body % 2 = 0 then 1#1 else 0#1

/-- The validity test of R68: the number of one bits is odd. -/
def parityOdd {w : Nat} (x : BitVec w) : Bool :=
  popcount x % 2 == 1

end Sys2Proof.Machine
end

