-- ==== Sys2Proof/Syntax.lean ====
section
/-! DEFINITION. The rows of spec/opcode_table.json as one inductive, and the commands they are decoded from
(spec/30_encoding.md R59, R60, R62). -/

namespace Sys2Proof

/-- One constructor per row of the opcode table. Operands are values the host supplies with the command (R10, R142);
where a refusal tests the range of an operand (R125), the operand is an exact integer. -/
inductive Instr where
  /-- `HDR_BUILD` (R65). -/
  | hdrBuild (packetType packetId : Int)
  /-- `HDR_CHECK` (R68). -/
  | hdrCheck (h : Int)
  /-- `HDR_FIELDS` (R69). -/
  | hdrFields (h : Int)
  /-- `PKT_FRAME` (R75). -/
  | pktFrame (values : Payload) (h : Int)
  /-- `STR_FRAME_INDEP` (R79). -/
  | strFrameIndep (packetType baseId : Int) (payloads : List Payload)
  /-- `STR_FRAME_SPLIT` (R80). -/
  | strFrameSplit (packetType baseId : Int) (buffer : Payload) (n : Int)
  /-- `PKT_PARSE` (R85). -/
  | pktParse (text : Text) (n : Int)
  /-- `GLD_REDUCE` (R105). -/
  | gldReduce (aPackets bMatrices : List Payload) (rowsA colsA colsB start step : Int) (bases : List Int)
  /-- `GLD_EMIT` (R113). -/
  | gldEmit (records : List GoldenRecord)
  /-- `HDR32` (R40, R42): the header data word, by its three free fields. -/
  | hdr32 (parityBit : BitVec 1) (packetType : BitVec 3) (packetId : BitVec 5)
  /-- `TOK_MARK` (R90). -/
  | tokMark
  /-- `TOK_IGN` (R91). -/
  | tokIgn
  /-- `TOK_INT` (R92), with the value beside the class code (R62). -/
  | tokInt (v : Int)
  /-- `TOK_BAD` (R93). -/
  | tokBad
  /-- `TOK_EOS` (R94). -/
  | tokEos
  deriving DecidableEq, Repr

/-- The operands of a command, each under the name R60 gives it. A command carries all of them as values; an operation
reads its own and ignores the rest. DESIGN CHOICE, notes/assumptions/8.md: the spec defines no binary layout. -/
structure Operands where
  packetType : Int := 0
  packetId : Int := 0
  h : Int := 0
  values : Payload := []
  baseId : Int := 0
  payloads : List Payload := []
  buffer : Payload := []
  n : Int := 0
  text : Text := []
  aPackets : List Payload := []
  bMatrices : List Payload := []
  rowsA : Int := 0
  colsA : Int := 0
  colsB : Int := 0
  start : Int := 0
  step : Int := 0
  bases : List Int := []
  records : List GoldenRecord := []
  deriving DecidableEq, Repr

/-- A command: "its selector byte followed by its operands as values" (spec/95_test_vectors.md part C). -/
structure Command where
  selector : Byte
  operands : Operands := {}
  deriving DecidableEq, Repr

/-- What the decoder is given: a command of the host (format CMD, R60), an output of the classifier (format TOKEN, R62)
or a header data word (format HDR32, R40). The three code spaces are separate (R62). -/
inductive Fetched where
  | cmd (c : Command)
  | token (classCode : Byte) (v : Int)
  | data (w : Word32)
  deriving DecidableEq, Repr

end Sys2Proof
end

