-- ==== Sys2Proof/Machine/Operands.lean ====
section
/-! DEFINITION. Operand forms: masking and range tests of header operands (spec/30_encoding.md R48,
spec/40_header_codec.md R66, R68), the header word assembled from its fields and read back (R40, R48, R69), the finite
widths of spec/43_golden_reducer.md R115. -/

namespace Sys2Proof.Machine

/-- `packet_id & 0x1F` of R48, in the two's-complement reading of R7. -/
def maskId (packetId : Int) : BitVec 5 := BitVec.ofInt 5 packetId

/-- `packet_type & 0x7` of R48, in the two's-complement reading of R7. -/
def maskType (packetType : Int) : BitVec 3 := BitVec.ofInt 3 packetType

/-- The operands of `HDR_BUILD` lie in their fields' ranges (R66). -/
def inHeaderRange (packetType packetId : Int) : Bool :=
  decide (0 ≤ packetType) && decide (packetType ≤ 7) && decide (0 ≤ packetId) && decide (packetId ≤ 31)

/-- The `Word32` an integer operand stands for, if it lies in `[0, 2^32)` (R68, R69, R75). -/
def word32Of (h : Int) : Option Word32 :=
  if 0 ≤ h ∧ h < 4294967296 then some (BitVec.ofInt 32 h) else none

/-- The body of a header (R48): id, type and the two sentinels, with bit 31 clear. Bits [30:28], [15] and [11:5] are 0
(R40, R41). -/
def headerBody (ty : BitVec 3) (id : BitVec 5) : Word32 :=
  id.setWidth 32 ||| (ty.setWidth 32 <<< 12) ||| (0x1F#32 <<< 16) ||| (0x7F#32 <<< 21)

/-- The header data word with the given three free fields (R42). -/
def headerWord (p : BitVec 1) (ty : BitVec 3) (id : BitVec 5) : Word32 :=
  headerBody ty id ||| (p.setWidth 32 <<< 31)

/-- `body | (p << 31)` of R48 and R65. -/
def assembleHeader (ty : BitVec 3) (id : BitVec 5) : Word32 :=
  headerWord (parityBit (headerBody ty id)) ty id

/-- The fixed bits of HDR32 (R42): `mask = 0x7FFF8FE0`, `match = 0x0FFF0000`. -/
def hdr32Fixed (w : Word32) : Bool :=
  w &&& 0x7FFF8FE0#32 == 0x0FFF0000#32

/-- A canonical header (R42): the fixed bits, and an odd number of ones. -/
def canonicalHeader (w : Word32) : Bool :=
  hdr32Fixed w && parityOdd w

/-- Field `parity_bit`, `h[31]` (R40, R69). -/
def fieldParity (w : Word32) : BitVec 1 := w.extractLsb' 31 1

/-- Field reserved, `h[30:28]` (R40, R69). -/
def fieldReserved (w : Word32) : BitVec 3 := w.extractLsb' 28 3

/-- Field `source_col`, `h[27:21]` (R40, R69). -/
def fieldSourceCol (w : Word32) : BitVec 7 := w.extractLsb' 21 7

/-- Field `source_row`, `h[20:16]` (R40, R69). -/
def fieldSourceRow (w : Word32) : BitVec 5 := w.extractLsb' 16 5

/-- Field `packet_type`, `h[14:12]` (R40, R69). -/
def fieldPacketType (w : Word32) : BitVec 3 := w.extractLsb' 12 3

/-- Field `packet_id`, `h[4:0]` (R40, R69). -/
def fieldPacketId (w : Word32) : BitVec 5 := w.extractLsb' 0 5

/-- The integer lies in the signed range of the width; no width means no bound (R115 (d)). DESIGN CHOICE,
notes/assumptions/11.md: the range is the two's-complement one. -/
def fitsWidth (bits : Option Nat) (v : Int) : Bool :=
  match bits with
  | none => true
  | some k => decide (-(2 ^ k) ≤ 2 * v) && decide (2 * v < 2 ^ k)

end Sys2Proof.Machine
end

