-- ==== Sys2Proof/Machine/Numerals.lean ====
section
/-! DEFINITION. Bytes and numerals: case folding (spec/30_encoding.md R51), the integer token grammar (R50) and decimal
rendering (R52). -/

namespace Sys2Proof.Machine

/-- The bytes of `TLAST` (R43, R44). -/
def tlast : Text := [0x54#8, 0x4C#8, 0x41#8, 0x53#8, 0x54#8]

/-- One byte under `fold` (R51): `a` to `z` move to `A` to `Z`. -/
def foldByte (b : Byte) : Byte :=
  if 0x61#8 ≤ b ∧ b ≤ 0x7A#8 then b - 0x20#8 else b

/-- `fold(t)` (R51). -/
def fold (t : Text) : Text := t.map foldByte

/-- `DECD` of R50. -/
def isDec (b : Byte) : Bool := decide (0x30#8 ≤ b) && decide (b ≤ 0x39#8)

/-- `HEXD` of R50. -/
def isHex (b : Byte) : Bool :=
  isDec b || (decide (0x61#8 ≤ b) && decide (b ≤ 0x66#8)) || (decide (0x41#8 ≤ b) && decide (b ≤ 0x46#8))

/-- The letter of a hexadecimal prefix, `x` or `X` (R50). -/
def isX (b : Byte) : Bool := b == 0x78#8 || b == 0x58#8

/-- The value of a digit of either base (R50). -/
def digitValue (b : Byte) : Nat :=
  if 0x61#8 ≤ b then b.toNat - 0x61 + 10 else if 0x41#8 ≤ b then b.toNat - 0x41 + 10 else b.toNat - 0x30

/-- A numeral of the given base, most significant digit first (R30, R50). -/
def numeralValue (base : Nat) (digits : Text) : Nat :=
  digits.foldl (fun v b => v * base + digitValue b) 0

/-- The trailing bytes that are no digit removed (R50: "stripping trailing non-numeric noise"). -/
def stripNoise (digit : Byte → Bool) (t : Text) : Text := t.rdropWhile fun b => !digit b

/-- All bytes are digits and there is one: the numeral's value. -/
def digitsOf (base : Nat) (digit : Byte → Bool) (t : Text) : Option Nat :=
  if t ≠ [] ∧ t.all digit = true then some (numeralValue base t) else none

/-- The hexadecimal prefix of a token and what follows it (R50, the two tests before `DEC`): is the number negative, and
the body. -/
def hexPrefix (t : Text) : Option (Bool × Text) :=
  match t with
  | a :: b :: rest =>
    if a = 0x30#8 ∧ isX b = true then some (false, rest)
    else
      match rest with
      | c :: body => if a = 0x2D#8 ∧ b = 0x30#8 ∧ isX c = true then some (true, body) else none
      | [] => none
  | _ => none

/-- The `HEX` part of R50. -/
def parseHex (neg : Bool) (body : Text) : Option Int :=
  (digitsOf 16 isHex (stripNoise isHex body)).map fun v : Nat => if neg then -(v : Int) else (v : Int)

/-- The `DEC` part of R50: one optional sign, then digits. -/
def parseDec (t : Text) : Option Int :=
  match stripNoise isDec t with
  | [] => none
  | b :: rest =>
    if b = 0x2D#8 then (digitsOf 10 isDec rest).map fun v : Nat => -(v : Int)
    else if b = 0x2B#8 then (digitsOf 10 isDec rest).map fun v : Nat => (v : Int)
    else (digitsOf 10 isDec (b :: rest)).map fun v : Nat => (v : Int)

/-- `parse_int` (R50), the default of the model parameter of that name: see `readInt`. -/
def parseInt (t : Text) : Option Int :=
  match hexPrefix t with
  | some (neg, body) => parseHex neg body
  | none => parseDec t

/-- The byte of a decimal digit. -/
def digitByte (d : Nat) : Byte := BitVec.ofNat 8 (0x30 + d)

/-- The shortest base-10 numeral of a natural number (R52). -/
def decNat (v : Nat) : Text :=
  if v = 0 then [0x30#8] else (Nat.digits 10 v).reverse.map digitByte

/-- `dec(v)` (R52). -/
def dec (v : Int) : Text :=
  if v < 0 then 0x2D#8 :: decNat v.natAbs else decNat v.natAbs

/-- The line `T <timestamp> ps` of a golden record (R45). -/
def stampLine (ts : Int) : Text :=
  [0x54#8, 0x20#8] ++ dec ts ++ [0x20#8, 0x70#8, 0x73#8]

end Sys2Proof.Machine
end

