-- ==== Sys2Proof/Machine/State.lean ====
section
/-! DEFINITION. The state of PSC: the working elements of one operation (spec/10_state.md R14 to R22), the streams
(spec/20_memory.md R26 to R28), the constants of the instance (spec/00_scope.md R4) and the interface to the host. -/

namespace Sys2Proof.Machine

/-- The diagnostics of R120 (codes 1 to 5), compared by constructor and fields (R28). -/
inductive Diag where
  /-- Code 1 (R122): chunk index and length. -/
  | shortChunk (k len : Nat)
  /-- Code 2 (R123): number of tokens dropped. -/
  | remainderDropped (r : Nat)
  /-- Code 3 (R124): the two list lengths. -/
  | streamLengthMismatch (nA nB : Nat)
  /-- Code 4 (R128): chunk index and length. -/
  | longChunk (k len : Nat)
  /-- Code 5 (R127): raised by the host, by no operation of PSC. -/
  | symbolTableMissing
  deriving DecidableEq, Repr

/-- The reasons of a `Refused` outcome (R125), and one of the model's own. -/
inductive Reason where
  | badSelector
  | notWord32
  | rangeError
  | emptyPayload
  | raggedBuffer
  | badConfig
  | shapeMismatch
  | emptyRecord
  /-- The MODEL's own: a value outside `WORD_BITS` or `ACC_BITS` (R115 (d), U5), notes/assumptions/11.md. -/
  | widthExceeded
  deriving DecidableEq, Repr

/-- The complete list of events of R120. -/
inductive Event where
  /-- Skipped silently: never in `DIAGS` (R121). -/
  | malformedToken
  | diag (d : Diag)
  | missingInputFile
  | refused (e : Reason)
  deriving DecidableEq, Repr

/-- `FramingMode` (R19). -/
inductive FramingMode where
  | marker
  | fixedSize
  deriving DecidableEq, Repr

/-- The six results of `HDR_FIELDS` (R69), all unsigned. -/
structure HeaderFields where
  parityBit : BitVec 1
  reserved : BitVec 3
  sourceCol : BitVec 7
  sourceRow : BitVec 5
  packetType : BitVec 3
  packetId : BitVec 5
  deriving DecidableEq, Repr

/-- The results of the operations (the result column of R60). -/
inductive Result where
  | word (h : Word32)
  | bit (ok : Bool)
  | fields (f : HeaderFields)
  | text (t : Text)
  | packets (ps : List Packet)
  | records (rs : List GoldenRecord)
  deriving DecidableEq, Repr

/-- The reasons of a `Fatal` outcome (R126). -/
inductive FatalReason where
  | missingInputFile
  deriving DecidableEq, Repr

/-- The three outcomes of R8. `Fatal` ends the run before the operation that would have come next (R126); the next
operation then starts like any other (R133). -/
inductive OpOutcome where
  | ok (result : Result) (diags : List Diag)
  | refused (reason : Reason)
  | fatal (reason : FatalReason)
  deriving DecidableEq, Repr

/-- The working state of one operation (R14 to R22, R26 to R28). -/
structure Work where
  /-- `TIN` (R26): the bytes not yet read. -/
  tin : Text
  /-- `OUT` (R14, R27). -/
  out : Text
  /-- `DIAGS` (R28). -/
  diags : List Diag
  /-- `PI` (R14): packets framed so far. -/
  pi : Nat
  /-- `TOKBUF` (R15). -/
  tokbuf : Text
  /-- `SEEN` (R16). -/
  seen : Bool
  /-- `PEND` (R17). -/
  pend : Bool
  /-- `CUR` (R18). -/
  cur : Chunk
  /-- `CHUNKS` (R18). -/
  chunks : List Chunk
  /-- `FLAT` (R18). -/
  flat : List Int
  /-- `MODE` (R19). -/
  mode : FramingMode
  /-- The operand `N` of the parse in force (R85); the model's own field, notes/assumptions/4.md. -/
  n : Nat
  /-- `PKTS` (R85, R98). -/
  pkts : List Packet
  /-- `MAXV[j]` (R20), column 0 first. -/
  maxv : List Int
  /-- `ACC` (R20). -/
  acc : Int
  /-- `P` (R21). -/
  p : Nat
  /-- `TS` (R21). -/
  ts : Int
  /-- `RECS` (R22). -/
  recs : List GoldenRecord
  deriving DecidableEq, Repr

/-- What the host hands over, in the order it does so (R11). -/
inductive HostItem where
  /-- An operation with its operands (R142). -/
  | issue (c : Command)
  /-- An operation whose symbol-table lookup failed for the id, the type, or both (R127). With neither flag set nothing
  is defaulted and the diagnostic is recorded all the same: DESIGN CHOICE, notes/assumptions/13.md; R127 speaks of failed
  lookups only. -/
  | issueUnresolved (c : Command) (idMissing typeMissing : Bool)
  /-- A header data word (R39, R42). -/
  | data (w : Word32)
  /-- A required input file is missing: the host aborts its run (R126). What follows in the list is what the host issues
  after that, in another run (notes/assumptions/2.md). -/
  | missingInputFile
  deriving DecidableEq, Repr

/-- The machine. -/
structure State where
  /-- The constants of this instance (R4): written by no step (R12). -/
  cfg : Config
  /-- What the host has yet to hand over; the model's own field. -/
  host : List HostItem
  /-- The host-side diagnostics (R127); the model's own field. -/
  hostDiags : List Diag
  /-- The classifier's output, a class code with the value beside it (R62), if a micro-operation is waiting to run. No
  operation leaves one behind: `PKT_PARSE` is one step (R32). The model's own field. -/
  cls : Option (Byte × Int)
  /-- The working elements (R24). -/
  work : Work
  /-- The last outcome (R8), none before the first; the model's own field. -/
  outcome : Option OpOutcome
  deriving DecidableEq, Repr

/-- What stops the machine with a fault: nothing. After `Refused` and after `Fatal` the next operation starts from reset
state like any other (R133), so both are outcomes of a next state. -/
inductive Fault : Type
  deriving DecidableEq, Repr

/-- What has no meaning in the model. -/
inductive Refusal where
  /-- An instruction without a meaning. Raised by no arm of `exec`. Safe. -/
  | notModelled (mnemonic : String)
  /-- A data word without HDR32's fixed bits: no rule says anything of it. Raised by `step`. Safe. -/
  | notHdr32
  /-- A class code the classifier does not give (R62). Raised by `step`, on states no run reaches. Safe. -/
  | badClassCode
  deriving DecidableEq, Repr

/-- The working state after reset (R24, R140). The values of `mode`, `maxv`, `acc` and `ts` are DESIGN CHOICE
(notes/assumptions/3.md: the spec gives none), those of `tin`, `n` and `pkts` too (notes/assumptions/4.md). -/
def Work.reset : Work where
  tin := []
  out := []
  diags := []
  pi := 0
  tokbuf := []
  seen := false
  pend := false
  cur := []
  chunks := []
  flat := []
  mode := .fixedSize
  n := 0
  pkts := []
  maxv := []
  acc := 0
  p := 0
  ts := 0
  recs := []

/-- The machine right after reset (R24, R140, R141): idle, waiting for the host's first operation, with the default
parameters of R4. -/
def State.reset : State where
  cfg := Config.default
  host := []
  hostDiags := []
  cls := none
  work := Work.reset
  outcome := none

end Sys2Proof.Machine
end

