-- ==== Sys2Proof/Machine/Ops.lean ====
section
/-! DEFINITION. The operations every meaning shares: the start of an operation (spec/10_state.md R24), `Emit` and `Diag`
(spec/00_scope.md R7), and the end of an operation with a result or a refusal (R8, spec/60_exceptions.md R125, R132). -/

namespace Sys2Proof.Machine

/-- The start of an operation (R24, R140): every element with a reset value takes it. `MODE`, `MAXV`, `ACC` and `TS`
have none, are written before they are read, and are left alone. The operand in force, the input stream and the packet
list are cleared too (R142: nothing is remembered). -/
def Work.atStart (w : Work) : Work :=
  { w with
    tin := [], out := [], diags := [], pi := 0, tokbuf := [], seen := false, pend := false, cur := [], chunks := [],
    flat := [], n := 0, pkts := [], p := 0, recs := [] }

/-- `Diag(d)` (R7, R28): a diagnostic is taken by appending it, and nothing else changes (R132). -/
def Work.raise (w : Work) (d : Diag) : Work := { w with diags := w.diags ++ [d] }

/-- `Emit(line)` (R7, R27) on an output text. -/
def emit (cfg : Config) (out line : Text) : Text := out ++ line ++ [cfg.lineEnd]

/-- Lines emitted one after another (R27, R35 (b)). -/
def emitLines (cfg : Config) (out : Text) (lines : List Text) : Text := lines.foldl (emit cfg) out

/-- `OUT` and `PI` at the end of an operation: neither survives it (R14, R84). The text goes to the host with the outcome
(R27). -/
def Work.release (w : Work) : Work := { w with out := [], pi := 0 }

/-- The end of an operation with `Ok(result, DIAGS)` (R8). What the other elements are left with: notes/assumptions/17.md. -/
def State.finish (s : State) (w : Work) (r : Result) : State :=
  { s with work := w.release, outcome := some (.ok r w.diags) }

/-- The end of an operation with `Refused(reason)` (R125, R132): no result, no text, no diagnostics; the working
elements are those of an operation's start, and the next operation starts as any other (R133). -/
def State.refuse (s : State) (e : Reason) : State :=
  { s with work := s.work.atStart, outcome := some (.refused e) }

/-- The end of a run with `Fatal(reason)` (R126): no output (R27, R132); the working elements are those of an operation's
start, and the next operation starts as any other (R133). notes/assumptions/2.md. -/
def State.abort (s : State) (e : FatalReason) : State :=
  { s with work := s.work.atStart, outcome := some (.fatal e) }

/-- The one step an operation is (R32): its working state and result, or its refusal. -/
def conclude (s : State) (x : Except Reason (Work × Result)) : Host.Outcome State Fault Refusal :=
  match x with
  | .ok (w, r) => .next (s.finish w r)
  | .error e => .next (s.refuse e)

/-- The codes of R120. -/
def Diag.code : Diag → Nat
  | .shortChunk _ _ => 1
  | .remainderDropped _ => 2
  | .streamLengthMismatch _ _ => 3
  | .longChunk _ _ => 4
  | .symbolTableMissing => 5

/-- The codes of R120, every event. -/
def Event.code : Event → Nat
  | .malformedToken => 0
  | .diag d => d.code
  | .missingInputFile => 6
  | .refused _ => 7

end Sys2Proof.Machine
end

