-- ==== Sys2Proof/Machine/GoldenReducer.lean ====
section
/-! DEFINITION. GR, the golden reducer (spec/43_golden_reducer.md): `GLD_REDUCE` and `GLD_EMIT`. -/

namespace Sys2Proof.Machine

/-- The operands of `GLD_REDUCE` but for the two streams (R105), the dimensions as counts. -/
structure ReduceConfig where
  rowsA : Nat
  colsA : Nat
  colsB : Nat
  start : Int
  step : Int
  bases : List Int
  deriving DecidableEq, Repr

/-- Element `(r, k)` of A times element `(k, j)` of B, both row-major (R107: D15, notes/assumptions/14.md). -/
def product (g : ReduceConfig) (a b : Payload) (r j k : Nat) : Int :=
  a.getD (r * g.colsA + k) 0 * b.getD (k * g.colsB + j) 0

/-- `ACC` after the first `m` terms of row `r` against column `j` (R108). -/
def partialDot (g : ReduceConfig) (a b : Payload) (r j m : Nat) : Int :=
  (List.range m).foldl (fun acc k => acc + product g a b r j k) 0

/-- The dot product of row `r` of A and column `j` of B (R108). -/
def rowDot (g : ReduceConfig) (a b : Payload) (r j : Nat) : Int := partialDot g a b r j g.colsA

/-- `colmax(a, b, j)` of R108: the value of row 0, then raised by the later rows; `m` is what `MAXV[j]` holds before,
which is not read. -/
def colMaxFrom (g : ReduceConfig) (a b : Payload) (j : Nat) (m : Int) : Int :=
  (List.range g.rowsA).foldl
    (fun mx r => if r = 0 ∨ mx < rowDot g a b r j then rowDot g a b r j else mx) m

/-- `MAXV` after the loop over the columns of one pair (R105). -/
def colMaxima (g : ReduceConfig) (a b : Payload) : List Int :=
  (List.range g.colsB).map fun j => colMaxFrom g a b j 0

/-- `base_timestamp(P)`: R111 with a list, R112 without. -/
def baseTimestamp (g : ReduceConfig) (p : Nat) : Int :=
  match g.bases.getLast? with
  | none => g.start + p * g.step * g.colsB
  | some last => g.bases.getD p last

/-- The record of a row of maxima and the value `TS` is left with (R105, R110). -/
def stampRecord (step : Int) : List Int → Int → GoldenRecord × Int
  | [], ts => ([], ts)
  | m :: rest, ts =>
    let (rec, after) := stampRecord step rest (ts + step)
    ((m, ts) :: rec, after)

/-- The operand lengths of one pair (R109 (b)). -/
def shapesOk (g : ReduceConfig) (a b : Payload) : Bool :=
  a.length == g.rowsA * g.colsA && b.length == g.colsA * g.colsB

/-- The products and sums of R108 for one pair, each in `ACC_BITS`: every product, and every value `ACC` takes. -/
def sumsOk (cfg : Config) (g : ReduceConfig) (a b : Payload) : Bool :=
  (List.range g.rowsA).all fun r => (List.range g.colsB).all fun j =>
    ((List.range g.colsA).all fun k => fitsWidth cfg.accBits (product g a b r j k)) &&
    (List.range (g.colsA + 1)).all fun m => fitsWidth cfg.accBits (partialDot g a b r j m)

/-- The values `TS` takes at pair `p` (R21, R110), the last one after the last column, each in `ACC_BITS`. -/
def stampsOk (cfg : Config) (g : ReduceConfig) (p : Nat) : Bool :=
  (List.range (g.colsB + 1)).all fun j => fitsWidth cfg.accBits (baseTimestamp g p + j * g.step)

/-- With finite widths (R115 (d), D4, U5): every word of pair `p` is in `WORD_BITS`, and every product, sum and timestamp
computed for it in `ACC_BITS`. Always true where no width is set. Which width bounds which value is DESIGN CHOICE,
notes/assumptions/11.md. -/
def widthsOk (cfg : Config) (g : ReduceConfig) (p : Nat) (a b : Payload) : Bool :=
  (cfg.wordBits.isNone || (a ++ b).all (fitsWidth cfg.wordBits)) &&
  (cfg.accBits.isNone || (sumsOk cfg g a b && stampsOk cfg g p))

/-- One pair (R105): `MAXV`, `ACC` (left with the last dot product computed), `TS`, `RECS`, and `P` moves on (R21). -/
def Work.reducePair (g : ReduceConfig) (w : Work) (a b : Payload) : Work :=
  let maxima := colMaxima g a b
  let stamped := stampRecord g.step maxima (baseTimestamp g w.p)
  { w with
    maxv := maxima, acc := rowDot g a b (g.rowsA - 1) (g.colsB - 1), ts := stamped.2,
    recs := w.recs ++ [stamped.1], p := w.p + 1 }

/-- The loop over the pairs (R105, R106): it ends with the shorter list, whose surplus partner is not read. -/
def reducePairs (cfg : Config) (g : ReduceConfig) : List Payload → List Payload → Work → Except Reason Work
  | a :: as, b :: bs, w =>
    if shapesOk g a b = true then
      if widthsOk cfg g w.p a b = true then reducePairs cfg g as bs (w.reducePair g a b) else .error .widthExceeded
    else .error .shapeMismatch
  | _, _, w => .ok w

/-- `StreamLengthMismatch(nA, nB)`, raised before the first pair (R106, R130 (c)). -/
def Work.warnLengths (w : Work) (nA nB : Nat) : Work :=
  if nA = nB then w else w.raise (.streamLengthMismatch nA nB)

/-- `GLD_REDUCE` as a function (R105, R109). -/
def reduceStreams (cfg : Config) (aPackets bMatrices : List Payload) (rowsA colsA colsB start step : Int)
    (bases : List Int) (w : Work) : Except Reason Work :=
  if rowsA < 1 ∨ colsA < 1 ∨ colsB < 1 then .error .badConfig
  else
    reducePairs cfg ⟨rowsA.toNat, colsA.toNat, colsB.toNat, start, step, bases⟩ aPackets bMatrices
      (w.warnLengths aPackets.length bMatrices.length)

/-- The lines of one golden record whose last value is `last` (R45): each value and its stamp line, the marker, the last
value again. -/
def recordLines (rec : GoldenRecord) (last : Int) : List Text :=
  rec.flatMap (fun mt => [dec mt.1, stampLine mt.2]) ++ [tlast, dec last]

/-- The loop of `GLD_EMIT` (R113, R114). -/
def emitRecords (cfg : Config) : List GoldenRecord → Text → Except Reason Text
  | [], out => .ok out
  | rec :: rest, out =>
    match rec.getLast? with
    | none => .error .emptyRecord
    | some last => emitRecords cfg rest (emitLines cfg out (recordLines rec last.1))

/-- `GLD_REDUCE` (R105 to R112). -/
def execGldReduce (aPackets bMatrices : List Payload) (rowsA colsA colsB start step : Int) (bases : List Int)
    (s : State) : Host.Outcome State Fault Refusal :=
  conclude s ((reduceStreams s.cfg aPackets bMatrices rowsA colsA colsB start step bases s.work.atStart).map
    fun w => (w, .records w.recs))

/-- `GLD_EMIT` (R113, R114). -/
def execGldEmit (records : List GoldenRecord) (s : State) : Host.Outcome State Fault Refusal :=
  conclude s ((emitRecords s.cfg records []).map fun t => ({ s.work.atStart with out := t }, .text t))

end Sys2Proof.Machine
end

