-- ==== Sys2Proof/Machine/HeaderCodec.lean ====
section
/-! DEFINITION. HC, the header codec (spec/40_header_codec.md): `HDR_BUILD`, `HDR_CHECK`, `HDR_FIELDS`, and the header
data word `HDR32`. HC holds no state (spec/10_state.md R13). -/

namespace Sys2Proof.Machine

/-- `HDR_BUILD` as a function (R65, R66). -/
def buildHeader (cfg : Config) (packetType packetId : Int) : Except Reason Word32 :=
  match cfg.rangePolicy with
  | .truncate => .ok (assembleHeader (maskType packetType) (maskId packetId))
  | .rangeError =>
    if inHeaderRange packetType packetId = true then
      .ok (assembleHeader (maskType packetType) (maskId packetId))
    else .error .rangeError

/-- `HDR_CHECK` as a function (R68). -/
def checkHeader (h : Int) : Except Reason Bool :=
  match word32Of h with
  | none => .error .notWord32
  | some w => .ok (parityOdd w)

/-- The six fields of a word (R69). -/
def fieldsOf (w : Word32) : HeaderFields where
  parityBit := fieldParity w
  reserved := fieldReserved w
  sourceCol := fieldSourceCol w
  sourceRow := fieldSourceRow w
  packetType := fieldPacketType w
  packetId := fieldPacketId w

/-- `HDR_FIELDS` as a function (R69). -/
def headerFields (h : Int) : Except Reason HeaderFields :=
  match word32Of h with
  | none => .error .notWord32
  | some w => .ok (fieldsOf w)

/-- `HDR_BUILD` (R65, R66). -/
def execHdrBuild (packetType packetId : Int) (s : State) : Host.Outcome State Fault Refusal :=
  conclude s ((buildHeader s.cfg packetType packetId).map fun h => (s.work.atStart, .word h))

/-- `HDR_CHECK` (R68). -/
def execHdrCheck (h : Int) (s : State) : Host.Outcome State Fault Refusal :=
  conclude s ((checkHeader h).map fun ok => (s.work.atStart, .bit ok))

/-- `HDR_FIELDS` (R69). -/
def execHdrFields (h : Int) (s : State) : Host.Outcome State Fault Refusal :=
  conclude s ((headerFields h).map fun f => (s.work.atStart, .fields f))

/-- `HDR32` (R40, R42): a data word, not an operation. Its value is itself, which for a canonical word is the header
`HDR_BUILD` returns for its fields (the table's "semantics R65"); no working element is touched. DESIGN CHOICE,
notes/assumptions/6.md. -/
def execHdr32 (p : BitVec 1) (ty : BitVec 3) (id : BitVec 5) (s : State) : Host.Outcome State Fault Refusal :=
  .next { s with outcome := some (.ok (.word (headerWord p ty id)) []) }

end Sys2Proof.Machine
end

