-- ==== Sys2Proof/Machine/PacketFramer.lean ====
section
/-! DEFINITION. PF, the packet framer (spec/41_packet_framer.md): `PKT_FRAME`, `STR_FRAME_INDEP`, `STR_FRAME_SPLIT`. -/

namespace Sys2Proof.Machine

/-- The lines of one framed packet whose last value is `last` (R44): header, the values before the last, the marker, the
last value. -/
def packetLines (h : Int) (front : Payload) (last : Int) : List Text :=
  dec h :: front.map dec ++ [tlast, dec last]

/-- `PKT_FRAME` as a function of its operands (R75): the text, with the refusals in the order of the rule. -/
def framePacket (cfg : Config) (values : Payload) (h : Int) : Except Reason Text :=
  match values.getLast? with
  | none => .error .emptyPayload
  | some last =>
    match word32Of h with
    | none => .error .notWord32
    | some _ => .ok (emitLines cfg [] (packetLines h values.dropLast last))

/-- The loop of `STR_FRAME_INDEP` (R79): one packet a payload, its header that of R78 with `k = PI`; the refusal of an
inner operation is the refusal of the outer one (R137). -/
def frameStream (cfg : Config) (packetType baseId : Int) : List Payload → Work → Except Reason Work
  | [], w => .ok w
  | v :: rest, w =>
    if v = [] then .error .emptyPayload
    else
      match buildHeader cfg packetType (baseId + w.pi) with
      | .error e => .error e
      | .ok h =>
        match framePacket cfg v h.toNat with
        | .error e => .error e
        | .ok t => frameStream cfg packetType baseId rest { w with out := w.out ++ t, pi := w.pi + 1 }

/-- The slices `buffer[k*N : (k+1)*N]` of R80, and of R97: `q` lists of `size` elements. -/
def slices {α : Type} (size : Nat) (l : List α) : List (List α) :=
  (List.range (l.length / size)).map fun k => (l.drop (k * size)).take size

/-- `STR_FRAME_SPLIT` as a function (R80, R81). -/
def frameSplit (cfg : Config) (packetType baseId : Int) (buffer : Payload) (n : Int) (w : Work) : Except Reason Work :=
  if n < 1 then .error .badConfig
  else if buffer.length % n.toNat ≠ 0 then .error .raggedBuffer
  else frameStream cfg packetType baseId (slices n.toNat buffer) w

/-- `PKT_FRAME` (R75, R77). -/
def execPktFrame (values : Payload) (h : Int) (s : State) : Host.Outcome State Fault Refusal :=
  conclude s ((framePacket s.cfg values h).map fun t => ({ s.work.atStart with out := t }, .text t))

/-- `STR_FRAME_INDEP` (R78, R79). -/
def execStrFrameIndep (packetType baseId : Int) (payloads : List Payload) (s : State) :
    Host.Outcome State Fault Refusal :=
  conclude s ((frameStream s.cfg packetType baseId payloads s.work.atStart).map fun w => (w, .text w.out))

/-- `STR_FRAME_SPLIT` (R80 to R82). -/
def execStrFrameSplit (packetType baseId : Int) (buffer : Payload) (n : Int) (s : State) :
    Host.Outcome State Fault Refusal :=
  conclude s ((frameSplit s.cfg packetType baseId buffer n s.work.atStart).map fun w => (w, .text w.out))

end Sys2Proof.Machine
end

