-- ==== Sys2Proof/Machine/Tokens.lean ====
section
/-! DEFINITION. Tokens: the classifier (spec/30_encoding.md R49, R62) and the tokenizer as a function of the whole text
(spec/42_packet_parser.md R86). -/

namespace Sys2Proof.Machine

/-- The four classes of R49. -/
inductive TokenClass where
  | mark
  | ign
  | int (v : Int)
  | bad
  deriving DecidableEq, Repr

/-- The model parameter `parse_int` of R4: what the instance's table says of a token, else the default of R50
(notes/assumptions/10.md). -/
def readInt (cfg : Config) (t : Token) : Option Int :=
  match cfg.parseIntTable.lookup t with
  | some r => r
  | none => parseInt t

/-- The classifier (R49), its tests in the order of the rule. -/
def classify (cfg : Config) (t : Token) : TokenClass :=
  if fold t ∈ cfg.markers then .mark
  else if fold t ∈ cfg.ignorable then .ign
  else
    match readInt cfg t with
    | some v => .int v
    | none => .bad

/-- The micro-operation a class runs (R87). -/
def TokenClass.instr : TokenClass → Instr
  | .mark => .tokMark
  | .ign => .tokIgn
  | .int v => .tokInt v
  | .bad => .tokBad

/-- The tokens of a text, the token under assembly being `buf` (R86). -/
def tokenizeFrom (cfg : Config) (buf : Text) : Text → List Token
  | [] => if buf = [] then [] else [buf]
  | b :: rest =>
    if b ∈ cfg.separators then
      if buf = [] then tokenizeFrom cfg [] rest else buf :: tokenizeFrom cfg [] rest
    else tokenizeFrom cfg (buf ++ [b]) rest

/-- Phase 1 of R85: the tokens `t_0 .. t_(T-1)` of a text. -/
def tokenize (cfg : Config) (text : Text) : List Token := tokenizeFrom cfg [] text

/-- The micro-operations a text makes PP run, the end of stream among them (R87). -/
def tokenInstrs (cfg : Config) (text : Text) : List Instr :=
  (tokenize cfg text).map (fun t => (classify cfg t).instr) ++ [.tokEos]

/-- The values of the integer tokens among some classes, in order: what FLAT holds of them (R92). -/
def intValues (cs : List TokenClass) : List Int :=
  cs.filterMap fun
    | .int v => some v
    | _ => none

end Sys2Proof.Machine
end

