-- ==== Sys2Proof/Machine/PacketParser.lean ====
section
/-! DEFINITION. PP, the packet parser (spec/42_packet_parser.md): the five token micro-operations and `PKT_PARSE`. -/

namespace Sys2Proof.Machine

/-- `CUR`, if it is not empty, is appended to `CHUNKS`, and a new chunk begins: an empty chunk is never recorded (R90). -/
def Work.closeChunk (w : Work) : Work :=
  { w with chunks := if w.cur = [] then w.chunks else w.chunks ++ [w.cur], cur := [] }

/-- `TOK_MARK` on the working state: R90, or R101 where the instance closes at the marker. -/
def Work.mark (cfg : Config) (w : Work) : Work :=
  match cfg.markerClose with
  | .afterNextWord =>
    let w1 := { w with seen := true }
    let w2 := if w1.pend = true then w1.closeChunk else w1
    { w2 with pend := true }
  | .atMarker => { w with seen := true }.closeChunk

/-- `TOK_INT(v)` on the working state (R92). -/
def Work.int (w : Work) (v : Int) : Work :=
  let w1 := { w with flat := w.flat ++ [v], cur := w.cur ++ [v] }
  if w1.pend = true then { w1 with chunks := w1.chunks ++ [w1.cur], cur := [], pend := false } else w1

/-- The branch `SEEN = 1` of `TOK_EOS` (R94, R96). -/
def Work.endMarker (w : Work) : Work := { w with mode := .marker }.closeChunk

/-- The branch `SEEN = 0` of `TOK_EOS` (R94, R97): `CHUNKS` is rebuilt from `FLAT` in pieces of `1 + N`. -/
def Work.endFixed (w : Work) : Work :=
  let w1 := { w with mode := .fixedSize, chunks := slices (1 + w.n) w.flat }
  if w.flat.length % (1 + w.n) = 0 then w1 else w1.raise (.remainderDropped (w.flat.length % (1 + w.n)))

/-- `TOK_EOS` on the working state (R94, R95). -/
def Work.eos (w : Work) : Work := if w.seen = true then w.endMarker else w.endFixed

/-- Dispatch of one delivered token (R87). `IGN` and `BAD` write nothing (R91, R93). -/
def Work.deliver (cfg : Config) (w : Work) (t : Token) : Work :=
  match classify cfg t with
  | .mark => w.mark cfg
  | .ign => w
  | .int v => w.int v
  | .bad => w

/-- The tokenizer's token, if one is assembled, is delivered, and the buffer is empty (R86). -/
def Work.flush (cfg : Config) (w : Work) : Work :=
  if w.tokbuf = [] then w else { w with tokbuf := [] }.deliver cfg w.tokbuf

/-- One byte of `TIN` (R86). -/
def Work.feed (cfg : Config) (w : Work) (b : Byte) : Work :=
  if b ∈ cfg.separators then w.flush cfg else { w with tokbuf := w.tokbuf ++ [b] }

/-- Phases 1 and 2 interleaved (R85, R86): `TIN` is read front to back, one byte at a time, and at its end the last
token is delivered. -/
def Work.readText (cfg : Config) : Text → Work → Work
  | [], w => w.flush cfg
  | b :: rest, w => Work.readText cfg rest ({ w with tin := rest }.feed cfg b)

/-- One chunk of phase 4 (R98, R99, R100): `k` is its index in `CHUNKS`. -/
def Work.takePacket (w : Work) (k : Nat) (c : Chunk) : Work :=
  if c.length < 1 + w.n then w.raise (.shortChunk k c.length)
  else
    let w1 := if 1 + w.n < c.length then w.raise (.longChunk k c.length) else w
    { w1 with pkts := w1.pkts ++ [(c.drop 1).take w.n] }

/-- Phase 4 (R98) from chunk index `k` on. -/
def Work.extractFrom : Nat → List Chunk → Work → Work
  | _, [], w => w
  | k, c :: rest, w => Work.extractFrom (k + 1) rest (w.takePacket k c)

/-- Phase 4 (R98): every chunk of `CHUNKS`, in order. -/
def Work.extract (w : Work) : Work := Work.extractFrom 0 w.chunks w

/-- The state `PKT_PARSE` starts its phases from (R85): reset, with its operands in force. -/
def Work.parseStart (w : Work) (text : Text) (n : Int) : Work :=
  { w.atStart with tin := text, n := n.toNat }

/-- The four phases (R85). -/
def Work.parse (cfg : Config) (w : Work) (text : Text) (n : Int) : Work :=
  (Work.readText cfg text (w.parseStart text n)).eos.extract

/-- `PKT_PARSE` as a function (R85, R88). -/
def parsePackets (cfg : Config) (text : Text) (n : Int) (w : Work) : Except Reason Work :=
  if n < 1 then .error .badConfig else .ok (w.parse cfg text n)

/-- `PKT_PARSE` (R85 to R100). -/
def execPktParse (text : Text) (n : Int) (s : State) : Host.Outcome State Fault Refusal :=
  conclude s ((parsePackets s.cfg text n s.work).map fun w => (w, .packets w.pkts))

/-- `TOK_MARK` (R90, R101). -/
def execTokMark (s : State) : Host.Outcome State Fault Refusal :=
  .next { s with work := s.work.mark s.cfg }

/-- `TOK_IGN` (R91): no state is written. -/
def execTokIgn (s : State) : Host.Outcome State Fault Refusal := .next s

/-- `TOK_INT(v)` (R92). -/
def execTokInt (v : Int) (s : State) : Host.Outcome State Fault Refusal :=
  .next { s with work := s.work.int v }

/-- `TOK_BAD` (R93, R121): no state is written, no diagnostic is raised. -/
def execTokBad (s : State) : Host.Outcome State Fault Refusal := .next s

/-- `TOK_EOS` (R94 to R97). -/
def execTokEos (s : State) : Host.Outcome State Fault Refusal :=
  .next { s with work := s.work.eos }

end Sys2Proof.Machine
end

