-- ==== Sys2Proof/Machine/Dispatch.lean ====
section
/-! DEFINITION. One arm per row of the opcode table, each one call of its meaning. -/

namespace Sys2Proof.Machine

def exec (i : Instr) (s : State) : Host.Outcome State Fault Refusal :=
  match i with
  | .hdrBuild ty id => Sys2Proof.Machine.execHdrBuild ty id s
  | .hdrCheck h => Sys2Proof.Machine.execHdrCheck h s
  | .hdrFields h => Sys2Proof.Machine.execHdrFields h s
  | .pktFrame values h => Sys2Proof.Machine.execPktFrame values h s
  | .strFrameIndep ty b payloads => Sys2Proof.Machine.execStrFrameIndep ty b payloads s
  | .strFrameSplit ty b buffer n => Sys2Proof.Machine.execStrFrameSplit ty b buffer n s
  | .pktParse text n => Sys2Proof.Machine.execPktParse text n s
  | .gldReduce a b ra ca cb start step bases => Sys2Proof.Machine.execGldReduce a b ra ca cb start step bases s
  | .gldEmit records => Sys2Proof.Machine.execGldEmit records s
  | .hdr32 p ty id => Sys2Proof.Machine.execHdr32 p ty id s
  | .tokMark => Sys2Proof.Machine.execTokMark s
  | .tokIgn => Sys2Proof.Machine.execTokIgn s
  | .tokInt v => Sys2Proof.Machine.execTokInt v s
  | .tokBad => Sys2Proof.Machine.execTokBad s
  | .tokEos => Sys2Proof.Machine.execTokEos s

end Sys2Proof.Machine
end

