-- ==== Sys2Proof/Decode.lean ====
section
/-! DEFINITION. The decoder, total, and the encoder, both from the tables of spec/30_encoding.md R42, R60 and R62. -/

namespace Sys2Proof

/-- Why the decoder rejects what it was given. -/
inductive Reject where
  /-- A selector outside 01 to 09 hex selects nothing (R60, R125). -/
  | badSelector
  /-- A class code outside 10 to 14 hex is no output of the classifier (R62). -/
  | badClassCode
  /-- A 32-bit data word without the fixed bits of HDR32 (R42). -/
  | notHdr32
  deriving DecidableEq, Repr

/-- Command decode (R60): the selector picks the operation, which takes its operands by name. -/
def decodeCommand (c : Command) : Except Reject Instr :=
  let o := c.operands
  if c.selector = 0x01#8 then .ok (.hdrBuild o.packetType o.packetId)
  else if c.selector = 0x02#8 then .ok (.hdrCheck o.h)
  else if c.selector = 0x03#8 then .ok (.hdrFields o.h)
  else if c.selector = 0x04#8 then .ok (.pktFrame o.values o.h)
  else if c.selector = 0x05#8 then .ok (.strFrameIndep o.packetType o.baseId o.payloads)
  else if c.selector = 0x06#8 then .ok (.strFrameSplit o.packetType o.baseId o.buffer o.n)
  else if c.selector = 0x07#8 then .ok (.pktParse o.text o.n)
  else if c.selector = 0x08#8 then
    .ok (.gldReduce o.aPackets o.bMatrices o.rowsA o.colsA o.colsB o.start o.step o.bases)
  else if c.selector = 0x09#8 then .ok (.gldEmit o.records)
  else .error .badSelector

/-- Class codes of the classifier (R62). -/
def decodeToken (classCode : Byte) (v : Int) : Except Reject Instr :=
  if classCode = 0x10#8 then .ok .tokMark
  else if classCode = 0x11#8 then .ok .tokIgn
  else if classCode = 0x12#8 then .ok (.tokInt v)
  else if classCode = 0x13#8 then .ok .tokBad
  else if classCode = 0x14#8 then .ok .tokEos
  else .error .badClassCode

/-- The decoder view of HDR32 (R42): the fixed bits by mask and match, the free fields read out. The mask leaves the
parity bit free, so a word that fails the parity decodes too (notes/assumptions/6.md). -/
def decodeData (w : Word32) : Except Reject Instr :=
  if Machine.hdr32Fixed w = true then
    .ok (.hdr32 (Machine.fieldParity w) (Machine.fieldPacketType w) (Machine.fieldPacketId w))
  else .error .notHdr32

/-- The decoder: total on everything the fetch can hand over, rejecting by name. -/
def decode (f : Fetched) : Except Reject Instr :=
  match f with
  | .cmd c => decodeCommand c
  | .token classCode v => decodeToken classCode v
  | .data w => decodeData w

/-- The encoder: the selector or class code of the row (R60, R62) with the operands as values, or the header word
(R42). Operands an operation does not take are zero or empty. -/
def encode (i : Instr) : Fetched :=
  match i with
  | .hdrBuild ty id => .cmd ⟨0x01#8, { packetType := ty, packetId := id }⟩
  | .hdrCheck h => .cmd ⟨0x02#8, { h := h }⟩
  | .hdrFields h => .cmd ⟨0x03#8, { h := h }⟩
  | .pktFrame values h => .cmd ⟨0x04#8, { values := values, h := h }⟩
  | .strFrameIndep ty b payloads => .cmd ⟨0x05#8, { packetType := ty, baseId := b, payloads := payloads }⟩
  | .strFrameSplit ty b buffer n => .cmd ⟨0x06#8, { packetType := ty, baseId := b, buffer := buffer, n := n }⟩
  | .pktParse text n => .cmd ⟨0x07#8, { text := text, n := n }⟩
  | .gldReduce a b ra ca cb start step bases =>
    .cmd ⟨0x08#8, { aPackets := a, bMatrices := b, rowsA := ra, colsA := ca, colsB := cb, start := start,
                    step := step, bases := bases }⟩
  | .gldEmit records => .cmd ⟨0x09#8, { records := records }⟩
  | .hdr32 p ty id => .data (Machine.headerWord p ty id)
  | .tokMark => .token 0x10#8 0
  | .tokIgn => .token 0x11#8 0
  | .tokInt v => .token 0x12#8 v
  | .tokBad => .token 0x13#8 0
  | .tokEos => .token 0x14#8 0

/-- What a row of the opcode table stands for when only its `nbits` bits `w` are given: a header data word for the
32-bit row; for the 8-bit rows a class code (10 to 14 hex) with the value 0 beside it, or a selector with every operand
zero or empty. -/
def tableFetched (nbits w : Nat) : Fetched :=
  if nbits ≤ 8 then
    let b := BitVec.ofNat 8 w
    if 0x10#8 ≤ b ∧ b ≤ 0x14#8 then .token b 0 else .cmd ⟨b, {}⟩
  else .data (BitVec.ofNat 32 w)

/-- The instruction the decoder reads from a row's bits. -/
def decodeTableWord (nbits w : Nat) : Option Instr :=
  match decode (tableFetched nbits w) with
  | .ok i => some i
  | .error _ => none

end Sys2Proof
end

