-- ==== Sys2Proof/Machine/Fetch.lean ====
section
/-! DEFINITION. Where a step finds what it runs (spec/10_state.md R11, spec/30_encoding.md R62), and what it does with what
the decoder rejects (spec/60_exceptions.md R125). -/

namespace Sys2Proof.Machine

/-- What stands before a step. -/
inductive FetchResult where
  /-- Nothing: PSC waits for the host (R141). -/
  | idle
  /-- The host aborts the run (R126); the state once it has. -/
  | abort (s : State)
  /-- Something to decode, and the state once it has been taken. -/
  | item (f : Fetched) (s : State)
  deriving DecidableEq, Repr

/-- The default a failed lookup leaves (R127): the id (base id) or the type, or both, are 0. -/
def defaultLookup (c : Command) (idMissing typeMissing : Bool) : Command :=
  { c with operands := { c.operands with
      packetId := if idMissing then 0 else c.operands.packetId
      baseId := if idMissing then 0 else c.operands.baseId
      packetType := if typeMissing then 0 else c.operands.packetType } }

/-- The fetch: a micro-operation the classifier has put out comes first, being inside PP (R62); else the host's next
item (R11). A failed lookup is recorded on the host's side (R127); so is an item with neither flag set, which R127 does
not speak of (DESIGN CHOICE, notes/assumptions/13.md). -/
def fetch (s : State) : FetchResult :=
  match s.cls with
  | some (classCode, v) => .item (.token classCode v) { s with cls := none }
  | none =>
    match s.host with
    | [] => .idle
    | .issue c :: rest => .item (.cmd c) { s with host := rest }
    | .issueUnresolved c idMissing typeMissing :: rest =>
      .item (.cmd (defaultLookup c idMissing typeMissing))
        { s with host := rest, hostDiags := s.hostDiags ++ [.symbolTableMissing] }
    | .data w :: rest => .item (.data w) { s with host := rest }
    | .missingInputFile :: rest => .abort { s with host := rest }

/-- What a rejection of the decoder comes to: a command with no operation is `Refused(BadSelector)` (R60, R125); the
two others are outside every rule and the model refuses them. -/
def takeReject (r : Reject) (s : State) : Host.Outcome State Fault Refusal :=
  match r with
  | .badSelector => .next (s.refuse .badSelector)
  | .badClassCode => .refused .badClassCode
  | .notHdr32 => .refused .notHdr32

/-- The state with something placed where the next fetch finds it, before all the host has yet to hand over. -/
def State.place (s : State) (f : Fetched) : State :=
  match f with
  | .cmd c => { s with cls := none, host := .issue c :: s.host }
  | .token classCode v => { s with cls := some (classCode, v) }
  | .data w => { s with cls := none, host := .data w :: s.host }

end Sys2Proof.Machine
end

