-- ==== Sys2Proof/Machine/Step.lean ====
section
/-! DEFINITION. One step: the next thing handed over runs to completion (spec/10_state.md R11, spec/20_memory.md R32). -/

namespace Sys2Proof.Machine

/-- Fetch, decode, execute. With nothing to take PSC is idle and stays as it is (R141); a run the host aborts ends `Fatal`
(R126), and the machine is ready for the next operation (R133). -/
def step (s : State) : Host.Outcome State Fault Refusal :=
  match fetch s with
  | .idle => .next s
  | .abort s' => .next (s'.abort .missingInputFile)
  | .item f s' =>
    match decode f with
    | .ok i => exec i s'
    | .error r => takeReject r s'

/-- The state whose next step runs the row with the given bits (notes/assumptions/5.md, 7.md). -/
def State.withFetchWord (s : State) (nbits w : Nat) : State := s.place (tableFetched nbits w)

end Sys2Proof.Machine
end

