-- ==== Sys2Proof/Safety.lean ====
section
/-! DEFINITION. What claims call a good state of PSC. Each clause is a rule of the spec about what the named elements
hold; each is decidable. -/

namespace Sys2Proof.Machine

/-- A text is made of whole lines (spec/20_memory.md R27: every line, the last one included, is followed by the line
end). -/
abbrev wholeLines (cfg : Config) (t : Text) : Prop := t = [] ∨ t.getLast? = some cfg.lineEnd

/-- The ranges of a diagnostic's fields (spec/60_exceptions.md R120), for an operation with the given `N`. No operation
raises the host-side one (R127). -/
abbrev Diag.fieldsOk (n : Nat) : Diag → Bool
  | .shortChunk _ len => decide (0 < len ∧ len < 1 + n)
  | .remainderDropped r => decide (0 < r ∧ r < 1 + n)
  | .streamLengthMismatch nA nB => decide (nA ≠ nB)
  | .longChunk _ len => decide (1 + n < len)
  | .symbolTableMissing => false

/-- What the working elements hold, whatever has run. -/
structure Work.Good (cfg : Config) (w : Work) : Prop where
  /-- An empty chunk is never recorded (R90, R96). -/
  chunks_nonempty : ∀ c ∈ w.chunks, c ≠ []
  /-- A terminal word is pending only after a marker was seen (R16, R17). -/
  pend_seen : w.pend = true → w.seen = true
  /-- `PEND` is never set where the instance closes at the marker (R17, R101). -/
  pend_atMarker : cfg.markerClose = .atMarker → w.pend = false
  /-- No token holds a separator (R86). -/
  tokbuf_clean : ∀ b ∈ w.tokbuf, b ∉ cfg.separators
  /-- A packet has exactly `N` elements (R6, R98). -/
  pkts_length : ∀ pk ∈ w.pkts, pk.length = w.n
  /-- A record is not empty (R109, R116). -/
  recs_nonempty : ∀ r ∈ w.recs, r ≠ []
  /-- The fields of every diagnostic are in range (R120). -/
  diags_ok : ∀ d ∈ w.diags, d.fieldsOk w.n = true
  /-- `OUT` does not survive an operation (R14, R84); the text of an outcome is whole lines, see `OpOutcome.Good`. -/
  out_released : w.out = []
  /-- Nor does `PI` (R14). -/
  pi_released : w.pi = 0

/-- What an outcome holds. -/
abbrev OpOutcome.Good (cfg : Config) : OpOutcome → Prop
  | .ok (.text t) ds => wholeLines cfg t ∧ ds = []
  | .ok (.packets _) ds => ∀ d ∈ ds, d ≠ .symbolTableMissing
  | .ok (.records rs) ds => (∀ r ∈ rs, r ≠ []) ∧ ∀ d ∈ ds, d ≠ .symbolTableMissing
  | .ok _ ds => ds = []
  | .refused _ => True
  | .fatal _ => True

/-- The invariant of the machine: the working elements are good, the last outcome is, and the host-side list holds the
host-side diagnostic only (R127). -/
structure State.Inv (s : State) : Prop where
  work : s.work.Good s.cfg
  outcome : ∀ o, s.outcome = some o → o.Good s.cfg
  hostDiags : ∀ d ∈ s.hostDiags, d = .symbolTableMissing

/-- The instruction is one of the nine operations of R60, issued by the host under a selector. -/
def isOperation (i : Instr) : Bool :=
  match encode i with
  | .cmd _ => true
  | .token _ _ => false
  | .data _ => false

/-- The text of some lines (spec/20_memory.md R27): each followed by the line end. -/
def linesText (cfg : Config) (lines : List Text) : Text := lines.flatMap fun l => l ++ [cfg.lineEnd]

/-- The lines of a stream of framed packets, each given by its header, the values before the last, and the last value
(spec/30_encoding.md R44). -/
def streamLines (packets : List (Int × Payload × Int)) : List Text :=
  packets.flatMap fun p => dec p.1 :: p.2.1.map dec ++ [tlast, dec p.2.2]

/-- The same lines with every `TLAST` line removed (R83). -/
def bareLines (packets : List (Int × Payload × Int)) : List Text :=
  packets.flatMap fun p => dec p.1 :: p.2.1.map dec ++ [dec p.2.2]

/-- The payloads of such a stream. -/
def payloadsOf (packets : List (Int × Payload × Int)) : List Payload := packets.map fun p => p.2.1 ++ [p.2.2]

/-- The packets of a stream whose packet `k` has header `HDR_BUILD(packet_type, base_id + k)` (R78), counted from `k`
on. -/
def withHeaders (packetType baseId : Int) : Nat → List (Payload × Int) → List (Int × Payload × Int)
  | _, [] => []
  | k, v :: rest =>
    ((assembleHeader (maskType packetType) (maskId (baseId + k))).toNat, v) :: withHeaders packetType baseId (k + 1) rest

/-- `colmax` as R108 gives it in words: the value is one of the dot products of the column and none is greater. -/
def isColumnMaximum (rowsA colsA colsB : Nat) (a b : Payload) (j : Nat) (m : Int) : Prop :=
  (∃ r, r < rowsA ∧ m = ∑ k ∈ Finset.range colsA, a.getD (r * colsA + k) 0 * b.getD (k * colsB + j) 0) ∧
  ∀ r, r < rowsA → ∑ k ∈ Finset.range colsA, a.getD (r * colsA + k) 0 * b.getD (k * colsB + j) 0 ≤ m

/-- The token differs from the word at most in the case of letters (spec/30_encoding.md R49, R51): byte by byte the same,
or a lower-case letter where the word has its upper-case one. -/
def caseVariant (t word : Token) : Prop :=
  List.Forall₂ (fun b c => b = c ∨ (0x41#8 ≤ c ∧ c ≤ 0x5A#8 ∧ b = c + 0x20#8)) t word

/-- The byte of a hexadecimal digit, its letters in the given case (spec/30_encoding.md R50). -/
def hexDigitByte (d : Fin 16) (upper : Bool) : Byte :=
  BitVec.ofNat 8 (if d.val < 10 then 0x30 + d.val else if upper = true then 0x41 + (d.val - 10) else 0x61 + (d.val - 10))

/-- The token begins with `0x`, `0X`, `-0x` or `-0X` (R50). -/
def hasHexPrefix (t : Token) : Prop :=
  ∃ x rest, (x = 0x78#8 ∨ x = 0x58#8) ∧ (t = 0x30#8 :: x :: rest ∨ t = 0x2D#8 :: 0x30#8 :: x :: rest)

/-- The token is a hexadecimal numeral of the value, with or without bytes after it that are no digits (R50). -/
def isHexNumeral (t : Token) (v : Int) : Prop :=
  ∃ (neg : Bool) (x : Byte) (ds : List (Fin 16 × Bool)) (noise : Text),
    (x = 0x78#8 ∨ x = 0x58#8) ∧ ds ≠ [] ∧ (∀ b ∈ noise, ∀ d upper, b ≠ hexDigitByte d upper) ∧
    t = (if neg = true then [0x2D#8] else []) ++ [0x30#8, x] ++ ds.map (fun d => hexDigitByte d.1 d.2) ++ noise ∧
    v = (if neg = true then -1 else 1) * ((Nat.ofDigits 16 (ds.map fun d => d.1.val).reverse : Nat) : Int)

/-- The token is a decimal numeral of the value, with or without a sign and bytes after it that are no digits, and without
a hexadecimal prefix (R50). -/
def isDecNumeral (t : Token) (v : Int) : Prop :=
  ¬hasHexPrefix t ∧
  ∃ (sign : Text) (ds : List (Fin 10)) (noise : Text),
    (sign = [] ∨ sign = [0x2B#8] ∨ sign = [0x2D#8]) ∧ ds ≠ [] ∧ (∀ b ∈ noise, ∀ d : Fin 10, b ≠ digitByte d) ∧
    t = sign ++ ds.map (fun d : Fin 10 => digitByte d.val) ++ noise ∧
    v = (if sign = [0x2D#8] then -1 else 1) * ((Nat.ofDigits 10 (ds.map fun d => d.val).reverse : Nat) : Int)

/-- The integer lies in the signed range of the width, if one is set (R115 (d), notes/assumptions/11.md). -/
def inWidth (bits : Option Nat) (v : Int) : Prop := ∀ k, bits = some k → -(2 ^ k) ≤ 2 * v ∧ 2 * v < 2 ^ k

/-- Every value that reducing pair `p` reads or computes lies in the width that is set for it (R115 (d), D4;
notes/assumptions/11.md): the words of both operands; the products and the partial sums of R108; the values the timestamp
counter takes (R21, R110). -/
def pairInWidths (cfg : Config) (g : ReduceConfig) (p : Nat) (a b : Payload) : Prop :=
  (∀ v ∈ a ++ b, inWidth cfg.wordBits v) ∧
  (∀ r, r < g.rowsA → ∀ j, j < g.colsB →
    (∀ k, k < g.colsA → inWidth cfg.accBits (a.getD (r * g.colsA + k) 0 * b.getD (k * g.colsB + j) 0)) ∧
    ∀ m, m ≤ g.colsA → inWidth cfg.accBits
      (∑ k ∈ Finset.range m, a.getD (r * g.colsA + k) 0 * b.getD (k * g.colsB + j) 0)) ∧
  ∀ j : Nat, j ≤ g.colsB → inWidth cfg.accBits (baseTimestamp g p + j * g.step)

/-- The outcomes of two steps agree as far as the host can see: both go on with the same outcome, or both end the run in
the same way (R23, R33). -/
def sameSeen : Host.Outcome State Fault Refusal → Host.Outcome State Fault Refusal → Prop
  | .next s, .next t => s.outcome = t.outcome
  | .fault e, .fault f => e = f
  | .refused e, .refused f => e = f
  | _, _ => False

/-- Runs instructions one after another through `exec`, stopping at the first that does not go on. -/
def execAll : List Instr → State → Host.Outcome State Fault Refusal
  | [], s => .next s
  | i :: rest, s =>
    match exec i s with
    | .next t => execAll rest t
    | .fault e => .fault e
    | .refused e => .refused e

end Sys2Proof.Machine
end

