-- ==== Sys2Proof/WellFormed.lean ====
section
/-! DEFINITION. Well-formed instructions. The operands of the nine operations are any values (an operand the spec gives
no meaning is refused by the operation itself, spec/60_exceptions.md R125), and so is the value beside `TOK_INT` (R56).
The one check is on the header data word: it is canonical (spec/30_encoding.md R42), that is, its parity bit is the one
R48 gives its other fields. -/

namespace Sys2Proof

/-- The check of each constructor. -/
def Instr.wellFormed (i : Instr) : Bool :=
  match i with
  | .hdrBuild _ _ => true
  | .hdrCheck _ => true
  | .hdrFields _ => true
  | .pktFrame _ _ => true
  | .strFrameIndep _ _ _ => true
  | .strFrameSplit _ _ _ _ => true
  | .pktParse _ _ => true
  | .gldReduce _ _ _ _ _ _ _ _ => true
  | .gldEmit _ => true
  | .hdr32 p ty id => Machine.canonicalHeader (Machine.headerWord p ty id)
  | .tokMark => true
  | .tokIgn => true
  | .tokInt _ => true
  | .tokBad => true
  | .tokEos => true

/-- An instruction is well formed. -/
abbrev WellFormed (i : Instr) : Prop := i.wellFormed = true

end Sys2Proof
end

