-- ==== Sys2Proof/Certificates/Slice0/Obligations.lean ====
section
/-! DEFINITION. The statements for the provers. Each docstring names the rule of spec/ it formalises; where a clause is the
model's own, it names the log entry. -/

open Sys2Proof Sys2Proof.Machine

/-! ### Encodings -/

/-- R60, R62, R42: every instruction is read back from its encoding, with every operand at every value. -/
def Obligations.DecodeOfEncodeIsTheInstruction : Prop :=
  ∀ i : Instr, decode (encode i) = .ok i

/-- R42: a data word is read as HDR32 exactly when `(w & 0x7FFF8FE0) = 0x0FFF0000`, and no bit of it is lost. -/
def Obligations.DataWordDecodesExactlyByItsFixedBits : Prop :=
  ∀ w : Word32,
    (w &&& 0x7FFF8FE0#32 = 0x0FFF0000#32 → ∃ i, decode (.data w) = .ok i ∧ encode i = .data w) ∧
    (w &&& 0x7FFF8FE0#32 ≠ 0x0FFF0000#32 → decode (.data w) = .error .notHdr32)

/-- R42: canonical words, exactly 256, one for each type and id; canonical is stricter than valid. -/
def Obligations.CanonicalWordsAreTheBuiltHeaders : Prop :=
  (∀ w : Word32, canonicalHeader w = true ↔ w &&& 0x7FFF8FE0#32 = 0x0FFF0000#32 ∧ popcount w % 2 = 1) ∧
  (∃ l : List Word32, l.length = 256 ∧ l.Nodup ∧ ∀ w, w ∈ l ↔ canonicalHeader w = true) ∧
  (∀ w : Word32, canonicalHeader w = true ↔
    ∃ (ty : BitVec 3) (id : BitVec 5), w = assembleHeader ty id ∧
      ∀ (ty' : BitVec 3) (id' : BitVec 5), w = assembleHeader ty' id' → ty' = ty ∧ id' = id) ∧
  (∀ w : Word32, canonicalHeader w = true → parityOdd w = true) ∧
  ∃ w : Word32, parityOdd w = true ∧ canonicalHeader w = false

/-- R60, R125: a selector outside 01 to 09 selects nothing; the command ends `Refused(BadSelector)`. That the machine goes
on with the refusal as its outcome is notes/assumptions/1.md. -/
def Obligations.UnusedSelectorIsRefused : Prop :=
  ∀ (c : Command) (s : State) (rest : List HostItem), s.cls = none → s.host = .issue c :: rest →
    (c.selector = 0x00#8 ∨ 0x09#8 < c.selector →
      step s = .next { s with host := rest, work := s.work.atStart, outcome := some (.refused .badSelector) }) ∧
    (0x01#8 ≤ c.selector ∧ c.selector ≤ 0x09#8 → ∃ i, decode (.cmd c) = .ok i)

/-- Words written out from R60, R62 and R42. -/
def Obligations.WrittenOutWordsDecode : Prop :=
  decodeTableWord 8 0x01 = some (.hdrBuild 0 0) ∧ decodeTableWord 8 0x04 = some (.pktFrame [] 0) ∧
  decodeTableWord 8 0x07 = some (.pktParse [] 0) ∧ decodeTableWord 8 0x09 = some (.gldEmit []) ∧
  decodeTableWord 32 0x8FFF701F = some (.hdr32 1#1 7#3 31#5) ∧ decodeTableWord 32 0x0FFF5015 = some (.hdr32 0#1 5#3 21#5) ∧
  decodeTableWord 8 0x10 = some .tokMark ∧ decodeTableWord 8 0x14 = some .tokEos ∧ decodeTableWord 8 0x0A = none

/-! ### HC -/

/-- R65: the selector, the header word, field by field, its parity bit, and nothing else written; the corner cases and
the worked example. The frame is the whole state: parameters, host lists and latch as they were, working elements at an operation's
start. -/
def Obligations.HdrBuildAssemblesTheHeader : Prop :=
  (∀ o : Operands, decode (.cmd ⟨0x01#8, o⟩) = .ok (.hdrBuild o.packetType o.packetId)) ∧
  (∀ (ty id : Int) (s : State), s.cfg.rangePolicy = .truncate →
    ∃ h : Word32,
      exec (.hdrBuild ty id) s =
        .next { s with work := s.work.atStart, outcome := some (.ok (.word h) []) } ∧
      (let body : Nat := (id % 32).toNat ||| ((ty % 8).toNat <<< 12) ||| (0x1F <<< 16) ||| (0x7F <<< 21)
       h.toNat = body ||| ((if popcount (BitVec.ofNat 32 body) % 2 = 0 then 1 else 0) <<< 31))) ∧
  ∀ s : State, s.cfg.rangePolicy = .truncate →
    exec (.hdrBuild 0 0) s =
      .next { s with work := s.work.atStart, outcome := some (.ok (.word 0x8FFF0000#32) []) } ∧
    exec (.hdrBuild 7 31) s =
      .next { s with work := s.work.atStart, outcome := some (.ok (.word 0x8FFF701F#32) []) } ∧
    exec (.hdrBuild 0 3) s =
      .next { s with work := s.work.atStart, outcome := some (.ok (.word 2415853571#32) []) }

/-- R66: masking under `truncate`, for all integers, with no diagnostic; `RangeError` under `range_error` and no change
inside the range. -/
def Obligations.HdrBuildOutOfRangeOperands : Prop :=
  (∀ (ty id : Int) (s : State), s.cfg.rangePolicy = .truncate →
    exec (.hdrBuild ty id) s = exec (.hdrBuild (ty % 8) (id % 32)) s ∧
    exec (.hdrBuild (-1) (-1)) s = exec (.hdrBuild 7 31) s ∧
    ∀ t, exec (.hdrBuild ty id) s = .next t → ∃ r, t.outcome = some (.ok r [])) ∧
  (∀ (ty id : Int) (s : State), s.cfg.rangePolicy = .rangeError → id < 0 ∨ 31 < id ∨ ty < 0 ∨ 7 < ty →
    exec (.hdrBuild ty id) s =
      .next { s with work := s.work.atStart, outcome := some (.refused .rangeError) }) ∧
  (∀ (ty id : Int) (s : State), s.cfg.rangePolicy = .rangeError → 0 ≤ id → id ≤ 31 → 0 ≤ ty → ty ≤ 7 →
    ∃ h : Word32,
      exec (.hdrBuild ty id) s =
        .next { s with work := s.work.atStart, outcome := some (.ok (.word h) []) } ∧
      ∀ t, t.cfg.rangePolicy = .truncate →
        exec (.hdrBuild ty id) t =
          .next { t with work := t.work.atStart, outcome := some (.ok (.word h) []) }) ∧
  ∀ s : State, s.cfg.rangePolicy = .truncate →
    exec (.hdrBuild 8 32) s =
      .next { s with work := s.work.atStart, outcome := some (.ok (.word 0x8FFF0000#32) []) } ∧
    exec (.hdrBuild 9 33) s =
      .next { s with work := s.work.atStart, outcome := some (.ok (.word 0x8FFF1001#32) []) }

/-- R67: every header returned has an odd number of ones and is canonical; `HDR_BUILD` is injective on the ranges; with
the mask `0x7FFFFFFF` the source's property is false for 128 of the 256 pairs. -/
def Obligations.EveryBuiltHeaderHasOddParity : Prop :=
  (∀ (ty id : Int) (s t : State) (h : Word32) (ds : List Diag), exec (.hdrBuild ty id) s = .next t →
    t.outcome = some (.ok (.word h) ds) → popcount h % 2 = 1 ∧ canonicalHeader h = true) ∧
  (∀ (ty id ty' id' : Int) (s t t' : State) (h : Word32), 0 ≤ ty → ty ≤ 7 → 0 ≤ id → id ≤ 31 →
    0 ≤ ty' → ty' ≤ 7 → 0 ≤ id' → id' ≤ 31 →
    exec (.hdrBuild ty id) s = .next t → exec (.hdrBuild ty' id') s = .next t' →
    t.outcome = some (.ok (.word h) []) → t'.outcome = some (.ok (.word h) []) → ty = ty' ∧ id = id') ∧
  (∀ s : State, s.cfg.rangePolicy = .truncate →
    exec (.hdrBuild 0 0) s =
      .next { s with work := s.work.atStart, outcome := some (.ok (.word 0x8FFF0000#32) []) } ∧
    (0x8FFF0000#32 &&& 0x7FFFFFFF#32 : Word32) = 0x0FFF0000#32 ∧ popcount 0x0FFF0000#32 = 12) ∧
  ((List.range 8).flatMap fun ty => (List.range 32).filter fun id =>
    popcount (assembleHeader (BitVec.ofNat 3 ty) (BitVec.ofNat 5 id) &&& 0x7FFFFFFF#32) % 2 == 0).length = 128

/-- R68: the selector, the parity of the operand, its refusal, the corner cases, single and double bit errors, the worked example. -/
def Obligations.HdrCheckTestsTheParityOfTheWord : Prop :=
  (∀ o : Operands, decode (.cmd ⟨0x02#8, o⟩) = .ok (.hdrCheck o.h)) ∧
  (∀ (h : Int) (s : State), 0 ≤ h → h < 4294967296 →
    exec (.hdrCheck h) s =
      .next { s with work := s.work.atStart,
                     outcome := some (.ok (.bit (popcount (BitVec.ofInt 32 h) % 2 == 1)) []) }) ∧
  (∀ (h : Int) (s : State), h < 0 ∨ 4294967296 ≤ h →
    exec (.hdrCheck h) s = .next { s with work := s.work.atStart, outcome := some (.refused .notWord32) }) ∧
  (∀ (ty : BitVec 3) (id : BitVec 5) (i : Nat), i < 32 →
    parityOdd (assembleHeader ty id ^^^ (1#32 <<< i)) = false) ∧
  (∀ (ty : BitVec 3) (id : BitVec 5) (i j : Nat), i < j → j < 32 →
    parityOdd (assembleHeader ty id ^^^ (1#32 <<< i) ^^^ (1#32 <<< j)) = true) ∧
  ∀ s : State,
    exec (.hdrCheck 0) s = .next { s with work := s.work.atStart, outcome := some (.ok (.bit false) []) } ∧
    exec (.hdrCheck 0x80000000) s = .next { s with work := s.work.atStart, outcome := some (.ok (.bit true) []) } ∧
    canonicalHeader 0x80000000#32 = false ∧
    exec (.hdrCheck 0x8FFF0003) s = .next { s with work := s.work.atStart, outcome := some (.ok (.bit true) []) } ∧
    exec (.hdrCheck 0x0FFF0003) s = .next { s with work := s.work.atStart, outcome := some (.ok (.bit false) []) }

/-- R69: the selector, the six fields by their weights, the refusal, the round trip and the worked example. -/
def Obligations.HdrFieldsReadsTheLayoutBack : Prop :=
  (∀ o : Operands, decode (.cmd ⟨0x03#8, o⟩) = .ok (.hdrFields o.h)) ∧
  (∀ (h : Nat) (s : State), h < 4294967296 →
    ∃ f : HeaderFields,
      exec (.hdrFields h) s = .next { s with work := s.work.atStart, outcome := some (.ok (.fields f) []) } ∧
      f.parityBit.toNat = h / 2 ^ 31 ∧ f.reserved.toNat = h / 2 ^ 28 % 8 ∧ f.sourceCol.toNat = h / 2 ^ 21 % 128 ∧
      f.sourceRow.toNat = h / 2 ^ 16 % 32 ∧ f.packetType.toNat = h / 2 ^ 12 % 8 ∧ f.packetId.toNat = h % 32) ∧
  (∀ (h : Int) (s : State), h < 0 ∨ 4294967296 ≤ h →
    exec (.hdrFields h) s = .next { s with work := s.work.atStart, outcome := some (.refused .notWord32) }) ∧
  (∀ (ty id : Nat) (s t : State) (h : Word32), ty ≤ 7 → id ≤ 31 → exec (.hdrBuild ty id) s = .next t →
    t.outcome = some (.ok (.word h) []) →
    ∃ p : BitVec 1, exec (.hdrFields h.toNat) t =
      .next { t with work := t.work.atStart,
                     outcome := some (.ok (.fields ⟨p, 0#3, 0x7F#7, 0x1F#5, BitVec.ofNat 3 ty, BitVec.ofNat 5 id⟩) []) }) ∧
  ∀ s : State, exec (.hdrFields 0x8FFF701F) s =
    .next { s with work := s.work.atStart,
                   outcome := some (.ok (.fields ⟨1#1, 0#3, 0x7F#7, 0x1F#5, 7#3, 31#5⟩) []) }

/-- R40, R41, R71: in every header an operation builds the sentinels are all ones and the reserved and unnamed bits 0. -/
def Obligations.BuiltHeadersCarryTheSentinels : Prop :=
  ∀ (ty id : Int) (s t : State) (h : Word32) (ds : List Diag), exec (.hdrBuild ty id) s = .next t →
    t.outcome = some (.ok (.word h) ds) →
    fieldSourceRow h = 0x1F#5 ∧ fieldSourceCol h = 0x7F#7 ∧ fieldReserved h = 0#3 ∧
    h.getLsbD 15 = false ∧ ∀ i, 5 ≤ i → i ≤ 11 → h.getLsbD i = false

/-- notes/assumptions/6.md (the model's choice; R40, R42, R65): a header data word has itself as its value and touches
nothing else; a well-formed one is the header `HDR_BUILD` returns for its fields. -/
def Obligations.HeaderDataWordHasItsOwnValue : Prop :=
  ∀ (p : BitVec 1) (ty : BitVec 3) (id : BitVec 5) (s : State),
    ∃ w : Word32,
      exec (.hdr32 p ty id) s = .next { s with outcome := some (.ok (.word w) []) } ∧
      w.toNat = p.toNat * 2 ^ 31 + 0x0FFF0000 + ty.toNat * 2 ^ 12 + id.toNat ∧
      (WellFormed (.hdr32 p ty id) → s.cfg.rangePolicy = .truncate →
        exec (.hdrBuild ty.toNat id.toNat) s =
          .next { s with work := s.work.atStart, outcome := some (.ok (.word w) []) })

/-! ### PF -/

/-- R75: the selector, the text of one packet, marker before the last value; the refusals in their order; the worked example. -/
def Obligations.PktFrameWritesMarkerBeforeLastValue : Prop :=
  (∀ o : Operands, decode (.cmd ⟨0x04#8, o⟩) = .ok (.pktFrame o.values o.h)) ∧
  (∀ (front : Payload) (last h : Int) (s : State), 0 ≤ h → h < 4294967296 →
    let lines := dec h :: front.map dec ++ [tlast, dec last]
    exec (.pktFrame (front ++ [last]) h) s =
      .next { s with work := s.work.atStart,
                     outcome := some (.ok (.text (linesText s.cfg lines)) []) } ∧
    lines.length = (front ++ [last]).length + 2 ∧
    (linesText s.cfg lines).getLast? = some s.cfg.lineEnd) ∧
  (∀ (h : Int) (s : State),
    exec (.pktFrame [] h) s = .next { s with work := s.work.atStart, outcome := some (.refused .emptyPayload) }) ∧
  (∀ (front : Payload) (last h : Int) (s : State), h < 0 ∨ 4294967296 ≤ h →
    exec (.pktFrame (front ++ [last]) h) s =
      .next { s with work := s.work.atStart, outcome := some (.refused .notWord32) }) ∧
  ∀ s : State, s.cfg.lineEnd = 0x0A#8 →
    ∃ t, exec (.pktFrame [1, 2, 3, 4] 2415853571) s = .next t ∧
      t.outcome = some (.ok (.text
        [0x32#8, 0x34#8, 0x31#8, 0x35#8, 0x38#8, 0x35#8, 0x33#8, 0x35#8, 0x37#8, 0x31#8, 0x0A#8, 0x31#8, 0x0A#8,
         0x32#8, 0x0A#8, 0x33#8, 0x0A#8, 0x54#8, 0x4C#8, 0x41#8, 0x53#8, 0x54#8, 0x0A#8, 0x34#8, 0x0A#8]) [])

/-- R14, R78, R79, R84: the packets one after another, packet `k` under the header of `base_id + k`; no payloads give the
empty text. While it runs, `OUT` collects the text and `PI` counts the packets; neither survives the operation, and the
text is its result. -/
def Obligations.StrFrameIndepConcatenatesItsPackets : Prop :=
  ∀ (ty b : Int) (payloads : List (Payload × Int)) (s : State), s.cfg.rangePolicy = .truncate →
    let text := linesText s.cfg (streamLines (withHeaders ty b 0 payloads))
    frameStream s.cfg ty b (payloads.map fun p => p.1 ++ [p.2]) s.work.atStart =
      .ok { s.work.atStart with out := text, pi := payloads.length } ∧
    exec (.strFrameIndep ty b (payloads.map fun p => p.1 ++ [p.2])) s =
      .next { s with work := s.work.atStart,
                     outcome := some (.ok (.text text) []) }

/-- R79, R125, R130 (a), R137: which refusal ends a stream of frames. Under `truncate` an empty payload anywhere does;
under `range_error` the first packet does that has an empty payload or an id or type outside its range, the payload being
tested first; where there is none the text is that of `truncate`. -/
def Obligations.StrFrameIndepRefusals : Prop :=
  (∀ (ty b : Int) (payloads : List Payload) (s : State), s.cfg.rangePolicy = .truncate → [] ∈ payloads →
    exec (.strFrameIndep ty b payloads) s =
      .next { s with work := s.work.atStart, outcome := some (.refused .emptyPayload) }) ∧
  (∀ (ty b : Int) (before after : List Payload) (s : State), s.cfg.rangePolicy = .rangeError → [] ∉ before →
    (∀ k : Nat, k < before.length → inHeaderRange ty (b + k) = true) →
    exec (.strFrameIndep ty b (before ++ [] :: after)) s =
      .next { s with work := s.work.atStart, outcome := some (.refused .emptyPayload) }) ∧
  (∀ (ty b : Int) (before after : List Payload) (v : Payload) (s : State), s.cfg.rangePolicy = .rangeError →
    [] ∉ before → (∀ k : Nat, k < before.length → inHeaderRange ty (b + k) = true) →
    v ≠ [] → inHeaderRange ty (b + before.length) = false →
    exec (.strFrameIndep ty b (before ++ v :: after)) s =
      .next { s with work := s.work.atStart, outcome := some (.refused .rangeError) }) ∧
  ∀ (ty b : Int) (payloads : List (Payload × Int)) (s : State), s.cfg.rangePolicy = .rangeError →
    (∀ k : Nat, k < payloads.length → inHeaderRange ty (b + k) = true) →
    let text := linesText s.cfg (streamLines (withHeaders ty b 0 payloads))
    exec (.strFrameIndep ty b (payloads.map fun p => p.1 ++ [p.2])) s =
      .next { s with work := s.work.atStart,
                     outcome := some (.ok (.text text) []) }

/-- R82: for every buffer whose length is a multiple of `N`, `STR_FRAME_SPLIT` equals `STR_FRAME_INDEP` on the slices,
and so it runs to its text. -/
def Obligations.StrFrameSplitEqualsIndepOnTheSlices : Prop :=
  (∀ (ty b n : Int) (payloads : List Payload) (s : State), 1 ≤ n → (∀ v ∈ payloads, (v.length : Int) = n) →
    exec (.strFrameSplit ty b payloads.flatten n) s = exec (.strFrameIndep ty b payloads) s) ∧
  ∀ (ty b n : Int) (payloads : List (Payload × Int)) (s : State), 1 ≤ n →
    (∀ v ∈ payloads, ((v.1 ++ [v.2]).length : Int) = n) → s.cfg.rangePolicy = .truncate →
    let text := linesText s.cfg (streamLines (withHeaders ty b 0 payloads))
    exec (.strFrameSplit ty b (payloads.map fun p => p.1 ++ [p.2]).flatten n) s =
      .next { s with work := s.work.atStart,
                     outcome := some (.ok (.text text) []) }

/-- R80, R81: `N < 1` and a buffer that `N` does not divide are refused, in that order. -/
def Obligations.StrFrameSplitRefusals : Prop :=
  (∀ (ty b n : Int) (buffer : Payload) (s : State), n < 1 →
    exec (.strFrameSplit ty b buffer n) s =
      .next { s with work := s.work.atStart, outcome := some (.refused .badConfig) }) ∧
  ∀ (ty b n : Int) (buffer : Payload) (s : State), 1 ≤ n → (buffer.length : Int) % n ≠ 0 →
    exec (.strFrameSplit ty b buffer n) s =
      .next { s with work := s.work.atStart, outcome := some (.refused .raggedBuffer) }

/-! ### Tokens and numerals -/

/-- R53: `parse_int(dec(v)) = some v`; `dec(v)` is no marker and no ignorable token; so the line is classified
`INT(v)`. -/
def Obligations.DecimalNumeralsReadBack : Prop :=
  ∀ v : Int, parseInt (dec v) = some v ∧ dec v ∉ Config.default.markers ∧ dec v ∉ Config.default.ignorable ∧
    classify Config.default (dec v) = .int v

/-- R50: which tokens the default `parse_int` reads, and as which number: a hexadecimal prefix in any of its four spellings
with digits of either case, or else an optional sign and decimal digits; in both, bytes at the end that are no digit of the
base are dropped; every other token reads as none. -/
def Obligations.IntegerTokensReadAsTheirNumber : Prop :=
  ∀ (t : Token) (v : Int), parseInt t = some v ↔ isHexNumeral t v ∨ isDecNumeral t v

/-- R49: the class of every token, at the default parameters: the case variants of `TLAST` are markers; those of `HEADER`,
`ID` and `HEADER/ID` are ignorable; what `parse_int` reads is that integer; every other token is bad. -/
def Obligations.ClassifierSortsEveryToken : Prop :=
  let isIgnorable := fun t : Token =>
    caseVariant t [0x48#8, 0x45#8, 0x41#8, 0x44#8, 0x45#8, 0x52#8] ∨ caseVariant t [0x49#8, 0x44#8] ∨
    caseVariant t [0x48#8, 0x45#8, 0x41#8, 0x44#8, 0x45#8, 0x52#8, 0x2F#8, 0x49#8, 0x44#8]
  ∀ t : Token,
    (classify Config.default t = .mark ↔ caseVariant t [0x54#8, 0x4C#8, 0x41#8, 0x53#8, 0x54#8]) ∧
    (classify Config.default t = .ign ↔ isIgnorable t) ∧
    (∀ v, classify Config.default t = .int v ↔ parseInt t = some v) ∧
    (classify Config.default t = .bad ↔
      ¬caseVariant t [0x54#8, 0x4C#8, 0x41#8, 0x53#8, 0x54#8] ∧ ¬isIgnorable t ∧ parseInt t = none)

/-- R4, R49: the order of the tests in every instance, with its own token sets and its own `parse_int` (which is given as a
table of the tokens it reads otherwise than R50: the model's form, notes/assumptions/10.md). -/
def Obligations.ClassifierTestsInOrder : Prop :=
  ∀ (cfg : Config) (t : Token),
    (fold t ∈ cfg.markers → classify cfg t = .mark) ∧
    (fold t ∉ cfg.markers → fold t ∈ cfg.ignorable → classify cfg t = .ign) ∧
    (fold t ∉ cfg.markers → fold t ∉ cfg.ignorable →
      (∀ v, cfg.parseIntTable.lookup t = some (some v) → classify cfg t = .int v) ∧
      (cfg.parseIntTable.lookup t = some none → classify cfg t = .bad) ∧
      (∀ v, cfg.parseIntTable.lookup t = none → parseInt t = some v → classify cfg t = .int v) ∧
      (cfg.parseIntTable.lookup t = none → parseInt t = none → classify cfg t = .bad))

/-- R86: no token is empty or holds a separator; a separator splits a text in two; a text without separators is one
token, or none if it is empty. -/
def Obligations.TokenizerSplitsAtSeparators : Prop :=
  ∀ cfg : Config,
    (∀ text : Text, ∀ t ∈ tokenize cfg text, t ≠ [] ∧ ∀ b ∈ t, b ∉ cfg.separators) ∧
    (∀ (x y : Text) (b : Byte), b ∈ cfg.separators →
      tokenize cfg (x ++ b :: y) = tokenize cfg x ++ tokenize cfg y) ∧
    (∀ t : Text, (∀ b ∈ t, b ∉ cfg.separators) → tokenize cfg t = if t = [] then [] else [t])

/-! ### PP: the micro-operations -/

/-- R90: the marker sets `SEEN` and `PEND`; a second marker before any terminal word closes the chunk, unless it is
empty. -/
def Obligations.TokMarkAnnouncesTheTerminalWord : Prop :=
  ∀ s : State, s.cfg.markerClose = .afterNextWord →
    (s.work.pend = false →
      exec .tokMark s = .next { s with work := { s.work with seen := true, pend := true } }) ∧
    (s.work.pend = true → s.work.cur = [] →
      exec .tokMark s = .next { s with work := { s.work with seen := true, pend := true } }) ∧
    (s.work.pend = true → s.work.cur ≠ [] →
      exec .tokMark s =
        .next { s with work := { s.work with seen := true, pend := true, chunks := s.work.chunks ++ [s.work.cur],
                                             cur := [] } })

/-- R101: with `P_MARKER_CLOSE = at_marker` the marker closes the chunk, and `PEND` is not touched. -/
def Obligations.TokMarkAtMarkerClosesTheChunk : Prop :=
  ∀ s : State, s.cfg.markerClose = .atMarker →
    (s.work.cur = [] → exec .tokMark s = .next { s with work := { s.work with seen := true } }) ∧
    (s.work.cur ≠ [] →
      exec .tokMark s =
        .next { s with work := { s.work with seen := true, chunks := s.work.chunks ++ [s.work.cur], cur := [] } })

/-- R91, R93, R121: an ignorable and a bad token write nothing at all. -/
def Obligations.IgnorableAndBadTokensWriteNothing : Prop :=
  ∀ s : State, exec .tokIgn s = .next s ∧ exec .tokBad s = .next s

/-- R92: an integer token goes into `FLAT` and `CUR`; the terminal word closes the chunk, whatever its length. -/
def Obligations.TokIntAccumulatesAndClosesWhenPending : Prop :=
  ∀ (v : Int) (s : State),
    (s.work.pend = false →
      exec (.tokInt v) s =
        .next { s with work := { s.work with flat := s.work.flat ++ [v], cur := s.work.cur ++ [v] } }) ∧
    (s.work.pend = true →
      exec (.tokInt v) s =
        .next { s with work := { s.work with flat := s.work.flat ++ [v],
                                             chunks := s.work.chunks ++ [s.work.cur ++ [v]],
                                             cur := [], pend := false } })

/-- R94 (with R97 for the pieces): at the end of the stream the mode is chosen, and `CHUNKS` is closed or rebuilt. -/
def Obligations.TokEosSelectsTheMode : Prop :=
  ∀ s : State,
    (s.work.seen = true → s.work.cur = [] →
      exec .tokEos s = .next { s with work := { s.work with mode := .marker } }) ∧
    (s.work.seen = true → s.work.cur ≠ [] →
      exec .tokEos s =
        .next { s with work := { s.work with mode := .marker, chunks := s.work.chunks ++ [s.work.cur], cur := [] } }) ∧
    (s.work.seen = false →
      let size := 1 + s.work.n
      let q := s.work.flat.length / size
      let r := s.work.flat.length % size
      exec .tokEos s =
        .next { s with work := { s.work with
          mode := .fixedSize
          chunks := (List.range q).map fun k => (s.work.flat.drop (k * size)).take size
          diags := if r = 0 then s.work.diags else s.work.diags ++ [.remainderDropped r] } })

/-! ### PP: the whole parse -/

/-- R85, R87: `PKT_PARSE` is its micro-operations, run one after another by `exec` on the tokens of the text and then on
the end of the stream, and then phase 4. -/
def Obligations.PktParseRunsItsMicroOperations : Prop :=
  ∀ (text : Text) (n : Int) (s : State), 1 ≤ n →
    ∃ u : State,
      execAll (tokenInstrs s.cfg text) { s with work := { s.work.atStart with n := n.toNat } } = .next u ∧
      exec (.pktParse text n) s =
        .next { s with work := u.work.extract,
                       outcome := some (.ok (.packets u.work.extract.pkts) u.work.extract.diags) }

/-- R85, R88, R26: for `N >= 1` every text is parsed to packets of exactly `N` values, and the text is read to its end;
`N < 1` is `Refused(BadConfig)`. The frame: HC, PF and GR elements, `TIN` and `TOKBUF` are as at an operation's start. -/
def Obligations.PktParseNeverFailsOnText : Prop :=
  (∀ (text : Text) (n : Int) (s : State), 1 ≤ n →
    ∃ w : Work,
      exec (.pktParse text n) s =
        .next { s with work := w, outcome := some (.ok (.packets w.pkts) w.diags) } ∧
      (∀ p ∈ w.pkts, (p.length : Int) = n) ∧
      w = { s.work.atStart with
            n := n.toNat, seen := w.seen, pend := w.pend, cur := w.cur, chunks := w.chunks, flat := w.flat
            mode := w.mode, diags := w.diags, pkts := w.pkts }) ∧
  ∀ (text : Text) (n : Int) (s : State), n < 1 →
    exec (.pktParse text n) s = .next { s with work := s.work.atStart, outcome := some (.refused .badConfig) }

/-- R95: the mode is `Marker` exactly when a token of class `MARK` occurred anywhere in the stream. -/
def Obligations.ModeIsMarkerIffAMarkerOccurred : Prop :=
  ∀ (text : Text) (n : Int) (s t : State), 1 ≤ n → exec (.pktParse text n) s = .next t →
    ((∃ tok ∈ tokenize s.cfg text, classify s.cfg tok = .mark) → t.work.mode = .marker) ∧
    ((∀ tok ∈ tokenize s.cfg text, classify s.cfg tok ≠ .mark) → t.work.mode = .fixedSize)

/-- R97, R98: without a marker the integer tokens are cut at multiples of `1 + N`, each piece is one packet less its
header, and a remainder is dropped with its diagnostic. -/
def Obligations.FixedSizeParseCutsTheFlatSequence : Prop :=
  ∀ (text : Text) (n : Nat) (s : State), 1 ≤ n →
    (∀ tok ∈ tokenize s.cfg text, classify s.cfg tok ≠ .mark) →
    let flat := intValues ((tokenize s.cfg text).map (classify s.cfg))
    let q := flat.length / (1 + n)
    let r := flat.length % (1 + n)
    ∃ t, exec (.pktParse text n) s = .next t ∧
      t.work.flat = flat ∧
      t.work.chunks = (List.range q).map (fun k => (flat.drop (k * (1 + n))).take (1 + n)) ∧
      t.outcome = some (.ok (.packets ((List.range q).map fun k => (flat.drop (k * (1 + n) + 1)).take n))
        (if r = 0 then [] else [.remainderDropped r]))

/-- R96 (and R92 for `FLAT`): with a marker no integer token is lost by the chunker; the chunks, none of them empty, are
the integer tokens in order. It holds under both settings of `P_MARKER_CLOSE`. -/
def Obligations.MarkerChunksHoldEveryIntegerToken : Prop :=
  ∀ (text : Text) (n : Int) (s t : State), 1 ≤ n → exec (.pktParse text n) s = .next t →
    (∃ tok ∈ tokenize s.cfg text, classify s.cfg tok = .mark) →
    t.work.chunks.flatten = intValues ((tokenize s.cfg text).map (classify s.cfg)) ∧
    (∀ c ∈ t.work.chunks, c ≠ []) ∧ t.work.cur = []

/-- R98, R99, R100, R130 (b): phase 4 on the final `CHUNKS`: one packet from every chunk long enough, and the diagnostics
in chunk order, after the one of phase 3. -/
def Obligations.ExtractionFollowsTheChunks : Prop :=
  ∀ (text : Text) (n : Nat) (s : State), 1 ≤ n →
    ∃ t, exec (.pktParse text n) s = .next t ∧
      let r := t.work.flat.length % (1 + n)
      t.outcome = some (.ok
        (.packets ((t.work.chunks.filter fun c => decide (1 + n ≤ c.length)).map fun c => (c.drop 1).take n))
        ((if t.work.mode = .fixedSize ∧ r ≠ 0 then [Diag.remainderDropped r] else []) ++
          t.work.chunks.zipIdx.filterMap fun ck =>
            if ck.1.length < 1 + n then some (.shortChunk ck.2 ck.1.length)
            else if 1 + n < ck.1.length then some (.longChunk ck.2 ck.1.length) else none))

/-- R83: what PF frames PP parses back, on the marker path and, with every `TLAST` line removed, on the fixed-size path;
with `at_marker` it does not hold. -/
def Obligations.FramedStreamsParseBack : Prop :=
  (∀ (ty b : Int) (n : Nat) (payloads : List (Payload × Int)) (s u : State), 1 ≤ n →
    (∀ v ∈ payloads, (v.1 ++ [v.2]).length = n) → s.cfg = Config.default → u.cfg = Config.default →
    let values := payloads.map fun p => p.1 ++ [p.2]
    let lines := streamLines (withHeaders ty b 0 payloads)
    (∃ v, exec (.strFrameIndep ty b values) u = .next v ∧
      v.outcome = some (.ok (.text (linesText u.cfg lines)) [])) ∧
    (∃ t, exec (.pktParse (linesText u.cfg lines) n) s = .next t ∧
      t.outcome = some (.ok (.packets values) []) ∧ (payloads ≠ [] → t.work.mode = .marker)) ∧
    ∃ t, exec (.pktParse (linesText u.cfg (lines.filter fun l => decide (l ≠ tlast))) n) s = .next t ∧
      t.outcome = some (.ok (.packets values) []) ∧ t.work.mode = .fixedSize) ∧
  ∃ (text : Text) (s t u v : State), u.cfg = Config.default ∧
    exec (.strFrameIndep 0 3 [[10, -20, 30, 40]]) u = .next v ∧ v.outcome = some (.ok (.text text) []) ∧
    s.cfg = { Config.default with markerClose := .atMarker } ∧
    exec (.pktParse text 4) s = .next t ∧
    t.outcome = some (.ok (.packets []) [.shortChunk 0 4, .shortChunk 1 1])

/-- R56, R89, R150: any integer at all is accepted in header position and has no effect on the packets. -/
def Obligations.HeaderWordsAreNotReadByTheParser : Prop :=
  ∀ (n : Nat) (packets : List (Int × Payload × Int)) (s : State), 1 ≤ n →
    (∀ p ∈ packets, (p.2.1 ++ [p.2.2]).length = n) → s.cfg = Config.default →
    ∃ t, exec (.pktParse (linesText s.cfg (streamLines packets)) n) s = .next t ∧
      t.outcome = some (.ok (.packets (payloadsOf packets)) [])

/-- R102: a stream of framed packets that has lost one marker. (a) Not the last packet's: the packet after it is lost and
`LongChunk` reports the place. (b) The last packet's: nothing is lost. -/
def Obligations.LostMarkerLosesOnlyTheSuccessor : Prop :=
  ∀ (n : Nat) (s : State), 1 ≤ n → s.cfg = Config.default →
    (∀ (before after : List (Int × Payload × Int)) (x y : Int × Payload × Int),
      (∀ p ∈ before ++ x :: y :: after, (p.2.1 ++ [p.2.2]).length = n) →
      ∃ t, exec (.pktParse (linesText s.cfg (streamLines before ++ bareLines [x] ++ streamLines (y :: after))) n) s =
          .next t ∧
        t.outcome = some (.ok (.packets (payloadsOf (before ++ x :: after)))
          [.longChunk before.length (2 * (1 + n))])) ∧
    ∀ (before : List (Int × Payload × Int)) (x : Int × Payload × Int), before ≠ [] →
      (∀ p ∈ before ++ [x], (p.2.1 ++ [p.2.2]).length = n) →
      ∃ t, exec (.pktParse (linesText s.cfg (streamLines before ++ bareLines [x])) n) s = .next t ∧
        t.outcome = some (.ok (.packets (payloadsOf (before ++ [x]))) [])

/-! ### GR -/

/-- R105, R106, R116: on operands of the right shapes (the surplus of the longer stream is not looked at) `GLD_REDUCE`
gives one record of `cols_b` pairs for each pair of the overlap, and the mismatch warning exactly when the lengths
differ. So with exact integers, where every value is in width, and so with finite widths where every value of every pair is
in them; otherwise it ends with the refusal R115 (d) asks for. (Which width bounds which value, and the refusal's name, are
the model's: notes/assumptions/11.md; what the refusal leaves, notes/assumptions/1.md.) The frame: only `DIAGS`, `RECS`,
`P`, `MAXV`, `ACC` and `TS` are left other than at an operation's start. -/
def Obligations.GldReduceRunsOnTheOverlap : Prop :=
  ∀ (as bs : List Payload) (ra ca cb : Nat) (start step : Int) (bases : List Int) (s : State),
    1 ≤ ra → 1 ≤ ca → 1 ≤ cb →
    (∀ ab ∈ as.zip bs, ab.1.length = ra * ca ∧ ab.2.length = ca * cb) →
    let inWidths := ∀ (p : Nat) (a b : Payload), (as.zip bs)[p]? = some (a, b) →
      pairInWidths s.cfg ⟨ra, ca, cb, start, step, bases⟩ p a b
    (s.cfg.wordBits = none → s.cfg.accBits = none → inWidths) ∧
    (inWidths →
      ∃ (w : Work),
        exec (.gldReduce as bs ra ca cb start step bases) s =
          .next { s with work := w, outcome := some (.ok (.records w.recs) w.diags) } ∧
        w.diags = (if as.length = bs.length then [] else [.streamLengthMismatch as.length bs.length]) ∧
        w.recs.length = min as.length bs.length ∧ (∀ r ∈ w.recs, r.length = cb) ∧
        w.p = min as.length bs.length ∧
        w = { s.work.atStart with
              diags := w.diags, recs := w.recs, p := w.p, maxv := w.maxv, acc := w.acc, ts := w.ts }) ∧
    (¬inWidths →
      exec (.gldReduce as bs ra ca cb start step bases) s =
        .next { s with work := s.work.atStart, outcome := some (.refused .widthExceeded) })

/-- R107, R108: each value is the maximum of the dot products of its column, over the rows of A. -/
def Obligations.GoldenValuesAreColumnMaxima : Prop :=
  ∀ (as bs : List Payload) (ra ca cb : Nat) (start step : Int) (bases : List Int) (s t : State)
    (rs : List GoldenRecord) (ds : List Diag),
    exec (.gldReduce as bs ra ca cb start step bases) s = .next t → t.outcome = some (.ok (.records rs) ds) →
    ∀ (p j : Nat) (rec : GoldenRecord) (m ts : Int), rs[p]? = some rec → rec[j]? = some (m, ts) →
      ∃ a b, as[p]? = some a ∧ bs[p]? = some b ∧ isColumnMaximum ra ca cb a b j m

/-- R110, R111, R112: the timestamp of column `j` of pair `p`, with a list of bases and without. -/
def Obligations.GoldenTimestampsFollowTheirBase : Prop :=
  ∀ (as bs : List Payload) (ra ca cb : Nat) (start step : Int) (bases : List Int) (s t : State)
    (rs : List GoldenRecord) (ds : List Diag),
    exec (.gldReduce as bs ra ca cb start step bases) s = .next t → t.outcome = some (.ok (.records rs) ds) →
    ∀ (p j : Nat) (rec : GoldenRecord) (m ts : Int), rs[p]? = some rec → rec[j]? = some (m, ts) →
      (bases = [] → ts = start + (p * cb + j) * step) ∧
      (∀ base, bases[p]? = some base → ts = base + j * step) ∧
      (∀ last, bases.getLast? = some last → bases.length ≤ p → ts = last + j * step)

/-- R144 (with R110, R112): with `step > 0` the timestamps of a record increase, and without bases those of a later
record come after those of an earlier one. -/
def Obligations.TimestampsIncreaseWhenTheStepIsPositive : Prop :=
  ∀ (as bs : List Payload) (ra ca cb : Nat) (start step : Int) (bases : List Int) (s t : State)
    (rs : List GoldenRecord) (ds : List Diag),
    0 < step →
    exec (.gldReduce as bs ra ca cb start step bases) s = .next t → t.outcome = some (.ok (.records rs) ds) →
    (∀ r ∈ rs, (r.map Prod.snd).Pairwise (· < ·)) ∧
    (bases = [] → (rs.flatten.map Prod.snd).Pairwise (· < ·))

/-- R117: the record of a pair depends only on that pair, the dimensions and the timestamp operands. -/
def Obligations.GoldenRecordsDependOnTheirPairOnly : Prop :=
  ∀ (as bs as' bs' : List Payload) (ra ca cb start step : Int) (bases : List Int) (s s' t t' : State)
    (rs rs' : List GoldenRecord) (ds ds' : List Diag),
    exec (.gldReduce as bs ra ca cb start step bases) s = .next t → t.outcome = some (.ok (.records rs) ds) →
    exec (.gldReduce as' bs' ra ca cb start step bases) s' = .next t' → t'.outcome = some (.ok (.records rs') ds') →
    ∀ p : Nat, p < rs.length → p < rs'.length → as[p]? = as'[p]? → bs[p]? = bs'[p]? → rs[p]? = rs'[p]?

/-- R20, R21, R105, R108: what the working elements hold after the last of at least one pair: the record's values, the
last dot product, the counter one step past the last column. That they keep these values after the operation is the model's
reading of R23 and R24, notes/assumptions/17.md: no later operation can see them. -/
def Obligations.GldReduceLeavesItsLastPair : Prop :=
  ∀ (as bs : List Payload) (a b : Payload) (ra ca cb : Nat) (start step : Int) (s t : State)
    (rs : List GoldenRecord) (ds : List Diag),
    as.length = bs.length →
    exec (.gldReduce (as ++ [a]) (bs ++ [b]) ra ca cb start step []) s = .next t →
    t.outcome = some (.ok (.records rs) ds) →
    (∃ rec, rs.getLast? = some rec ∧ t.work.maxv = rec.map Prod.fst) ∧
    t.work.acc = ∑ k ∈ Finset.range ca, a.getD ((ra - 1) * ca + k) 0 * b.getD (k * cb + (cb - 1)) 0 ∧
    t.work.ts = start + ((as.length + 1 : Nat) : Int) * step * cb

/-- R109: a dimension below 1 is `BadConfig`; a paired operand of the wrong length is `ShapeMismatch`, whatever the pairs
before it where integers are exact, and with finite widths where the pairs before it are in shape and in width
(R130 (a); the widths, and that shape is tested before width, are the model's reading, notes/assumptions/11.md). What the
elements hold after a refusal is notes/assumptions/1.md. -/
def Obligations.GldReduceRefusals : Prop :=
  (∀ (as bs : List Payload) (ra ca cb start step : Int) (bases : List Int) (s : State),
    ra < 1 ∨ ca < 1 ∨ cb < 1 →
    exec (.gldReduce as bs ra ca cb start step bases) s =
      .next { s with work := s.work.atStart, outcome := some (.refused .badConfig) }) ∧
  (∀ (as bs : List Payload) (ra ca cb : Nat) (start step : Int) (bases : List Int) (s : State),
    1 ≤ ra → 1 ≤ ca → 1 ≤ cb → s.cfg.wordBits = none → s.cfg.accBits = none →
    (∃ ab ∈ as.zip bs, ab.1.length ≠ ra * ca ∨ ab.2.length ≠ ca * cb) →
    exec (.gldReduce as bs ra ca cb start step bases) s =
      .next { s with work := s.work.atStart, outcome := some (.refused .shapeMismatch) }) ∧
  ∀ (as bs : List Payload) (a b : Payload) (ra ca cb p : Nat) (start step : Int) (bases : List Int) (s : State),
    1 ≤ ra → 1 ≤ ca → 1 ≤ cb → (as.zip bs)[p]? = some (a, b) → a.length ≠ ra * ca ∨ b.length ≠ ca * cb →
    (∀ (q : Nat) (c d : Payload), q < p → (as.zip bs)[q]? = some (c, d) →
      c.length = ra * ca ∧ d.length = ca * cb ∧ pairInWidths s.cfg ⟨ra, ca, cb, start, step, bases⟩ q c d) →
    exec (.gldReduce as bs ra ca cb start step bases) s =
      .next { s with work := s.work.atStart, outcome := some (.refused .shapeMismatch) }

/-- R115 (d), D4, U5 (the reading of the widths is the model's, notes/assumptions/11.md): with finite widths a record is
returned only where every word read is in `WORD_BITS`, and every product, every partial sum, every maximum and every value
of the timestamp counter in `ACC_BITS`. -/
def Obligations.FiniteWidthsNeverWrap : Prop :=
  ∀ (as bs : List Payload) (ra ca cb : Nat) (start step : Int) (bases : List Int) (s t : State)
    (rs : List GoldenRecord) (ds : List Diag),
    exec (.gldReduce as bs ra ca cb start step bases) s = .next t → t.outcome = some (.ok (.records rs) ds) →
    let inRange := fun (k : Nat) (v : Int) => -(2 ^ k) ≤ 2 * v ∧ 2 * v < 2 ^ k
    (∀ k, s.cfg.wordBits = some k → ∀ ab ∈ as.zip bs, ∀ v ∈ ab.1 ++ ab.2, inRange k v) ∧
    ∀ k, s.cfg.accBits = some k →
      (∀ ab ∈ as.zip bs, ∀ r, r < ra → ∀ j, j < cb →
        (∀ l, l < ca → inRange k (ab.1.getD (r * ca + l) 0 * ab.2.getD (l * cb + j) 0)) ∧
        ∀ m, m ≤ ca →
          inRange k (∑ l ∈ Finset.range m, ab.1.getD (r * ca + l) 0 * ab.2.getD (l * cb + j) 0)) ∧
      ∀ r ∈ rs, ∀ mt ∈ r, inRange k mt.1 ∧ inRange k mt.2 ∧ inRange k (mt.2 + step)

/-- R113, R114: the selector; the trace: each value and its stamp line, the marker, the last value again; an empty record refuses; the
worked example's lines. -/
def Obligations.GldEmitRepeatsTheLastValue : Prop :=
  (∀ o : Operands, decode (.cmd ⟨0x09#8, o⟩) = .ok (.gldEmit o.records)) ∧
  (∀ (records : List (GoldenRecord × (Int × Int))) (s : State),
    let lines := records.flatMap fun r =>
      (r.1 ++ [r.2]).flatMap (fun mt => [dec mt.1, [0x54#8, 0x20#8] ++ dec mt.2 ++ [0x20#8, 0x70#8, 0x73#8]]) ++
        [tlast, dec r.2.1]
    exec (.gldEmit (records.map fun r => r.1 ++ [r.2])) s =
      .next { s with work := s.work.atStart,
                     outcome := some (.ok (.text (linesText s.cfg lines)) []) }) ∧
  (∀ (records : List GoldenRecord) (s : State), [] ∈ records →
    exec (.gldEmit records) s = .next { s with work := s.work.atStart, outcome := some (.refused .emptyRecord) }) ∧
  ∀ s : State, ∃ t, exec (.gldEmit [[(43, 6553600), (50, 6582400)]]) s = .next t ∧
    t.outcome = some (.ok (.text (linesText s.cfg
      [[0x34#8, 0x33#8], [0x54#8, 0x20#8, 0x36#8, 0x35#8, 0x35#8, 0x33#8, 0x36#8, 0x30#8, 0x30#8, 0x20#8, 0x70#8, 0x73#8],
       [0x35#8, 0x30#8], [0x54#8, 0x20#8, 0x36#8, 0x35#8, 0x38#8, 0x32#8, 0x34#8, 0x30#8, 0x30#8, 0x20#8, 0x70#8, 0x73#8],
       [0x54#8, 0x4C#8, 0x41#8, 0x53#8, 0x54#8], [0x35#8, 0x30#8]])) [])

/-! ### The whole machine -/

/-- R11, R32: a step runs the instruction decoded from what stands next: the classifier's output if there is one, else
the host's next item, which it takes; and so for what is placed there. -/
def Obligations.StepRunsTheDecodedInstruction : Prop :=
  (∀ (i : Instr) (c : Command) (rest : List HostItem) (s : State), s.cls = none → s.host = .issue c :: rest →
    decode (.cmd c) = .ok i → step s = exec i { s with host := rest }) ∧
  (∀ (i : Instr) (w : Word32) (rest : List HostItem) (s : State), s.cls = none → s.host = .data w :: rest →
    decode (.data w) = .ok i → step s = exec i { s with host := rest }) ∧
  (∀ (i : Instr) (classCode : Byte) (v : Int) (s : State), s.cls = some (classCode, v) →
    decode (.token classCode v) = .ok i → step s = exec i { s with cls := none }) ∧
  ∀ (i : Instr) (nbits w : Nat) (s : State), decodeTableWord nbits w = some i →
    step (s.withFetchWord nbits w) = exec i { s with cls := none }

/-- R8, R12, R133: every instruction goes on to a next state, in every state, and writes none of the parameters, the
host's lists and the classifier's latch. (That a refusal goes on is notes/assumptions/1.md; the lists and the latch are
the model's, notes/assumptions/5.md, 7.md and 13.md.) -/
def Obligations.EveryInstructionGoesOn : Prop :=
  ∀ (i : Instr) (s : State), ∃ t, exec i s = .next t ∧ t.cfg = s.cfg ∧ t.host = s.host ∧
    t.hostDiags = s.hostDiags ∧ t.cls = s.cls

/-- The invariant of Safety.lean holds right after reset. -/
def Obligations.InvariantHoldsAtReset : Prop := State.reset.Inv

/-- R16, R17, R27, R86, R90, R96, R98, R120, R127: every step keeps the invariant. -/
def Obligations.StepKeepsTheInvariant : Prop :=
  ∀ s t : State, s.Inv → step s = .next t → t.Inv

/-- R11, R12: a step takes at most the host's first item, never writes a parameter, and only adds to the host's
diagnostics; after it no micro-operation waits. The host's list, the classifier's latch and the host's diagnostics are the
model's own fields: notes/assumptions/5.md, 7.md and 13.md. -/
def Obligations.StepTakesTheHostsItemsInOrder : Prop :=
  ∀ s t : State, step s = .next t →
    t.cfg = s.cfg ∧ t.cls = none ∧ s.hostDiags <+: t.hostDiags ∧
    (s.cls ≠ none → t.host = s.host) ∧ (s.cls = none → t.host = s.host.tail)

/-- R24, R140, R141: what reset and the start of every operation leave; after reset PSC is idle. -/
def Obligations.ResetLeavesTheElementsAtTheirValues : Prop :=
  (∀ w : Work,
    let z := w.atStart
    z.out = [] ∧ z.pi = 0 ∧ z.tokbuf = [] ∧ z.seen = false ∧ z.pend = false ∧ z.cur = [] ∧ z.chunks = [] ∧
    z.flat = [] ∧ z.p = 0 ∧ z.recs = [] ∧ z.diags = []) ∧
  State.reset.work = State.reset.work.atStart ∧ State.reset.cfg = Config.default ∧
  step State.reset = .next State.reset

/-- R8, R23, R33: the outcome of an operation is a function of its operands and the parameters: nothing of what an
earlier operation left, of the host's lists or of the latch, is seen in it. -/
def Obligations.OutcomeDependsOnOperandsOnly : Prop :=
  ∀ (i : Instr) (s t : State), isOperation i = true → s.cfg = t.cfg → sameSeen (exec i s) (exec i t)

/-- An operation that is refused leaves no text, no diagnostics, no packets and no records. R27, R125 and R132 say that
nothing of them is returned; that the elements themselves are empty is the model's choice, notes/assumptions/1.md. -/
def Obligations.RefusedOperationLeavesNoOutput : Prop :=
  ∀ (i : Instr) (s t : State) (e : Reason), isOperation i = true → exec i s = .next t →
    t.outcome = some (.refused e) →
    t.work.out = [] ∧ t.work.diags = [] ∧ t.work.pkts = [] ∧ t.work.recs = []

/-- R28, R120, R122, R123, R124: which operation raises which diagnostic. -/
def Obligations.DiagnosticsComeFromTheirOperation : Prop :=
  ∀ (i : Instr) (s t : State) (r : Result) (ds : List Diag), isOperation i = true → exec i s = .next t →
    t.outcome = some (.ok r ds) →
    ((∀ text n, i ≠ .pktParse text n) → (∀ as bs ra ca cb start step bases,
      i ≠ .gldReduce as bs ra ca cb start step bases) → ds = []) ∧
    (∀ text n, i = .pktParse text n →
      (t.work.mode = .fixedSize → ds.length ≤ 1 ∧ ∀ d ∈ ds, ∃ k, d = .remainderDropped k ∧ 0 < k ∧ (k : Int) < 1 + n) ∧
      (t.work.mode = .marker → ∀ d ∈ ds, ∃ k len, (d = .shortChunk k len ∧ (len : Int) < 1 + n) ∨
        (d = .longChunk k len ∧ 1 + n < (len : Int)))) ∧
    (∀ as bs ra ca cb start step bases, i = .gldReduce as bs ra ca cb start step bases →
      ds = if as.length = bs.length then [] else [.streamLengthMismatch as.length bs.length])

/-- R141: with nothing handed over PSC stays as it is. (notes/assumptions/5.md) -/
def Obligations.IdleStepChangesNothing : Prop :=
  ∀ s : State, s.cls = none → s.host = [] → step s = .next s

/-- R126, R27, R133: a missing required input file ends the run `Fatal(MissingInputFile)` before the next operation starts,
with nothing returned and every working element at an operation's start; and whatever operation the host issues after it
ends as from reset state. (That the list goes on with what the host issues next, and what the elements hold:
notes/assumptions/2.md.) -/
def Obligations.MissingInputFileAbortsTheRun : Prop :=
  ∀ (s : State) (rest : List HostItem), s.cls = none → s.host = .missingInputFile :: rest →
    ∃ t, step s = .next t ∧
      t = { s with host := rest, work := s.work.atStart, outcome := some (.fatal .missingInputFile) } ∧
      ∀ (c : Command) (later : List HostItem) (i : Instr), rest = .issue c :: later → decode (.cmd c) = .ok i →
        ∃ u v, step t = .next u ∧ exec i { State.reset with cfg := s.cfg } = .next v ∧ u.outcome = v.outcome

/-- R127: a failed lookup calls the operation with id 0 (base id 0), or type 0, or both, and the host records the
diagnostic.
(notes/assumptions/13.md) -/
def Obligations.FailedLookupDefaultsToZero : Prop :=
  ∀ (ty id b n : Int) (payloads : List Payload) (buffer : Payload) (c : Command) (noId noType : Bool)
    (rest : List HostItem) (s : State),
    s.cls = none → s.host = .issueUnresolved c noId noType :: rest → (noId = true ∨ noType = true) →
    let s' : State := { s with host := rest, hostDiags := s.hostDiags ++ [.symbolTableMissing] }
    let ty' := if noType = true then 0 else ty
    (encode (.hdrBuild ty id) = .cmd c → step s = exec (.hdrBuild ty' (if noId = true then 0 else id)) s') ∧
    (encode (.strFrameIndep ty b payloads) = .cmd c →
      step s = exec (.strFrameIndep ty' (if noId = true then 0 else b) payloads) s') ∧
    (encode (.strFrameSplit ty b buffer n) = .cmd c →
      step s = exec (.strFrameSplit ty' (if noId = true then 0 else b) buffer n) s')
end

