-- ==== Sys2Proof/Laws/State.lean ====
section
/-! SUPPORT. What each update of the state does to each field: one lemma a field, so that no proof unfolds an update. -/

namespace Sys2Proof.Machine

/-! ### The end of an operation -/

@[simp] theorem finish_cfg (s : State) (w : Work) (r : Result) : (s.finish w r).cfg = s.cfg := rfl
@[simp] theorem finish_host (s : State) (w : Work) (r : Result) : (s.finish w r).host = s.host := rfl
@[simp] theorem finish_hostDiags (s : State) (w : Work) (r : Result) : (s.finish w r).hostDiags = s.hostDiags := rfl
@[simp] theorem finish_cls (s : State) (w : Work) (r : Result) : (s.finish w r).cls = s.cls := rfl
@[simp] theorem finish_work (s : State) (w : Work) (r : Result) : (s.finish w r).work = w.release := rfl
@[simp] theorem finish_outcome (s : State) (w : Work) (r : Result) : (s.finish w r).outcome = some (.ok r w.diags) := rfl

@[simp] theorem refuse_cfg (s : State) (e : Reason) : (s.refuse e).cfg = s.cfg := rfl
@[simp] theorem refuse_host (s : State) (e : Reason) : (s.refuse e).host = s.host := rfl
@[simp] theorem refuse_hostDiags (s : State) (e : Reason) : (s.refuse e).hostDiags = s.hostDiags := rfl
@[simp] theorem refuse_cls (s : State) (e : Reason) : (s.refuse e).cls = s.cls := rfl
@[simp] theorem refuse_work (s : State) (e : Reason) : (s.refuse e).work = s.work.atStart := rfl
@[simp] theorem refuse_outcome (s : State) (e : Reason) : (s.refuse e).outcome = some (.refused e) := rfl

@[simp] theorem abort_cfg (s : State) (e : FatalReason) : (s.abort e).cfg = s.cfg := rfl
@[simp] theorem abort_host (s : State) (e : FatalReason) : (s.abort e).host = s.host := rfl
@[simp] theorem abort_hostDiags (s : State) (e : FatalReason) : (s.abort e).hostDiags = s.hostDiags := rfl
@[simp] theorem abort_cls (s : State) (e : FatalReason) : (s.abort e).cls = s.cls := rfl
@[simp] theorem abort_work (s : State) (e : FatalReason) : (s.abort e).work = s.work.atStart := rfl
@[simp] theorem abort_outcome (s : State) (e : FatalReason) : (s.abort e).outcome = some (.fatal e) := rfl

/-! ### The working elements -/

@[simp] theorem release_tin (w : Work) : w.release.tin = w.tin := rfl
@[simp] theorem release_out (w : Work) : w.release.out = [] := rfl
@[simp] theorem release_diags (w : Work) : w.release.diags = w.diags := rfl
@[simp] theorem release_pi (w : Work) : w.release.pi = 0 := rfl
@[simp] theorem release_tokbuf (w : Work) : w.release.tokbuf = w.tokbuf := rfl
@[simp] theorem release_seen (w : Work) : w.release.seen = w.seen := rfl
@[simp] theorem release_pend (w : Work) : w.release.pend = w.pend := rfl
@[simp] theorem release_cur (w : Work) : w.release.cur = w.cur := rfl
@[simp] theorem release_chunks (w : Work) : w.release.chunks = w.chunks := rfl
@[simp] theorem release_flat (w : Work) : w.release.flat = w.flat := rfl
@[simp] theorem release_mode (w : Work) : w.release.mode = w.mode := rfl
@[simp] theorem release_n (w : Work) : w.release.n = w.n := rfl
@[simp] theorem release_pkts (w : Work) : w.release.pkts = w.pkts := rfl
@[simp] theorem release_maxv (w : Work) : w.release.maxv = w.maxv := rfl
@[simp] theorem release_acc (w : Work) : w.release.acc = w.acc := rfl
@[simp] theorem release_p (w : Work) : w.release.p = w.p := rfl
@[simp] theorem release_ts (w : Work) : w.release.ts = w.ts := rfl
@[simp] theorem release_recs (w : Work) : w.release.recs = w.recs := rfl

/-- An operation that left `OUT` and `PI` alone has nothing to release. -/
theorem release_of_untouched {w : Work} (ho : w.out = []) (hp : w.pi = 0) : w.release = w := by
  cases w
  simp_all [Work.release]

@[simp] theorem release_atStart (w : Work) : w.atStart.release = w.atStart := rfl

@[simp] theorem atStart_tin (w : Work) : (w.atStart).tin = [] := rfl
@[simp] theorem atStart_out (w : Work) : (w.atStart).out = [] := rfl
@[simp] theorem atStart_diags (w : Work) : (w.atStart).diags = [] := rfl
@[simp] theorem atStart_pi (w : Work) : (w.atStart).pi = 0 := rfl
@[simp] theorem atStart_tokbuf (w : Work) : (w.atStart).tokbuf = [] := rfl
@[simp] theorem atStart_seen (w : Work) : (w.atStart).seen = false := rfl
@[simp] theorem atStart_pend (w : Work) : (w.atStart).pend = false := rfl
@[simp] theorem atStart_cur (w : Work) : (w.atStart).cur = [] := rfl
@[simp] theorem atStart_chunks (w : Work) : (w.atStart).chunks = [] := rfl
@[simp] theorem atStart_flat (w : Work) : (w.atStart).flat = [] := rfl
@[simp] theorem atStart_mode (w : Work) : (w.atStart).mode = w.mode := rfl
@[simp] theorem atStart_n (w : Work) : (w.atStart).n = 0 := rfl
@[simp] theorem atStart_pkts (w : Work) : (w.atStart).pkts = [] := rfl
@[simp] theorem atStart_maxv (w : Work) : (w.atStart).maxv = w.maxv := rfl
@[simp] theorem atStart_acc (w : Work) : (w.atStart).acc = w.acc := rfl
@[simp] theorem atStart_p (w : Work) : (w.atStart).p = 0 := rfl
@[simp] theorem atStart_ts (w : Work) : (w.atStart).ts = w.ts := rfl
@[simp] theorem atStart_recs (w : Work) : (w.atStart).recs = [] := rfl

@[simp] theorem raise_tin (w : Work) (d : Diag) : (w.raise d).tin = w.tin := rfl
@[simp] theorem raise_out (w : Work) (d : Diag) : (w.raise d).out = w.out := rfl
@[simp] theorem raise_diags (w : Work) (d : Diag) : (w.raise d).diags = w.diags ++ [d] := rfl
@[simp] theorem raise_pi (w : Work) (d : Diag) : (w.raise d).pi = w.pi := rfl
@[simp] theorem raise_tokbuf (w : Work) (d : Diag) : (w.raise d).tokbuf = w.tokbuf := rfl
@[simp] theorem raise_seen (w : Work) (d : Diag) : (w.raise d).seen = w.seen := rfl
@[simp] theorem raise_pend (w : Work) (d : Diag) : (w.raise d).pend = w.pend := rfl
@[simp] theorem raise_cur (w : Work) (d : Diag) : (w.raise d).cur = w.cur := rfl
@[simp] theorem raise_chunks (w : Work) (d : Diag) : (w.raise d).chunks = w.chunks := rfl
@[simp] theorem raise_flat (w : Work) (d : Diag) : (w.raise d).flat = w.flat := rfl
@[simp] theorem raise_mode (w : Work) (d : Diag) : (w.raise d).mode = w.mode := rfl
@[simp] theorem raise_n (w : Work) (d : Diag) : (w.raise d).n = w.n := rfl
@[simp] theorem raise_pkts (w : Work) (d : Diag) : (w.raise d).pkts = w.pkts := rfl
@[simp] theorem raise_maxv (w : Work) (d : Diag) : (w.raise d).maxv = w.maxv := rfl
@[simp] theorem raise_acc (w : Work) (d : Diag) : (w.raise d).acc = w.acc := rfl
@[simp] theorem raise_p (w : Work) (d : Diag) : (w.raise d).p = w.p := rfl
@[simp] theorem raise_ts (w : Work) (d : Diag) : (w.raise d).ts = w.ts := rfl
@[simp] theorem raise_recs (w : Work) (d : Diag) : (w.raise d).recs = w.recs := rfl

@[simp] theorem closeChunk_tin (w : Work) : (w.closeChunk).tin = w.tin := rfl
@[simp] theorem closeChunk_out (w : Work) : (w.closeChunk).out = w.out := rfl
@[simp] theorem closeChunk_diags (w : Work) : (w.closeChunk).diags = w.diags := rfl
@[simp] theorem closeChunk_pi (w : Work) : (w.closeChunk).pi = w.pi := rfl
@[simp] theorem closeChunk_tokbuf (w : Work) : (w.closeChunk).tokbuf = w.tokbuf := rfl
@[simp] theorem closeChunk_seen (w : Work) : (w.closeChunk).seen = w.seen := rfl
@[simp] theorem closeChunk_pend (w : Work) : (w.closeChunk).pend = w.pend := rfl
@[simp] theorem closeChunk_cur (w : Work) : (w.closeChunk).cur = [] := rfl
@[simp] theorem closeChunk_chunks (w : Work) : (w.closeChunk).chunks = if w.cur = [] then w.chunks else w.chunks ++ [w.cur] := rfl
@[simp] theorem closeChunk_flat (w : Work) : (w.closeChunk).flat = w.flat := rfl
@[simp] theorem closeChunk_mode (w : Work) : (w.closeChunk).mode = w.mode := rfl
@[simp] theorem closeChunk_n (w : Work) : (w.closeChunk).n = w.n := rfl
@[simp] theorem closeChunk_pkts (w : Work) : (w.closeChunk).pkts = w.pkts := rfl
@[simp] theorem closeChunk_maxv (w : Work) : (w.closeChunk).maxv = w.maxv := rfl
@[simp] theorem closeChunk_acc (w : Work) : (w.closeChunk).acc = w.acc := rfl
@[simp] theorem closeChunk_p (w : Work) : (w.closeChunk).p = w.p := rfl
@[simp] theorem closeChunk_ts (w : Work) : (w.closeChunk).ts = w.ts := rfl
@[simp] theorem closeChunk_recs (w : Work) : (w.closeChunk).recs = w.recs := rfl

@[simp] theorem parseStart_tin (w : Work) (text : Text) (n : Int) : (w.parseStart text n).tin = text := rfl
@[simp] theorem parseStart_out (w : Work) (text : Text) (n : Int) : (w.parseStart text n).out = [] := rfl
@[simp] theorem parseStart_diags (w : Work) (text : Text) (n : Int) : (w.parseStart text n).diags = [] := rfl
@[simp] theorem parseStart_pi (w : Work) (text : Text) (n : Int) : (w.parseStart text n).pi = 0 := rfl
@[simp] theorem parseStart_tokbuf (w : Work) (text : Text) (n : Int) : (w.parseStart text n).tokbuf = [] := rfl
@[simp] theorem parseStart_seen (w : Work) (text : Text) (n : Int) : (w.parseStart text n).seen = false := rfl
@[simp] theorem parseStart_pend (w : Work) (text : Text) (n : Int) : (w.parseStart text n).pend = false := rfl
@[simp] theorem parseStart_cur (w : Work) (text : Text) (n : Int) : (w.parseStart text n).cur = [] := rfl
@[simp] theorem parseStart_chunks (w : Work) (text : Text) (n : Int) : (w.parseStart text n).chunks = [] := rfl
@[simp] theorem parseStart_flat (w : Work) (text : Text) (n : Int) : (w.parseStart text n).flat = [] := rfl
@[simp] theorem parseStart_mode (w : Work) (text : Text) (n : Int) : (w.parseStart text n).mode = w.mode := rfl
@[simp] theorem parseStart_n (w : Work) (text : Text) (n : Int) : (w.parseStart text n).n = n.toNat := rfl
@[simp] theorem parseStart_pkts (w : Work) (text : Text) (n : Int) : (w.parseStart text n).pkts = [] := rfl
@[simp] theorem parseStart_maxv (w : Work) (text : Text) (n : Int) : (w.parseStart text n).maxv = w.maxv := rfl
@[simp] theorem parseStart_acc (w : Work) (text : Text) (n : Int) : (w.parseStart text n).acc = w.acc := rfl
@[simp] theorem parseStart_p (w : Work) (text : Text) (n : Int) : (w.parseStart text n).p = 0 := rfl
@[simp] theorem parseStart_ts (w : Work) (text : Text) (n : Int) : (w.parseStart text n).ts = w.ts := rfl
@[simp] theorem parseStart_recs (w : Work) (text : Text) (n : Int) : (w.parseStart text n).recs = [] := rfl

@[simp] theorem reducePair_tin (g : ReduceConfig) (w : Work) (a b : Payload) : (w.reducePair g a b).tin = w.tin := rfl
@[simp] theorem reducePair_out (g : ReduceConfig) (w : Work) (a b : Payload) : (w.reducePair g a b).out = w.out := rfl
@[simp] theorem reducePair_diags (g : ReduceConfig) (w : Work) (a b : Payload) : (w.reducePair g a b).diags = w.diags := rfl
@[simp] theorem reducePair_pi (g : ReduceConfig) (w : Work) (a b : Payload) : (w.reducePair g a b).pi = w.pi := rfl
@[simp] theorem reducePair_tokbuf (g : ReduceConfig) (w : Work) (a b : Payload) : (w.reducePair g a b).tokbuf = w.tokbuf := rfl
@[simp] theorem reducePair_seen (g : ReduceConfig) (w : Work) (a b : Payload) : (w.reducePair g a b).seen = w.seen := rfl
@[simp] theorem reducePair_pend (g : ReduceConfig) (w : Work) (a b : Payload) : (w.reducePair g a b).pend = w.pend := rfl
@[simp] theorem reducePair_cur (g : ReduceConfig) (w : Work) (a b : Payload) : (w.reducePair g a b).cur = w.cur := rfl
@[simp] theorem reducePair_chunks (g : ReduceConfig) (w : Work) (a b : Payload) : (w.reducePair g a b).chunks = w.chunks := rfl
@[simp] theorem reducePair_flat (g : ReduceConfig) (w : Work) (a b : Payload) : (w.reducePair g a b).flat = w.flat := rfl
@[simp] theorem reducePair_mode (g : ReduceConfig) (w : Work) (a b : Payload) : (w.reducePair g a b).mode = w.mode := rfl
@[simp] theorem reducePair_n (g : ReduceConfig) (w : Work) (a b : Payload) : (w.reducePair g a b).n = w.n := rfl
@[simp] theorem reducePair_pkts (g : ReduceConfig) (w : Work) (a b : Payload) : (w.reducePair g a b).pkts = w.pkts := rfl
@[simp] theorem reducePair_maxv (g : ReduceConfig) (w : Work) (a b : Payload) : (w.reducePair g a b).maxv = colMaxima g a b := rfl
@[simp] theorem reducePair_acc (g : ReduceConfig) (w : Work) (a b : Payload) : (w.reducePair g a b).acc = rowDot g a b (g.rowsA - 1) (g.colsB - 1) := rfl
@[simp] theorem reducePair_p (g : ReduceConfig) (w : Work) (a b : Payload) : (w.reducePair g a b).p = w.p + 1 := rfl
@[simp] theorem reducePair_ts (g : ReduceConfig) (w : Work) (a b : Payload) : (w.reducePair g a b).ts = (stampRecord g.step (colMaxima g a b) (baseTimestamp g w.p)).2 := rfl
@[simp] theorem reducePair_recs (g : ReduceConfig) (w : Work) (a b : Payload) : (w.reducePair g a b).recs = w.recs ++ [(stampRecord g.step (colMaxima g a b) (baseTimestamp g w.p)).1] := rfl

end Sys2Proof.Machine
end

