-- ==== Sys2Proof/Laws/Ops.lean ====
section
/-! SUPPORT. What the shared operations can do, each said once: the end of an operation, emitted lines, slices, header
words. -/

namespace Sys2Proof.Machine

/-! ### The end of an operation -/

@[simp] theorem conclude_ok (s : State) (w : Work) (r : Result) : conclude s (.ok (w, r)) = .next (s.finish w r) := rfl

@[simp] theorem conclude_error (s : State) (e : Reason) : conclude s (.error e) = .next (s.refuse e) := rfl

/-- Everything `conclude` can do. -/
theorem conclude_cases {s t : State} {x : Except Reason (Work × Result)} (h : conclude s x = .next t) :
    (∃ w r, x = .ok (w, r) ∧ t = s.finish w r) ∨ ∃ e, x = .error e ∧ t = s.refuse e := by
  match x, h with
  | .ok (w, r), h => exact .inl ⟨w, r, rfl, by simpa using h.symm⟩
  | .error e, h => exact .inr ⟨e, rfl, by simpa using h.symm⟩

/-- `conclude` always goes on, and writes the working state and the outcome only. -/
theorem conclude_goes_on (s : State) (x : Except Reason (Work × Result)) :
    ∃ t, conclude s x = .next t ∧ t.cfg = s.cfg ∧ t.host = s.host ∧ t.hostDiags = s.hostDiags ∧ t.cls = s.cls := by
  match x with
  | .ok (w, r) => exact ⟨_, rfl, rfl, rfl, rfl, rfl⟩
  | .error e => exact ⟨_, rfl, rfl, rfl, rfl, rfl⟩

@[simp] theorem atStart_atStart (w : Work) : w.atStart.atStart = w.atStart := rfl

/-! ### Lines -/

/-- `Emit` after `Emit` appends the lines' text (R27, R35 (b)). -/
theorem emitLines_eq (cfg : Config) (out : Text) (lines : List Text) :
    emitLines cfg out lines = out ++ linesText cfg lines := by
  induction lines generalizing out with
  | nil => simp [emitLines, linesText]
  | cons l rest ih =>
    have h : emitLines cfg out (l :: rest) = emitLines cfg (emit cfg out l) rest := rfl
    rw [h, ih]
    simp [emit, linesText]

@[simp] theorem linesText_nil (cfg : Config) : linesText cfg [] = [] := rfl

@[simp] theorem linesText_append (cfg : Config) (a b : List Text) :
    linesText cfg (a ++ b) = linesText cfg a ++ linesText cfg b := by
  simp [linesText]

theorem linesText_cons (cfg : Config) (l : Text) (rest : List Text) :
    linesText cfg (l :: rest) = l ++ cfg.lineEnd :: linesText cfg rest := by
  simp [linesText]

/-- A text of lines is whole lines (R27). -/
theorem wholeLines_linesText (cfg : Config) (lines : List Text) : wholeLines cfg (linesText cfg lines) := by
  induction lines using List.reverseRecOn with
  | nil => exact .inl rfl
  | append_singleton front last _ => exact .inr (by simp [linesText])

/-- Whole lines after whole lines are whole lines. -/
theorem wholeLines_append {cfg : Config} {a b : Text} (ha : wholeLines cfg a) (hb : wholeLines cfg b) :
    wholeLines cfg (a ++ b) := by
  rcases hb with rfl | hb
  · simpa using ha
  · exact .inr (by simp [List.getLast?_append, hb])

/-! ### Slices -/

/-- Every slice is full. -/
theorem length_of_mem_slices {α : Type} {size : Nat} {l c : List α} (h : c ∈ slices size l) : c.length = size := by
  simp only [slices, List.mem_map, List.mem_range] at h
  obtain ⟨k, hk, rfl⟩ := h
  have hmul : (k + 1) * size ≤ l.length := le_trans (Nat.mul_le_mul_right _ hk) (Nat.div_mul_le_self _ _)
  have : k * size + size ≤ l.length := by simpa [Nat.succ_mul] using hmul
  simp only [List.length_take, List.length_drop]
  omega

@[simp] theorem length_slices {α : Type} (size : Nat) (l : List α) : (slices size l).length = l.length / size := by
  simp [slices]

/-- The slices of lists of one size laid end to end are those lists (R82). -/
theorem slices_flatten {α : Type} {size : Nat} (hs : 0 < size) (ls : List (List α)) (h : ∀ c ∈ ls, c.length = size) :
    slices size ls.flatten = ls := by
  have hlen : ∀ ls : List (List α), (∀ c ∈ ls, c.length = size) → ls.flatten.length = ls.length * size := by
    intro ls h
    induction ls with
    | nil => simp
    | cons c rest ih =>
      have hc := h c (by simp)
      have hr := ih fun d hd => h d (by simp [hd])
      simp [hc, hr, Nat.succ_mul, Nat.add_comm]
  induction ls with
  | nil => simp [slices]
  | cons c rest ih =>
    have hc := h c (by simp)
    have hrest : ∀ d ∈ rest, d.length = size := fun d hd => h d (by simp [hd])
    have hr := hlen rest hrest
    have hq : (c :: rest).flatten.length / size = rest.length + 1 := by
      rw [hlen _ h]; simp [Nat.mul_div_cancel _ hs]
    have hq' : rest.flatten.length / size = rest.length := by rw [hr, Nat.mul_div_cancel _ hs]
    have ih := ih hrest
    simp only [slices, hq'] at ih
    simp only [slices, hq, List.range_succ_eq_map, List.map_cons, List.map_map]
    congr 1
    · simp [hc]
    · conv_rhs => rw [← ih]
      apply List.map_congr_left
      intro k _
      have h1 : (k + 1) * size = c.length + k * size := by rw [hc, Nat.succ_mul, Nat.add_comm]
      simp only [Function.comp, List.flatten_cons, Nat.succ_eq_add_one, h1, List.drop_append,
        List.drop_eq_nil_of_le (Nat.le_add_right c.length (k * size)), List.nil_append, Nat.add_sub_cancel_left]

/-! ### Header words -/

theorem popcount_lt_succ {w : Nat} (x : BitVec w) : popcount x ≤ w := by
  have := List.countP_le_length (p := fun i => x.getLsbD i) (l := List.range w)
  simpa [popcount] using this

/-- Header words are read back field by field (R42). -/
theorem fields_of_headerWord : ∀ (p : BitVec 1) (ty : BitVec 3) (id : BitVec 5),
    hdr32Fixed (headerWord p ty id) = true ∧ fieldParity (headerWord p ty id) = p ∧
      fieldPacketType (headerWord p ty id) = ty ∧ fieldPacketId (headerWord p ty id) = id := by
  decide

/-- The result of `HDR_BUILD`, when there is one, is the assembled header (R65, R66). -/
theorem buildHeader_ok {cfg : Config} {ty id : Int} {h : Word32} (hb : buildHeader cfg ty id = .ok h) :
    h = assembleHeader (maskType ty) (maskId id) := by
  unfold buildHeader at hb
  split at hb
  · exact (by simpa using hb.symm)
  · split at hb
    · exact (by simpa using hb.symm)
    · cases hb

/-- The operand test of R68, R69 and R75. -/
theorem word32Of_eq_some {h : Int} (h0 : 0 ≤ h) (h1 : h < 4294967296) : word32Of h = some (BitVec.ofInt 32 h) := by
  simp [word32Of, h0, h1]

theorem word32Of_eq_none {h : Int} (hh : h < 0 ∨ 4294967296 ≤ h) : word32Of h = none := by
  have : ¬(0 ≤ h ∧ h < 4294967296) := by omega
  simp [word32Of, this]

@[simp] theorem word32Of_toNat (w : Word32) : word32Of w.toNat = some w := by
  have h1 : (w.toNat : Int) < 4294967296 := by exact_mod_cast w.isLt
  rw [word32Of_eq_some (by positivity) h1]
  simp

end Sys2Proof.Machine
end

