-- ==== Sys2Proof/Laws/Fetch.lean ====
section
/-! SUPPORT. What the fetch and the step can do, each said once. -/

namespace Sys2Proof.Machine

/-! ### Placing and fetching -/

@[simp] theorem place_cfg (s : State) (f : Fetched) : (s.place f).cfg = s.cfg := by cases f <;> rfl
@[simp] theorem place_hostDiags (s : State) (f : Fetched) : (s.place f).hostDiags = s.hostDiags := by cases f <;> rfl
@[simp] theorem place_work (s : State) (f : Fetched) : (s.place f).work = s.work := by cases f <;> rfl
@[simp] theorem place_outcome (s : State) (f : Fetched) : (s.place f).outcome = s.outcome := by cases f <;> rfl

/-- What has been placed is what the next fetch takes, and it takes nothing else. -/
@[simp] theorem fetch_place (s : State) (f : Fetched) : fetch (s.place f) = .item f { s with cls := none } := by
  cases f <;> rfl

/-- Everything the fetch can do (R11, R62, R126, R127). -/
theorem fetch_cases (s : State) :
    (s.cls = none ∧ s.host = [] ∧ fetch s = .idle) ∨
    (s.cls = none ∧ (∃ rest, s.host = .missingInputFile :: rest ∧ fetch s = .abort { s with host := rest })) ∨
    (∃ classCode v, s.cls = some (classCode, v) ∧ fetch s = .item (.token classCode v) { s with cls := none }) ∨
    (∃ c rest, s.cls = none ∧ s.host = .issue c :: rest ∧ fetch s = .item (.cmd c) { s with host := rest }) ∨
    (∃ c noId noType rest, s.cls = none ∧ s.host = .issueUnresolved c noId noType :: rest ∧
      fetch s = .item (.cmd (defaultLookup c noId noType))
        { s with host := rest, hostDiags := s.hostDiags ++ [.symbolTableMissing] }) ∨
    (∃ w rest, s.cls = none ∧ s.host = .data w :: rest ∧ fetch s = .item (.data w) { s with host := rest }) := by
  rcases hc : s.cls with _ | ⟨classCode, v⟩
  · rcases hh : s.host with _ | ⟨c | ⟨c, noId, noType⟩ | w | _, rest⟩
    · exact .inl ⟨rfl, rfl, by simp [fetch, hc, hh]⟩
    · exact .inr (.inr (.inr (.inl ⟨c, rest, rfl, rfl, by simp [fetch, hc, hh]⟩)))
    · exact .inr (.inr (.inr (.inr (.inl ⟨c, noId, noType, rest, rfl, rfl, by simp [fetch, hc, hh]⟩))))
    · exact .inr (.inr (.inr (.inr (.inr ⟨w, rest, rfl, rfl, by simp [fetch, hc, hh]⟩))))
    · exact .inr (.inl ⟨rfl, rest, rfl, by simp [fetch, hc, hh]⟩)
  · exact .inr (.inr (.inl ⟨classCode, v, rfl, by simp [fetch, hc]⟩))

/-! ### The step -/

/-- Everything a step can do: stay idle, abort, run what it decoded, or take the decoder's rejection. -/
theorem step_cases (s : State) :
    (fetch s = .idle ∧ step s = .next s) ∨
    (∃ s', fetch s = .abort s' ∧ step s = .next (s'.abort .missingInputFile)) ∨
    (∃ f s' i, fetch s = .item f s' ∧ decode f = .ok i ∧ step s = exec i s') ∨
    ∃ f s' r, fetch s = .item f s' ∧ decode f = .error r ∧ step s = takeReject r s' := by
  rcases hf : fetch s with _ | s' | ⟨f, s'⟩
  · simp [step, hf]
  · simp [step, hf]
  · rcases hd : decode f with r | i <;> simp [step, hf, hd]

/-- A step that finds something decodable runs it. -/
theorem step_of_fetch {s s' : State} {f : Fetched} {i : Instr} (hf : fetch s = .item f s') (hd : decode f = .ok i) :
    step s = exec i s' := by
  simp [step, hf, hd]

end Sys2Proof.Machine
end

