-- ==== Sys2Proof/Laws/Framer.lean ====
section
/-! SUPPORT. What the framer's functions can do, each said once. -/

namespace Sys2Proof.Machine

/-- `PKT_FRAME` on a payload with a last value (R75). -/
theorem framePacket_append (cfg : Config) (front : Payload) (last h : Int) :
    framePacket cfg (front ++ [last]) h =
      match word32Of h with
      | none => .error .notWord32
      | some _ => .ok (linesText cfg (packetLines h front last)) := by
  cases hw : word32Of h <;> simp [framePacket, hw, emitLines_eq]

@[simp] theorem framePacket_nil (cfg : Config) (h : Int) : framePacket cfg [] h = .error .emptyPayload := rfl

/-- A framed packet is whole lines. -/
theorem framePacket_ok {cfg : Config} {values : Payload} {h : Int} {t : Text} (hf : framePacket cfg values h = .ok t) :
    values ≠ [] ∧ wholeLines cfg t := by
  rcases List.eq_nil_or_concat values with rfl | ⟨front, last, rfl⟩
  · cases hf
  · rw [List.concat_eq_append, framePacket_append] at hf
    refine ⟨by simp, ?_⟩
    split at hf
    · cases hf
    · cases hf; exact wholeLines_linesText _ _

/-- All that the loop of `STR_FRAME_INDEP` can do when it is not refused: whole lines go on `OUT`, and `PI` counts the
packets (R79). -/
theorem frameStream_ok {cfg : Config} {ty b : Int} {payloads : List Payload} {w w' : Work}
    (hf : frameStream cfg ty b payloads w = .ok w') :
    ∃ t, wholeLines cfg t ∧ w' = { w with out := w.out ++ t, pi := w.pi + payloads.length } := by
  induction payloads generalizing w with
  | nil => cases hf; exact ⟨[], .inl rfl, by simp⟩
  | cons v rest ih =>
    simp only [frameStream] at hf
    split at hf
    · cases hf
    split at hf
    · cases hf
    split at hf
    · cases hf
    next t ht =>
      obtain ⟨t', ht', rfl⟩ := ih hf
      exact ⟨t ++ t', wholeLines_append (framePacket_ok ht).2 ht', by simp [Nat.add_assoc, Nat.add_comm 1]⟩

/-- One round of the loop, its header in range or the policy `truncate` (R78, R79). -/
theorem frameStream_cons {cfg : Config} {ty b : Int} {front : Payload} {last : Int} {rest : List Payload} {w : Work}
    {h : Word32} (hb : buildHeader cfg ty (b + w.pi) = .ok h) :
    frameStream cfg ty b ((front ++ [last]) :: rest) w =
      frameStream cfg ty b rest
        { w with out := w.out ++ linesText cfg (packetLines h.toNat front last), pi := w.pi + 1 } := by
  simp [frameStream, hb, framePacket_append]

/-- The whole loop where every header is built (R78, R79). -/
theorem frameStream_eq {cfg : Config} {ty b : Int} (payloads : List (Payload × Int)) (w : Work)
    (hb : ∀ k : Nat, k < payloads.length →
      buildHeader cfg ty (b + ((w.pi + k : Nat) : Int)) =
        .ok (assembleHeader (maskType ty) (maskId (b + ((w.pi + k : Nat) : Int))))) :
    frameStream cfg ty b (payloads.map fun p => p.1 ++ [p.2]) w =
      .ok { w with out := w.out ++ linesText cfg (streamLines (withHeaders ty b w.pi payloads))
                   pi := w.pi + payloads.length } := by
  induction payloads generalizing w with
  | nil => simp [frameStream, withHeaders, streamLines]
  | cons v rest ih =>
    rw [List.map_cons, frameStream_cons (hb 0 (by simp)), ih]
    · simp [withHeaders, streamLines, packetLines, linesText_cons, Nat.add_assoc, Nat.add_comm 1]
    · intro k hk
      have := hb (k + 1) (by simpa using hk)
      simpa [Nat.add_assoc, Nat.add_comm 1] using this

end Sys2Proof.Machine
end

