-- ==== Sys2Proof/Laws/Numerals.lean ====
section
/-! SUPPORT. What the numeral functions can do, each said once. -/

namespace Sys2Proof.Machine

/-- A numeral's value is the sum of its digits by their weights (R30, R50). -/
theorem numeralValue_eq_ofDigits (base : Nat) (t : Text) :
    numeralValue base t = Nat.ofDigits base (t.map digitValue).reverse := by
  induction t using List.reverseRecOn with
  | nil => rfl
  | append_singleton t b ih =>
    have h : numeralValue base (t ++ [b]) = numeralValue base t * base + digitValue b := by simp [numeralValue]
    rw [h, ih]
    simp only [List.map_append, List.map_cons, List.map_nil, List.reverse_append, List.reverse_cons, List.reverse_nil,
      List.nil_append, List.cons_append, Nat.ofDigits_cons]
    ring

/-- What is left when trailing noise is stripped (R50): it ends in a digit, if it is not empty, and only bytes that are no
digits were after it. -/
theorem stripNoise_eq_iff (digit : Byte → Bool) (t s : Text) :
    stripNoise digit t = s ↔
      ∃ noise, t = s ++ noise ∧ (∀ b ∈ noise, digit b = false) ∧ ∀ h : s ≠ [], digit (s.getLast h) = true := by
  constructor
  · rintro rfl
    refine ⟨t.rtakeWhile fun b => !digit b, ?_, fun b hb => by simpa using List.mem_rtakeWhile_imp hb, fun h => ?_⟩
    · rw [stripNoise, List.rdropWhile, List.rtakeWhile, ← List.reverse_append, List.takeWhile_append_dropWhile,
        List.reverse_reverse]
    · have := List.rdropWhile_last_not (fun b => !digit b) t h
      simpa [stripNoise] using this
  · rintro ⟨noise, rfl, hn, hl⟩
    unfold stripNoise
    induction noise using List.reverseRecOn with
    | nil =>
      rw [List.append_nil, List.rdropWhile_eq_self_iff]
      intro h
      simp [hl h]
    | append_singleton front b ih =>
      rw [← List.append_assoc, List.rdropWhile_concat_pos _ _ _ (by simp [hn b (by simp)])]
      exact ih fun c hc => hn c (by simp [hc])

/-- Digits read as a numeral: all of them digits, and at least one. -/
theorem digitsOf_eq_some_iff (base : Nat) (digit : Byte → Bool) (t : Text) (v : Nat) :
    digitsOf base digit t = some v ↔ t ≠ [] ∧ (∀ b ∈ t, digit b = true) ∧ v = numeralValue base t := by
  unfold digitsOf
  simp only [List.all_eq_true]
  split
  next h => exact ⟨fun e => ⟨h.1, h.2, (Option.some.inj e).symm⟩, fun e => congrArg some e.2.2.symm⟩
  next h => exact ⟨fun e => (by cases e), fun e => absurd ⟨e.1, e.2.1⟩ h⟩

end Sys2Proof.Machine
end

