-- ==== Sys2Proof/Laws/Parser.lean ====
section
/-! SUPPORT. What the parser's functions can do, each said once. -/

namespace Sys2Proof.Machine

/-! ### The micro-operations -/

/-- `TOK_MARK` with the default `P_MARKER_CLOSE` (R90). -/
theorem mark_afterNextWord {cfg : Config} (h : cfg.markerClose = .afterNextWord) (w : Work) :
    w.mark cfg =
      { w with seen := true, pend := true
               chunks := if w.pend = true ∧ w.cur ≠ [] then w.chunks ++ [w.cur] else w.chunks
               cur := if w.pend = true then [] else w.cur } := by
  cases hp : w.pend <;> by_cases hc : w.cur = [] <;> simp [Work.mark, h, hp, hc, Work.closeChunk]

/-- `TOK_MARK` with `at_marker` (R101). -/
theorem mark_atMarker {cfg : Config} (h : cfg.markerClose = .atMarker) (w : Work) :
    w.mark cfg =
      { w with seen := true, chunks := if w.cur = [] then w.chunks else w.chunks ++ [w.cur], cur := [] } := by
  simp [Work.mark, h, Work.closeChunk]

/-- `TOK_INT` (R92). -/
theorem int_eq (w : Work) (v : Int) :
    w.int v =
      { w with flat := w.flat ++ [v]
               chunks := if w.pend = true then w.chunks ++ [w.cur ++ [v]] else w.chunks
               cur := if w.pend = true then [] else w.cur ++ [v]
               pend := false } := by
  cases hp : w.pend <;> simp [Work.int, hp]

/-- `TOK_EOS` after a marker (R94). -/
theorem eos_marker {w : Work} (h : w.seen = true) :
    w.eos =
      { w with mode := .marker, chunks := if w.cur = [] then w.chunks else w.chunks ++ [w.cur], cur := [] } := by
  simp [Work.eos, h, Work.endMarker, Work.closeChunk]

/-- `TOK_EOS` without one (R94, R97). -/
theorem eos_fixed {w : Work} (h : w.seen = false) :
    w.eos =
      { w with mode := .fixedSize, chunks := slices (1 + w.n) w.flat
               diags := if w.flat.length % (1 + w.n) = 0 then w.diags
                 else w.diags ++ [.remainderDropped (w.flat.length % (1 + w.n))] } := by
  by_cases hr : w.flat.length % (1 + w.n) = 0 <;> simp [Work.eos, h, Work.endFixed, hr, Work.raise]

/-- A delivered token writes `SEEN`, `PEND`, `CUR`, `CHUNKS` and `FLAT` at most (R87, R90 to R93). -/
theorem deliver_frame (cfg : Config) (w : Work) (t : Token) :
    w.deliver cfg t =
      { w with seen := (w.deliver cfg t).seen, pend := (w.deliver cfg t).pend, cur := (w.deliver cfg t).cur
               chunks := (w.deliver cfg t).chunks, flat := (w.deliver cfg t).flat } := by
  unfold Work.deliver
  split
  · cases hm : cfg.markerClose
    · rw [mark_afterNextWord hm]
    · rw [mark_atMarker hm]
  · rfl
  · rw [int_eq]
  · rfl

/-- The tokens of a stream delivered in order (phase 2 of R85). -/
def deliverAll (cfg : Config) (w : Work) (ts : List Token) : Work := ts.foldl (Work.deliver cfg) w

@[simp] theorem deliverAll_nil (cfg : Config) (w : Work) : deliverAll cfg w [] = w := rfl

@[simp] theorem deliverAll_cons (cfg : Config) (w : Work) (t : Token) (ts : List Token) :
    deliverAll cfg w (t :: ts) = deliverAll cfg (w.deliver cfg t) ts := rfl

@[simp] theorem deliverAll_append (cfg : Config) (w : Work) (ts us : List Token) :
    deliverAll cfg w (ts ++ us) = deliverAll cfg (deliverAll cfg w ts) us := by
  simp [deliverAll]

theorem deliverAll_frame (cfg : Config) (w : Work) (ts : List Token) :
    deliverAll cfg w ts =
      { w with seen := (deliverAll cfg w ts).seen, pend := (deliverAll cfg w ts).pend
               cur := (deliverAll cfg w ts).cur, chunks := (deliverAll cfg w ts).chunks
               flat := (deliverAll cfg w ts).flat } := by
  induction ts generalizing w with
  | nil => rfl
  | cons t ts ih =>
    simp only [deliverAll_cons]
    have h1 := ih (w.deliver cfg t)
    have h2 := deliver_frame cfg w t
    generalize w.deliver cfg t = w1 at h1 h2 ⊢
    generalize deliverAll cfg w1 ts = w2 at h1 ⊢
    rw [h1, h2]

/-- Delivery does not look at the input stream or the token buffer. -/
theorem deliver_of_input (cfg : Config) (w : Work) (x y : Text) (t : Token) :
    ({ w with tin := x, tokbuf := y }).deliver cfg t = { w.deliver cfg t with tin := x, tokbuf := y } := by
  unfold Work.deliver
  split
  · cases hm : cfg.markerClose
    · simp [mark_afterNextWord hm]
    · simp [mark_atMarker hm]
  · rfl
  · simp [int_eq]
  · rfl

theorem deliverAll_of_input (cfg : Config) (w : Work) (x y : Text) (ts : List Token) :
    deliverAll cfg { w with tin := x, tokbuf := y } ts = { deliverAll cfg w ts with tin := x, tokbuf := y } := by
  induction ts generalizing w with
  | nil => rfl
  | cons t ts ih => rw [deliverAll_cons, deliver_of_input, ih, deliverAll_cons]

/-! ### The tokenizer inside the parser -/

/-- Phases 1 and 2 interleaved are phase 2 on the tokens of phase 1 (R85): the text is read to its end and the buffer is
left empty. -/
theorem readText_eq (cfg : Config) (text : Text) (w : Work) :
    Work.readText cfg text w =
      { deliverAll cfg w (tokenizeFrom cfg w.tokbuf text) with
        tin := if text = [] then w.tin else [], tokbuf := [] } := by
  induction text generalizing w with
  | nil =>
    by_cases hb : w.tokbuf = []
    · rcases w with ⟨tin, out, diags, pi, tokbuf⟩
      simp only at hb
      subst hb
      simp [Work.readText, Work.flush, tokenizeFrom]
    · have h := deliver_of_input cfg w w.tin [] w.tokbuf
      simp only [Work.readText, Work.flush, hb, if_false, tokenizeFrom, deliverAll_cons, deliverAll_nil, if_true]
      exact h
  | cons b rest ih =>
    simp only [Work.readText, Work.feed, tokenizeFrom]
    by_cases hs : b ∈ cfg.separators
    · by_cases hb : w.tokbuf = []
      · simp only [hs, hb, if_true, Work.flush, ih, reduceCtorEq, if_false]
        have h := deliverAll_of_input cfg w rest w.tokbuf (tokenizeFrom cfg [] rest)
        rw [hb] at h
        rw [h]
        simp
      · simp only [hs, hb, if_true, if_false, Work.flush, reduceCtorEq, deliverAll_cons]
        rw [deliver_of_input cfg w rest [] w.tokbuf, ih, deliverAll_of_input]
        simp
    · simp only [hs, if_false, ih, reduceCtorEq]
      have h := deliverAll_of_input cfg w rest (w.tokbuf ++ [b]) (tokenizeFrom cfg (w.tokbuf ++ [b]) rest)
      rw [h]
      simp

/-! ### Phase 4 -/

/-- The diagnostic of one chunk (R98, R99, R100). -/
def chunkDiag (n k : Nat) (c : Chunk) : Option Diag :=
  if c.length < 1 + n then some (.shortChunk k c.length)
  else if 1 + n < c.length then some (.longChunk k c.length) else none

/-- One chunk of phase 4 (R98). -/
theorem takePacket_eq (w : Work) (k : Nat) (c : Chunk) :
    w.takePacket k c =
      { w with diags := w.diags ++ (chunkDiag w.n k c).toList
               pkts := if 1 + w.n ≤ c.length then w.pkts ++ [(c.drop 1).take w.n] else w.pkts } := by
  unfold Work.takePacket chunkDiag
  by_cases h1 : c.length < 1 + w.n
  · have h2 : ¬1 + w.n ≤ c.length := by omega
    simp [h1, h2, Work.raise]
  · have h2 : 1 + w.n ≤ c.length := by omega
    by_cases h3 : 1 + w.n < c.length <;> simp [h1, h2, h3, Work.raise]

/-- Phase 4 from chunk `k` on (R98 to R100, R130 (b)): packets and diagnostics only, in chunk order. -/
theorem extractFrom_eq (k : Nat) (cs : List Chunk) (w : Work) :
    Work.extractFrom k cs w =
      { w with diags := w.diags ++ (cs.zipIdx k).filterMap fun ck => chunkDiag w.n ck.2 ck.1
               pkts := w.pkts ++ (cs.filter fun c => decide (1 + w.n ≤ c.length)).map fun c => (c.drop 1).take w.n } := by
  induction cs generalizing k w with
  | nil => simp [Work.extractFrom]
  | cons c cs ih =>
    rw [Work.extractFrom, ih, takePacket_eq]
    by_cases h : 1 + w.n ≤ c.length <;>
      cases hd : chunkDiag w.n k c <;> simp [h, hd]

/-- Phase 4 on all of `CHUNKS` (R98). -/
theorem extract_eq (w : Work) :
    w.extract =
      { w with diags := w.diags ++ w.chunks.zipIdx.filterMap fun ck => chunkDiag w.n ck.2 ck.1
               pkts := w.pkts ++
                 (w.chunks.filter fun c => decide (1 + w.n ≤ c.length)).map fun c => (c.drop 1).take w.n } :=
  extractFrom_eq 0 w.chunks w

/-- The four phases on whole lists (R85): tokenize, deliver every token, end the stream, extract. -/
theorem parse_eq (cfg : Config) (w : Work) (text : Text) (n : Int) :
    w.parse cfg text n = (deliverAll cfg (w.parseStart [] n) (tokenize cfg text)).eos.extract := by
  have h0 : w.parseStart text n = { w.parseStart [] n with tin := text, tokbuf := [] } := rfl
  have h1 : (w.parseStart text n).tokbuf = [] := rfl
  rw [Work.parse, readText_eq, h1, h0, deliverAll_of_input]
  have hf := deliverAll_frame cfg (w.parseStart [] n) (tokenizeFrom cfg [] text)
  unfold tokenize
  generalize deliverAll cfg (w.parseStart [] n) (tokenizeFrom cfg [] text) = u at hf ⊢
  have ht : u.tin = [] := by rw [hf]; rfl
  have hb : u.tokbuf = [] := by rw [hf]; rfl
  congr 2
  rcases u with ⟨tin, out, diags, pi, tokbuf⟩
  simp only at ht hb
  subst ht hb
  by_cases hx : text = [] <;> simp [hx]

end Sys2Proof.Machine
end

