-- ==== Sys2Proof/Laws/PerInstr.lean ====
section
/-! SUPPORT. What is true of every instruction as syntax, one lemma per constructor. -/

namespace Sys2Proof.Laws

/-- The fixed bits of an encoding as spec/30_encoding.md gives them: a selector from 01 to 09 hex for an operation (R60),
a class code from 10 to 14 hex for a token micro-operation (R62), the mask and match of R42 for the header data word. -/
def fixedBits : Fetched → Prop
  | .cmd c => 0x01#8 ≤ c.selector ∧ c.selector ≤ 0x09#8
  | .token classCode _ => 0x10#8 ≤ classCode ∧ classCode ≤ 0x14#8
  | .data w => w &&& 0x7FFF8FE0#32 = 0x0FFF0000#32

/-- The encoding of an instruction carries the fixed bits of its format, and no other instruction has that encoding's
selector or class code: what is decoded from it is of the instruction's own row. -/
def RowBits.Statement (i : Instr) : Prop :=
  fixedBits (encode i) ∧ ∃ j, decode (encode i) = .ok j ∧ j.ctorIdx = i.ctorIdx

theorem RowBits.hdrBuild (ty id : Int) : RowBits.Statement (.hdrBuild ty id) := ⟨by simp [fixedBits, encode], _, rfl, rfl⟩
theorem RowBits.hdrCheck (h : Int) : RowBits.Statement (.hdrCheck h) := ⟨by simp [fixedBits, encode], _, rfl, rfl⟩
theorem RowBits.hdrFields (h : Int) : RowBits.Statement (.hdrFields h) := ⟨by simp [fixedBits, encode], _, rfl, rfl⟩
theorem RowBits.pktFrame (values : Payload) (h : Int) : RowBits.Statement (.pktFrame values h) :=
  ⟨by simp [fixedBits, encode], _, rfl, rfl⟩
theorem RowBits.strFrameIndep (ty b : Int) (payloads : List Payload) :
    RowBits.Statement (.strFrameIndep ty b payloads) := ⟨by simp [fixedBits, encode], _, rfl, rfl⟩
theorem RowBits.strFrameSplit (ty b : Int) (buffer : Payload) (n : Int) :
    RowBits.Statement (.strFrameSplit ty b buffer n) := ⟨by simp [fixedBits, encode], _, rfl, rfl⟩
theorem RowBits.pktParse (text : Text) (n : Int) : RowBits.Statement (.pktParse text n) :=
  ⟨by simp [fixedBits, encode], _, rfl, rfl⟩
theorem RowBits.gldReduce (a b : List Payload) (ra ca cb start step : Int) (bases : List Int) :
    RowBits.Statement (.gldReduce a b ra ca cb start step bases) := ⟨by simp [fixedBits, encode], _, rfl, rfl⟩
theorem RowBits.gldEmit (records : List GoldenRecord) : RowBits.Statement (.gldEmit records) :=
  ⟨by simp [fixedBits, encode], _, rfl, rfl⟩

/-- Every header data word has the fixed bits of R42. -/
theorem hdr32Fixed_headerWord :
    ∀ (p : BitVec 1) (ty : BitVec 3) (id : BitVec 5), Machine.hdr32Fixed (Machine.headerWord p ty id) = true := by
  decide

theorem RowBits.hdr32 (p : BitVec 1) (ty : BitVec 3) (id : BitVec 5) : RowBits.Statement (.hdr32 p ty id) := by
  have h := hdr32Fixed_headerWord p ty id
  refine ⟨by simpa [fixedBits, encode, Machine.hdr32Fixed] using h, ?_⟩
  let w := Machine.headerWord p ty id
  refine ⟨.hdr32 (Machine.fieldParity w) (Machine.fieldPacketType w) (Machine.fieldPacketId w), ?_, rfl⟩
  simp only [encode, decode, decodeData, h, if_true, w]

theorem RowBits.tokMark : RowBits.Statement .tokMark := ⟨by simp [fixedBits, encode], _, rfl, rfl⟩
theorem RowBits.tokIgn : RowBits.Statement .tokIgn := ⟨by simp [fixedBits, encode], _, rfl, rfl⟩
theorem RowBits.tokInt (v : Int) : RowBits.Statement (.tokInt v) := ⟨by simp [fixedBits, encode], _, rfl, rfl⟩
theorem RowBits.tokBad : RowBits.Statement .tokBad := ⟨by simp [fixedBits, encode], _, rfl, rfl⟩
theorem RowBits.tokEos : RowBits.Statement .tokEos := ⟨by simp [fixedBits, encode], _, rfl, rfl⟩

end Sys2Proof.Laws
end

