-- ==== Sys2Proof/Laws/Reducer.lean ====
section
/-! SUPPORT. What the reducer's functions can do, each said once. -/

namespace Sys2Proof.Machine

/-- A loop of additions is a sum (R108, R115: exact). -/
theorem partialDot_eq (g : ReduceConfig) (a b : Payload) (r j m : Nat) :
    partialDot g a b r j m = ∑ k ∈ Finset.range m, product g a b r j k := by
  induction m with
  | zero => rfl
  | succ m ih =>
    rw [Finset.sum_range_succ, ← ih]
    simp [partialDot, List.range_succ, List.foldl_append]

/-- The running maximum of R108 after the rows `0 .. rows`: one of the row values, and none is greater. -/
theorem foldl_max_spec (f : Nat → Int) (m : Int) (rows : Nat) :
    let mx := (List.range (rows + 1)).foldl (fun mx r => if r = 0 ∨ mx < f r then f r else mx) m
    (∃ r, r < rows + 1 ∧ mx = f r) ∧ ∀ r, r < rows + 1 → f r ≤ mx := by
  induction rows with
  | zero =>
    refine ⟨⟨0, by simp⟩, fun r hr => ?_⟩
    have h0 : r = 0 := by omega
    simp [h0]
  | succ rows ih =>
    rw [List.range_succ, List.foldl_append]
    generalize (List.range (rows + 1)).foldl (fun mx r => if r = 0 ∨ mx < f r then f r else mx) m = mx at ih
    obtain ⟨⟨r0, hr0, he⟩, hall⟩ := ih
    simp only [List.foldl_cons, List.foldl_nil, Nat.add_eq_zero_iff, one_ne_zero, and_false, false_or]
    by_cases hlt : mx < f (rows + 1)
    · simp only [hlt, if_true]
      refine ⟨⟨rows + 1, by omega, rfl⟩, fun r hr => ?_⟩
      rcases Nat.lt_succ_iff_lt_or_eq.mp hr with h | rfl
      · exact le_trans (hall r h) hlt.le
      · exact le_rfl
    · simp only [hlt, if_false]
      refine ⟨⟨r0, by omega, he⟩, fun r hr => ?_⟩
      rcases Nat.lt_succ_iff_lt_or_eq.mp hr with h | rfl
      · exact hall r h
      · exact not_lt.mp hlt

@[simp] theorem length_colMaxima (g : ReduceConfig) (a b : Payload) : (colMaxima g a b).length = g.colsB := by
  simp [colMaxima]

/-- The stamped record of a row of maxima: value `j` at base plus `j` steps, and the counter one step past the last
(R105, R110). -/
theorem stampRecord_eq (step : Int) (ms : List Int) (ts : Int) :
    stampRecord step ms ts =
      (ms.zipIdx.map fun mj => (mj.1, ts + mj.2 * step), ts + ms.length * step) := by
  induction ms generalizing ts with
  | nil => simp [stampRecord]
  | cons m rest ih =>
    simp only [stampRecord, ih]
    refine Prod.ext ?_ ?_
    · simp only [List.zipIdx_cons, List.map_cons, Nat.zero_add]
      rw [List.zipIdx_succ]
      simp only [List.map_map]
      congr 1
      · simp
      · apply List.map_congr_left
        rintro ⟨x, k⟩ _
        simp only [Function.comp, Prod.mk.injEq, true_and]
        push_cast
        ring
    · simp only [List.length_cons]
      push_cast
      ring

/-- The working state after some pairs (R105), whatever their shapes. -/
def foldPairs (g : ReduceConfig) (w : Work) (pairs : List (Payload × Payload)) : Work :=
  pairs.foldl (fun w ab => w.reducePair g ab.1 ab.2) w

@[simp] theorem foldPairs_nil (g : ReduceConfig) (w : Work) : foldPairs g w [] = w := rfl

@[simp] theorem foldPairs_cons (g : ReduceConfig) (w : Work) (ab : Payload × Payload) (rest : List (Payload × Payload)) :
    foldPairs g w (ab :: rest) = foldPairs g (w.reducePair g ab.1 ab.2) rest := rfl

/-! ### The tests of a pair -/

/-- The operand lengths of a pair (R109 (b)). -/
theorem shapesOk_iff (g : ReduceConfig) (a b : Payload) :
    shapesOk g a b = true ↔ a.length = g.rowsA * g.colsA ∧ b.length = g.colsA * g.colsB := by
  simp [shapesOk]

theorem fitsWidth_iff (bits : Option Nat) (v : Int) : fitsWidth bits v = true ↔ inWidth bits v := by
  cases bits <;> simp [fitsWidth, inWidth]

/-- The width test of a pair is what claims call it (R115 (d)): its two shortcuts skip only tests that would pass. -/
theorem widthsOk_iff (cfg : Config) (g : ReduceConfig) (p : Nat) (a b : Payload) :
    widthsOk cfg g p a b = true ↔ pairInWidths cfg g p a b := by
  have hw : (cfg.wordBits.isNone || (a ++ b).all (fitsWidth cfg.wordBits)) = true ↔
      ∀ v ∈ a ++ b, inWidth cfg.wordBits v := by
    rcases h : cfg.wordBits with _ | k
    · simp [inWidth]
    · simp only [Option.isNone_some, Bool.false_or, List.all_eq_true, fitsWidth_iff]
  have ha : (cfg.accBits.isNone || (sumsOk cfg g a b && stampsOk cfg g p)) = true ↔
      (sumsOk cfg g a b && stampsOk cfg g p) = true := by
    rcases h : cfg.accBits with _ | k
    · simp [sumsOk, stampsOk, h, fitsWidth]
    · simp
  rw [widthsOk, Bool.and_eq_true, hw, ha]
  simp only [sumsOk, stampsOk, Bool.and_eq_true, List.all_eq_true, List.mem_range, fitsWidth_iff, partialDot_eq, product,
    Nat.lt_succ_iff, pairInWidths]

/-- Without finite widths the test of R115 (d) always passes. -/
theorem widthsOk_exact {cfg : Config} (hw : cfg.wordBits = none) (ha : cfg.accBits = none) (g : ReduceConfig)
    (p : Nat) (a b : Payload) : widthsOk cfg g p a b = true := by
  simp [widthsOk, hw, ha]

/-! ### The loop over the pairs -/

/-- The loop over the pairs, when it is not refused, is the fold over the overlap (R105, R106), every pair of it having
passed the tests of R109 (b) and R115 (d). -/
theorem reducePairs_ok {cfg : Config} {g : ReduceConfig} {as bs : List Payload} {w w' : Work}
    (h : reducePairs cfg g as bs w = .ok w') :
    w' = foldPairs g w (as.zip bs) ∧
      ∀ i ab, (as.zip bs)[i]? = some ab → shapesOk g ab.1 ab.2 = true ∧ widthsOk cfg g (w.p + i) ab.1 ab.2 = true := by
  induction as generalizing bs w with
  | nil =>
    simp only [reducePairs, Except.ok.injEq] at h
    subst h
    exact ⟨rfl, by simp⟩
  | cons a as ih =>
    match bs with
    | [] =>
      simp only [reducePairs, Except.ok.injEq] at h
      subst h
      exact ⟨rfl, by simp⟩
    | b :: bs =>
      simp only [reducePairs] at h
      split at h
      next hs =>
        split at h
        next hw =>
          obtain ⟨rfl, hall⟩ := ih h
          refine ⟨rfl, fun i ab hab => ?_⟩
          cases i with
          | zero =>
            simp only [List.zip_cons_cons, List.getElem?_cons_zero, Option.some.injEq] at hab
            subst hab
            exact ⟨hs, hw⟩
          | succ i =>
            have := hall i ab (by simpa using hab)
            simpa [Nat.add_assoc, Nat.add_comm 1] using this
        · cases h
      · cases h

/-- And it is not refused where every pair passes. -/
theorem reducePairs_of_pass {cfg : Config} {g : ReduceConfig} {as bs : List Payload} (w : Work)
    (h : ∀ i ab, (as.zip bs)[i]? = some ab →
      shapesOk g ab.1 ab.2 = true ∧ widthsOk cfg g (w.p + i) ab.1 ab.2 = true) :
    reducePairs cfg g as bs w = .ok (foldPairs g w (as.zip bs)) := by
  induction as generalizing bs w with
  | nil => rfl
  | cons a as ih =>
    match bs with
    | [] => rfl
    | b :: bs =>
      have h0 := h 0 (a, b) rfl
      simp only [Nat.add_zero] at h0
      simp only [reducePairs, h0.1, h0.2, if_true]
      refine ih _ fun i ab hab => ?_
      have := h (i + 1) ab (by simpa using hab)
      simpa [Nat.add_assoc, Nat.add_comm 1] using this

/-- Where some pair does not pass, the first such decides the refusal, its shape before its widths (R130 (a)). -/
theorem reducePairs_of_bad {cfg : Config} {g : ReduceConfig} {as bs : List Payload} (w : Work) {i : Nat}
    {ab : Payload × Payload} (hi : (as.zip bs)[i]? = some ab)
    (hbefore : ∀ k cd, k < i → (as.zip bs)[k]? = some cd →
      shapesOk g cd.1 cd.2 = true ∧ widthsOk cfg g (w.p + k) cd.1 cd.2 = true)
    (hbad : ¬(shapesOk g ab.1 ab.2 = true ∧ widthsOk cfg g (w.p + i) ab.1 ab.2 = true)) :
    reducePairs cfg g as bs w =
      .error (if shapesOk g ab.1 ab.2 = true then .widthExceeded else .shapeMismatch) := by
  induction as generalizing bs w i with
  | nil => simp at hi
  | cons a as ih =>
    match bs with
    | [] => simp at hi
    | b :: bs =>
      cases i with
      | zero =>
        simp only [List.zip_cons_cons, List.getElem?_cons_zero, Option.some.injEq] at hi
        subst hi
        by_cases hs : shapesOk g a b = true
        · simp only [hs, true_and, Nat.add_zero] at hbad
          simp [reducePairs, hs, hbad]
        · simp [reducePairs, hs]
      | succ i =>
        have h0 := hbefore 0 (a, b) (Nat.succ_pos i) rfl
        simp only [Nat.add_zero] at h0
        simp only [reducePairs, h0.1, h0.2, if_true]
        refine ih _ (by simpa using hi) (fun k cd hk hcd => ?_) ?_
        · have := hbefore (k + 1) cd (Nat.succ_lt_succ hk) (by simpa using hcd)
          simpa [Nat.add_assoc, Nat.add_comm 1] using this
        · simpa [Nat.add_assoc, Nat.add_comm 1] using hbad

/-- The records of some pairs, from pair index `p` on (R105, R110 to R112). -/
def recordsOf (g : ReduceConfig) : Nat → List (Payload × Payload) → List GoldenRecord
  | _, [] => []
  | p, ab :: rest =>
    (stampRecord g.step (colMaxima g ab.1 ab.2) (baseTimestamp g p)).1 :: recordsOf g (p + 1) rest

/-- What the loop over the pairs writes: `RECS` and `P` by the pairs, `MAXV`, `ACC` and `TS` by the last one, and nothing
else (R105). -/
theorem foldPairs_eq (g : ReduceConfig) (w : Work) (pairs : List (Payload × Payload)) :
    foldPairs g w pairs =
      { w with recs := w.recs ++ recordsOf g w.p pairs, p := w.p + pairs.length
               maxv := (foldPairs g w pairs).maxv, acc := (foldPairs g w pairs).acc
               ts := (foldPairs g w pairs).ts } := by
  induction pairs generalizing w with
  | nil => simp [foldPairs, recordsOf]
  | cons ab rest ih =>
    have h1 : foldPairs g w (ab :: rest) = foldPairs g (w.reducePair g ab.1 ab.2) rest := rfl
    have h2 := ih (w.reducePair g ab.1 ab.2)
    rw [h1]
    generalize foldPairs g (w.reducePair g ab.1 ab.2) rest = u at h2 ⊢
    rw [h2]
    simp [Work.reducePair, recordsOf, Nat.add_assoc, Nat.add_comm 1]

@[simp] theorem length_recordsOf (g : ReduceConfig) (p : Nat) (pairs : List (Payload × Payload)) :
    (recordsOf g p pairs).length = pairs.length := by
  induction pairs generalizing p with
  | nil => rfl
  | cons ab rest ih => simp [recordsOf, ih]

/-- Record `i` is that of pair `i` (R117). -/
theorem getElem?_recordsOf (g : ReduceConfig) (p i : Nat) (pairs : List (Payload × Payload)) :
    (recordsOf g p pairs)[i]? =
      pairs[i]?.map fun ab => (stampRecord g.step (colMaxima g ab.1 ab.2) (baseTimestamp g (p + i))).1 := by
  induction pairs generalizing p i with
  | nil => simp [recordsOf]
  | cons ab rest ih =>
    cases i with
    | zero => simp [recordsOf]
    | succ i => simp [recordsOf, ih, Nat.add_assoc, Nat.add_comm 1]

/-- Everything `GLD_REDUCE` does where it is not refused (R105): the dimensions were at least 1. -/
theorem reduceStreams_ok {cfg : Config} {as bs : List Payload} {ra ca cb start step : Int} {bases : List Int}
    {w w' : Work} (h : reduceStreams cfg as bs ra ca cb start step bases w = .ok w') :
    1 ≤ ra ∧ 1 ≤ ca ∧ 1 ≤ cb ∧
      reducePairs cfg ⟨ra.toNat, ca.toNat, cb.toNat, start, step, bases⟩ as bs
        (w.warnLengths as.length bs.length) = .ok w' := by
  unfold reduceStreams at h
  split at h
  · cases h
  · exact ⟨by omega, by omega, by omega, h⟩

/-- The loop of `GLD_EMIT`, when it is not refused, writes whole lines (R113). -/
theorem emitRecords_ok {cfg : Config} {records : List GoldenRecord} {out t : Text}
    (h : emitRecords cfg records out = .ok t) :
    [] ∉ records ∧ ∃ lines, t = out ++ linesText cfg lines := by
  induction records generalizing out with
  | nil => cases h; exact ⟨by simp, [], by simp⟩
  | cons rec rest ih =>
    simp only [emitRecords] at h
    split at h
    · cases h
    next last hl =>
      obtain ⟨hr, lines, rfl⟩ := ih h
      refine ⟨?_, recordLines rec last.1 ++ lines, by simp [emitLines_eq]⟩
      have : rec ≠ [] := by rintro rfl; cases hl
      simp [this.symm, hr]

end Sys2Proof.Machine
end

