-- ==== Sys2Proof/Laws/Tokens.lean ====
section
/-! SUPPORT. What the classifier can do, said once. -/

namespace Sys2Proof.Machine

@[simp] theorem readInt_default (t : Token) : readInt Config.default t = parseInt t := rfl

/-- Everything the classifier can do (R49): the tests in their order. -/
theorem classify_cases (cfg : Config) (t : Token) :
    (fold t ∈ cfg.markers ∧ classify cfg t = .mark) ∨
    (fold t ∉ cfg.markers ∧ fold t ∈ cfg.ignorable ∧ classify cfg t = .ign) ∨
    (fold t ∉ cfg.markers ∧ fold t ∉ cfg.ignorable ∧ ∃ v, readInt cfg t = some v ∧ classify cfg t = .int v) ∨
    (fold t ∉ cfg.markers ∧ fold t ∉ cfg.ignorable ∧ readInt cfg t = none ∧ classify cfg t = .bad) := by
  by_cases hm : fold t ∈ cfg.markers
  · simp [classify, hm]
  · by_cases hi : fold t ∈ cfg.ignorable
    · simp [classify, hm, hi]
    · rcases hr : readInt cfg t with _ | v <;> simp [classify, hm, hi, hr]

end Sys2Proof.Machine
end

