-- ==== Sys2Proof/Tests/Slice0.lean ====
section
/-! SUPPORT. Tests on fixed values, their results taken from spec/95_test_vectors.md or worked by hand from a rule, and the
witnesses of the obligations' hypotheses. -/

namespace Sys2Proof.Tests

open Sys2Proof Sys2Proof.Machine

/-! ### Helpers -/

/-- The outcome a step leaves, if it goes on. -/
def outcomeOf : Host.Outcome State Fault Refusal → Option OpOutcome
  | .next s => s.outcome
  | .fault _ => none
  | .refused _ => none

/-- A field of the working elements after a step that goes on. -/
def workOf {α : Type} (f : Work → α) : Host.Outcome State Fault Refusal → Option α
  | .next s => some (f s.work)
  | .fault _ => none
  | .refused _ => none

theorem runs_of_outcome {x : Host.Outcome State Fault Refusal} {o : OpOutcome} (h : outcomeOf x = some o) :
    ∃ t, x = .next t ∧ t.outcome = some o := by
  match x, h with
  | .next t, h => exact ⟨t, rfl, h⟩

/-- Bytes written as numbers. -/
def bytes (l : List Nat) : Text := l.map (BitVec.ofNat 8)

/-- Reset state but with `P_RANGE_POLICY = range_error`. -/
def ranged : State := { State.reset with cfg := { Config.default with rangePolicy := .rangeError } }

/-- Reset state but with `P_MARKER_CLOSE = at_marker`. -/
def closing : State := { State.reset with cfg := { Config.default with markerClose := .atMarker } }

/-- Reset state but with finite widths. -/
def narrow : State := { State.reset with cfg := { Config.default with wordBits := some 8, accBits := some 16 } }

/-- Reset state of an instance whose `parse_int` reads `7` as 70 and `8` not at all. -/
def otherwise : State :=
  { State.reset with cfg := { Config.default with parseIntTable := [([0x37#8], some 70), ([0x38#8], none)] } }

/-- A parse under way, given `SEEN`, `PEND`, `CUR` and `FLAT`, with `N = 2`. -/
def parsing (seen pend : Bool) (cur flat : List Int) : State :=
  { State.reset with work := { Work.reset with seen := seen, pend := pend, cur := cur, flat := flat, n := 2 } }

/-- The same under `at_marker`. -/
def parsingAt (cur : List Int) : State := { parsing false false cur cur with cfg := closing.cfg }

/-- Reset state with some items of the host. -/
def handed (items : List HostItem) : State := { State.reset with host := items }

/-! ### Well-formed instructions -/

/-- R42: 0x0FFF0000 has an even number of ones. -/
theorem test_wellFormed_refuses_even_parity : (Instr.hdr32 0#1 0#3 0#5).wellFormed = false := by decide

theorem test_wellFormed_accepts_odd_parity : (Instr.hdr32 1#1 0#3 0#5).wellFormed = true := by decide

/-! ### Decoding: words written out from R60, R62 and R42 -/

theorem test_decode_hdrBuild : decode (.cmd ⟨0b00000001#8, { packetType := 5, packetId := 21 }⟩) = .ok (.hdrBuild 5 21) := rfl
theorem test_decode_hdrCheck : decode (.cmd ⟨0b00000010#8, { h := 7 }⟩) = .ok (.hdrCheck 7) := rfl
theorem test_decode_hdrFields : decode (.cmd ⟨0b00000011#8, { h := 7 }⟩) = .ok (.hdrFields 7) := rfl
theorem test_decode_pktFrame : decode (.cmd ⟨0b00000100#8, { values := [1, 2], h := 7 }⟩) = .ok (.pktFrame [1, 2] 7) := rfl
theorem test_decode_strFrameIndep :
    decode (.cmd ⟨0b00000101#8, { packetType := 1, baseId := 2, payloads := [[3]] }⟩) = .ok (.strFrameIndep 1 2 [[3]]) := rfl
theorem test_decode_strFrameSplit :
    decode (.cmd ⟨0b00000110#8, { packetType := 1, baseId := 2, buffer := [3, 4], n := 2 }⟩) =
      .ok (.strFrameSplit 1 2 [3, 4] 2) := rfl
theorem test_decode_pktParse : decode (.cmd ⟨0b00000111#8, { text := [0x35#8], n := 3 }⟩) = .ok (.pktParse [0x35#8] 3) := rfl
theorem test_decode_gldReduce :
    decode (.cmd ⟨0b00001000#8, { aPackets := [[1]], bMatrices := [[2]], rowsA := 3, colsA := 4, colsB := 5, start := 6,
                                  step := 7, bases := [8] }⟩) = .ok (.gldReduce [[1]] [[2]] 3 4 5 6 7 [8]) := rfl
theorem test_decode_gldEmit : decode (.cmd ⟨0b00001001#8, { records := [[(5, -3)]] }⟩) = .ok (.gldEmit [[(5, -3)]]) := rfl
/-- R42's pattern: parity 1, 000, 1111111, 11111, 0, type 111, 0000000, id 11111. -/
theorem test_decode_hdr32 : decode (.data 0b10001111111111110111000000011111#32) = .ok (.hdr32 1#1 7#3 31#5) := rfl
/-- Type 101, id 10101, parity 0: 0x0FFF5015 of table B1. -/
theorem test_decode_hdr32_fields : decode (.data 0b00001111111111110101000000010101#32) = .ok (.hdr32 0#1 5#3 21#5) := rfl
/-- A one in bits [11:5] is no header (R42). -/
theorem test_decode_refuses_stray_bit : decode (.data 0b10001111111111110111000000111111#32) = .error .notHdr32 := rfl
theorem test_decode_tokMark : decode (.token 0b00010000#8 0) = .ok .tokMark := rfl
theorem test_decode_tokIgn : decode (.token 0b00010001#8 0) = .ok .tokIgn := rfl
theorem test_decode_tokInt : decode (.token 0b00010010#8 (-4)) = .ok (.tokInt (-4)) := rfl
theorem test_decode_tokBad : decode (.token 0b00010011#8 0) = .ok .tokBad := rfl
theorem test_decode_tokEos : decode (.token 0b00010100#8 0) = .ok .tokEos := rfl

/-- R60: selectors 00 and 0A to FF select nothing. -/
theorem test_decode_refuses_selectors :
    decode (.cmd ⟨0x00#8, {}⟩) = .error .badSelector ∧ decode (.cmd ⟨0x0A#8, {}⟩) = .error .badSelector ∧
      decode (.cmd ⟨0xFF#8, {}⟩) = .error .badSelector := ⟨rfl, rfl, rfl⟩

/-- The rows of the table, by their bits alone. -/
theorem test_decodeTableWord_rows :
    decodeTableWord 8 0x05 = some (.strFrameIndep 0 0 []) ∧ decodeTableWord 8 0x08 = some (.gldReduce [] [] 0 0 0 0 0 []) ∧
      decodeTableWord 32 0x8FFF0003 = some (.hdr32 1#1 0#3 3#5) ∧ decodeTableWord 8 0x12 = some (.tokInt 0) ∧
      decodeTableWord 8 0x15 = none := by decide

/-! ### HC -/

/-- B1: (5, 21). -/
theorem test_hdrBuild_b1 : outcomeOf (exec (.hdrBuild 5 21) State.reset) = some (.ok (.word 0x0FFF5015#32) []) := by
  decide

/-- B2-6: (0, -1). -/
theorem test_hdrBuild_negative_id :
    outcomeOf (exec (.hdrBuild 0 (-1)) State.reset) = some (.ok (.word 0x0FFF001F#32) []) := by decide

/-- B3-5: one bit flipped. -/
theorem test_hdrCheck_bit_error : outcomeOf (exec (.hdrCheck 0x8FFF0002) State.reset) = some (.ok (.bit false) []) := by
  decide

/-- B3-10: `2^32`. -/
theorem test_hdrCheck_too_wide : outcomeOf (exec (.hdrCheck 4294967296) State.reset) = some (.refused .notWord32) := by
  decide

/-- B4-5. -/
theorem test_hdrFields_b4 :
    outcomeOf (exec (.hdrFields 0x12345678) State.reset) =
      some (.ok (.fields ⟨0#1, 1#3, 17#7, 20#5, 5#3, 24#5⟩) []) := by decide

/-- B4-4. -/
theorem test_hdrFields_all_ones :
    outcomeOf (exec (.hdrFields 0xFFFFFFFF) State.reset) =
      some (.ok (.fields ⟨1#1, 7#3, 127#7, 31#5, 7#3, 31#5⟩) []) := by decide

/-- Table B1, (0, 3), as a data word. -/
theorem test_hdr32_value :
    outcomeOf (step (State.reset.withFetchWord 32 0x8FFF0003)) = some (.ok (.word 0x8FFF0003#32) []) := by decide

/-! ### PF -/

/-- F-3, its bytes as spec/95_test_vectors.md P1 lists them. -/
theorem test_pktFrame_f3 :
    outcomeOf (exec (.pktFrame [10, -20, 30, 40] 2415853571) State.reset) =
      some (.ok (.text (bytes
        [0x32, 0x34, 0x31, 0x35, 0x38, 0x35, 0x33, 0x35, 0x37, 0x31, 0x0A, 0x31, 0x30, 0x0A, 0x2D, 0x32, 0x30, 0x0A, 0x33,
         0x30, 0x0A, 0x54, 0x4C, 0x41, 0x53, 0x54, 0x0A, 0x34, 0x30, 0x0A])) []) := by decide

/-- F-5. -/
theorem test_pktFrame_f5 :
    outcomeOf (exec (.pktFrame [1] 4294967296) State.reset) = some (.refused .notWord32) := by decide

/-- The last packet of F-9: id 32 wraps to 0. -/
theorem test_strFrameIndep_wraps :
    outcomeOf (exec (.strFrameIndep 0 32 [[3]]) State.reset) =
      some (.ok (.text (bytes
        [0x32, 0x34, 0x31, 0x35, 0x38, 0x35, 0x33, 0x35, 0x36, 0x38, 0x0A, 0x54, 0x4C, 0x41, 0x53, 0x54, 0x0A, 0x33, 0x0A]))
        []) := by decide

/-- F-16: refused at `k = 2`. -/
theorem test_strFrameIndep_f16 :
    outcomeOf (exec (.strFrameIndep 0 30 [[1], [2], [3]]) ranged) = some (.refused .rangeError) := by decide

/-- F-8 and F-7 give one text (R82). -/
theorem test_strFrameSplit_f8 :
    outcomeOf (exec (.strFrameSplit 0 3 [1, 2, 3, 4, 5, 6, 7, 8, 9, 10, 11, 12] 4) State.reset) =
      outcomeOf (exec (.strFrameIndep 0 3 [[1, 2, 3, 4], [5, 6, 7, 8], [9, 10, 11, 12]]) State.reset) := by decide

/-- F-13. -/
theorem test_strFrameSplit_f13 :
    outcomeOf (exec (.strFrameSplit 0 0 [1, 2, 3, 4, 5] 2) State.reset) = some (.refused .raggedBuffer) := by decide

/-! ### PP -/

/-- B4b: `12;`, `-0Xff`, `12abc3`, `0x`, `TlAsT`, `header/id`. -/
theorem test_classify_b4b :
    classify Config.default (bytes [0x31, 0x32, 0x3B]) = .int 12 ∧
      classify Config.default (bytes [0x2D, 0x30, 0x58, 0x66, 0x66]) = .int (-255) ∧
      classify Config.default (bytes [0x31, 0x32, 0x61, 0x62, 0x63, 0x33]) = .bad ∧
      classify Config.default (bytes [0x30, 0x78]) = .bad ∧
      classify Config.default (bytes [0x54, 0x6C, 0x41, 0x73, 0x54]) = .mark ∧
      classify Config.default (bytes [0x68, 0x65, 0x61, 0x64, 0x65, 0x72, 0x2F, 0x69, 0x64]) = .ign := by decide

/-- The parameter `parse_int` (R4): `9 7 8`, `N = 1`, in an instance that reads `7` as 70 and skips `8`. -/
theorem test_pktParse_other_parse_int :
    outcomeOf (exec (.pktParse (bytes [0x39, 0x20, 0x37, 0x20, 0x38]) 1) otherwise) = some (.ok (.packets [[70]]) []) := by
  decide

/-- B5-25: `9 1 2 TLAST x 3`, `N = 3`. -/
theorem test_pktParse_b5_25 :
    outcomeOf (exec (.pktParse (bytes
        [0x39, 0x20, 0x31, 0x20, 0x32, 0x20, 0x54, 0x4C, 0x41, 0x53, 0x54, 0x20, 0x78, 0x20, 0x33]) 3) State.reset) =
      some (.ok (.packets [[1, 2, 3]]) []) := by decide

/-- B5-22: `1 2 3 4`, `N = 2`. -/
theorem test_pktParse_b5_22 :
    outcomeOf (exec (.pktParse (bytes [0x31, 0x20, 0x32, 0x20, 0x33, 0x20, 0x34]) 2) State.reset) =
      some (.ok (.packets [[2, 3]]) [.remainderDropped 1]) := by decide

/-- B5-20, the second marker: `[5,6]` is closed while a terminal word is pending. -/
theorem test_tokMark_twice :
    workOf (fun w => (w.chunks, w.cur, w.pend)) (exec .tokMark (parsing true true [5, 6] [5, 6])) =
      some ([[5, 6]], [], true) := by decide

/-- B5-41, the first marker under `at_marker`. -/
theorem test_tokMark_atMarker :
    workOf (fun w => (w.chunks, w.cur, w.pend, w.seen)) (exec .tokMark (parsingAt [7, 1, 2])) =
      some ([[7, 1, 2]], [], false, true) := by decide

theorem test_tokIgn : workOf id (exec .tokIgn (parsing true true [5] [5])) = some (parsing true true [5] [5]).work := by
  decide

/-- P1 step 4, the row of token `40`. -/
theorem test_tokInt_terminal :
    workOf (fun w => (w.chunks, w.cur, w.pend, w.flat)) (exec (.tokInt 40) (parsing true true [3, 10] [3, 10])) =
      some ([[3, 10, 40]], [], false, [3, 10, 40]) := by decide

/-- P1 step 4, the row of token `10`. -/
theorem test_tokInt_plain :
    workOf (fun w => (w.chunks, w.cur, w.flat)) (exec (.tokInt 10) (parsing false false [3] [3])) =
      some ([], [3, 10], [3, 10]) := by decide

theorem test_tokBad : workOf id (exec .tokBad (parsing true true [5] [5])) = some (parsing true true [5] [5]).work := by
  decide

/-- B5-22 at its end: `N = 2`, four integers. -/
theorem test_tokEos_fixed :
    workOf (fun w => (w.mode, w.chunks, w.diags)) (exec .tokEos (parsing false false [1, 2, 3, 4] [1, 2, 3, 4])) =
      some (.fixedSize, [[1, 2, 3]], [.remainderDropped 1]) := by decide

/-- B5-18 at its end: the trailing chunk is closed. -/
theorem test_tokEos_marker :
    workOf (fun w => (w.mode, w.chunks, w.cur, w.pend)) (exec .tokEos (parsing true true [5] [5])) =
      some (.marker, [[5]], [], true) := by decide

/-! ### GR -/

/-- B6-3, its last two pairs: bases repeat the last one. -/
theorem test_gldReduce_b6_3 :
    outcomeOf (exec (.gldReduce [[1, 0, 0, 1], [2, 2, 2, 2]] [[-5, 6, 7, -8], [1, 1, 1, 1]] 2 2 2 0 10 [5000]) State.reset) =
      some (.ok (.records [[(7, 5000), (6, 5010)], [(4, 5000), (4, 5010)]]) []) := by decide

/-- B6-4: negative maxima, not the 0 of an accumulator. -/
theorem test_gldReduce_b6_4 :
    outcomeOf (exec (.gldReduce [[-1, -2, -3, -4, -5, -6]] [[1, 2, 3, 4, 5, 6]] 2 3 2 0 1 []) State.reset) =
      some (.ok (.records [[(-22, 0), (-28, 1)]]) []) := by decide

/-- R115 (d): the product 5 fits 16 bits, a second timestamp of 40000 does not. -/
theorem test_gldReduce_timestamp_width :
    outcomeOf (exec (.gldReduce [[1]] [[5]] 1 1 1 20000 20000 []) narrow) = some (.refused .widthExceeded) := by decide

/-- B7-4: `5`, `T -3 ps`, `TLAST`, `5`. -/
theorem test_gldEmit_b7_4 :
    outcomeOf (exec (.gldEmit [[(5, -3)]]) State.reset) =
      some (.ok (.text (bytes
        [0x35, 0x0A, 0x54, 0x20, 0x2D, 0x33, 0x20, 0x70, 0x73, 0x0A, 0x54, 0x4C, 0x41, 0x53, 0x54, 0x0A, 0x35, 0x0A])) []) := by
  decide

/-- B7-6. -/
theorem test_gldEmit_b7_6 : outcomeOf (exec (.gldEmit [[]]) State.reset) = some (.refused .emptyRecord) := by
  decide

/-! ### The step -/

/-- R60, R125. -/
theorem test_step_bad_selector :
    outcomeOf (step (State.reset.withFetchWord 8 0x0A)) = some (.refused .badSelector) := by decide

/-- R127: the id defaults to 0, (3, 0) of table B1, and the host records the diagnostic. -/
theorem test_step_failed_lookup :
    step (handed [.issueUnresolved ⟨0x01#8, { packetType := 3, packetId := 9 }⟩ true false]) =
      .next { State.reset with hostDiags := [.symbolTableMissing], outcome := some (.ok (.word 0x8FFF3000#32) []) } := rfl

/-- R126, R133: the run ends fatally, and the next operation the host issues runs like any other. -/
theorem test_step_fatal_then_next :
    Sys2Proof.core.run 2 (handed [.missingInputFile, .issue ⟨0x01#8, { packetType := 0, packetId := 3 }⟩]) =
      .next { State.reset with outcome := some (.ok (.word 0x8FFF0003#32) []) } := rfl

/-! ### Witnesses: concrete states and operands that meet each obligation's hypotheses -/

theorem witness_DataWordDecodesExactlyByItsFixedBits :
    (0x8FFF701F#32 : Word32) &&& 0x7FFF8FE0#32 = 0x0FFF0000#32 ∧
      (0x0FFF0020#32 : Word32) &&& 0x7FFF8FE0#32 ≠ 0x0FFF0000#32 := by decide

theorem witness_CanonicalWordsAreTheBuiltHeaders :
    canonicalHeader 0x8FFF0003#32 = true ∧ (0x8FFF0003#32 : Word32) = assembleHeader 0#3 3#5 := by decide

theorem witness_UnusedSelectorIsRefused :
    (handed [.issue ⟨0x00#8, {}⟩]).cls = none ∧ (handed [.issue ⟨0x00#8, {}⟩]).host = .issue ⟨0x00#8, {}⟩ :: [] ∧
      (handed [.issue ⟨0x0A#8, {}⟩]).cls = none ∧ (handed [.issue ⟨0x0A#8, {}⟩]).host = .issue ⟨0x0A#8, {}⟩ :: [] ∧
      0x09#8 < (⟨0x0A#8, {}⟩ : Command).selector ∧ 0x09#8 < (⟨0xFF#8, {}⟩ : Command).selector ∧
      0x01#8 ≤ (⟨0x01#8, {}⟩ : Command).selector ∧ (⟨0x09#8, {}⟩ : Command).selector ≤ 0x09#8 := by decide

theorem witness_HdrBuildAssemblesTheHeader : State.reset.cfg.rangePolicy = .truncate := by decide

/-- Clause 2 at both sides of each range, clause 3 at both ends. -/
theorem witness_HdrBuildOutOfRangeOperands :
    State.reset.cfg.rangePolicy = .truncate ∧ ranged.cfg.rangePolicy = .rangeError ∧
      outcomeOf (exec (.hdrBuild 0 (-1)) ranged) = some (.refused .rangeError) ∧
      outcomeOf (exec (.hdrBuild 0 32) ranged) = some (.refused .rangeError) ∧
      outcomeOf (exec (.hdrBuild (-1) 0) ranged) = some (.refused .rangeError) ∧
      outcomeOf (exec (.hdrBuild 8 0) ranged) = some (.refused .rangeError) ∧
      outcomeOf (exec (.hdrBuild 0 0) ranged) = some (.ok (.word 0x8FFF0000#32) []) ∧
      outcomeOf (exec (.hdrBuild 7 31) ranged) = some (.ok (.word 0x8FFF701F#32) []) := by decide

theorem witness_EveryBuiltHeaderHasOddParity :
    (∃ t, exec (.hdrBuild 7 31) State.reset = .next t ∧ t.outcome = some (.ok (.word 0x8FFF701F#32) [])) ∧
      ∃ t, exec (.hdrBuild 0 0) ranged = .next t ∧ t.outcome = some (.ok (.word 0x8FFF0000#32) []) :=
  ⟨runs_of_outcome (by decide), runs_of_outcome (by decide)⟩

theorem witness_BuiltHeadersCarryTheSentinels :
    ∃ t, exec (.hdrBuild 1 1) State.reset = .next t ∧ t.outcome = some (.ok (.word 0x8FFF1001#32) []) :=
  runs_of_outcome (by decide)

/-- The operand's range at its ends, from inside and from outside. -/
theorem witness_HdrCheckTestsTheParityOfTheWord :
    outcomeOf (exec (.hdrCheck 0) State.reset) = some (.ok (.bit false) []) ∧
      outcomeOf (exec (.hdrCheck 4294967295) State.reset) = some (.ok (.bit false) []) ∧
      outcomeOf (exec (.hdrCheck (-1)) State.reset) = some (.refused .notWord32) ∧
      outcomeOf (exec (.hdrCheck 4294967296) State.reset) = some (.refused .notWord32) ∧
      (0 : Nat) < 31 ∧ (31 : Nat) < 32 := by decide

theorem witness_HdrFieldsReadsTheLayoutBack :
    outcomeOf (exec (.hdrFields 0) State.reset) = some (.ok (.fields ⟨0#1, 0#3, 0#7, 0#5, 0#3, 0#5⟩) []) ∧
      outcomeOf (exec (.hdrFields 4294967295) State.reset) =
        some (.ok (.fields ⟨1#1, 7#3, 127#7, 31#5, 7#3, 31#5⟩) []) ∧
      outcomeOf (exec (.hdrFields (-1)) State.reset) = some (.refused .notWord32) ∧
      outcomeOf (exec (.hdrFields 4294967296) State.reset) = some (.refused .notWord32) ∧
      outcomeOf (exec (.hdrBuild (7 : Nat) (31 : Nat)) State.reset) = some (.ok (.word 0x8FFF701F#32) []) := by
  decide

theorem witness_HeaderDataWordHasItsOwnValue :
    WellFormed (.hdr32 1#1 0#3 0#5) ∧ State.reset.cfg.rangePolicy = .truncate := by decide

theorem witness_PktFrameWritesMarkerBeforeLastValue :
    (∃ t, exec (.pktFrame ([] ++ [9]) 0) State.reset = .next t ∧
      t.outcome = some (.ok (.text (bytes [0x30, 0x0A, 0x54, 0x4C, 0x41, 0x53, 0x54, 0x0A, 0x39, 0x0A])) [])) ∧
      outcomeOf (exec (.pktFrame ([] ++ [9]) (-1)) State.reset) = some (.refused .notWord32) ∧
      outcomeOf (exec (.pktFrame ([] ++ [9]) 4294967296) State.reset) = some (.refused .notWord32) ∧
      State.reset.cfg.lineEnd = 0x0A#8 :=
  ⟨runs_of_outcome (by decide), by decide, by decide, by decide⟩

theorem witness_StrFrameIndepConcatenatesItsPackets : State.reset.cfg.rangePolicy = .truncate := by decide

/-- Clause 2 with `before` ending at id 31; clause 3 at id 32 after it, and at once for type 8; clause 4 up to id 31. -/
theorem witness_StrFrameIndepRefusals :
    (State.reset.cfg.rangePolicy = .truncate ∧ ([] : Payload) ∈ [[1], []]) ∧
      (ranged.cfg.rangePolicy = .rangeError ∧ ([] : Payload) ∉ ([[1]] : List Payload) ∧
        (∀ k : Nat, k < ([[1]] : List Payload).length → inHeaderRange 0 ((31 : Int) + k) = true)) ∧
      (([2] : Payload) ≠ [] ∧ inHeaderRange 0 ((31 : Int) + ([[1]] : List Payload).length) = false ∧
        inHeaderRange 8 ((0 : Int) + ([] : List Payload).length) = false) ∧
      ∀ k : Nat, k < ([([], 1), ([], 2)] : List (Payload × Int)).length → inHeaderRange 0 ((30 : Int) + k) = true := by
  decide

theorem witness_StrFrameSplitEqualsIndepOnTheSlices :
    (∀ v ∈ ([[5], [6]] : List Payload), (v.length : Int) = 1) ∧
      (∀ v ∈ ([([5], 6), ([7], 8)] : List (Payload × Int)), ((v.1 ++ [v.2]).length : Int) = 2) ∧
      State.reset.cfg.rangePolicy = .truncate := by decide

theorem witness_StrFrameSplitRefusals :
    ((0 : Int) < 1 ∧ (1 : Int) ≤ 2) ∧ (([1, 2, 3] : Payload).length : Int) % 2 ≠ 0 := by decide

theorem witness_TokenizerSplitsAtSeparators :
    0x2C#8 ∈ Config.default.separators ∧ (∀ b ∈ ([] : Text), b ∉ Config.default.separators) ∧
      ∀ b ∈ tlast, b ∉ Config.default.separators := by decide

/-- A hexadecimal numeral with noise after it, and a decimal one (also for `ClassifierSortsEveryToken`, with `tLASt`). -/
theorem witness_IntegerTokensReadAsTheirNumber :
    parseInt (bytes [0x2D, 0x30, 0x58, 0x66, 0x46, 0x3B]) = some (-255) ∧ parseInt (bytes [0x2B, 0x35, 0x78]) = some 5 ∧
      caseVariant (bytes [0x74, 0x4C, 0x41, 0x53, 0x74]) tlast := by
  exact ⟨by decide, by decide, by simp [caseVariant, bytes, tlast]⟩

/-- Each clause: a marker, an ignorable token, a token read by the table, one it does not read, one the default reads, and
one neither reads. -/
theorem witness_ClassifierTestsInOrder :
    fold tlast ∈ otherwise.cfg.markers ∧
      (fold [0x69#8, 0x64#8] ∉ otherwise.cfg.markers ∧ fold [0x69#8, 0x64#8] ∈ otherwise.cfg.ignorable) ∧
      (fold [0x37#8] ∉ otherwise.cfg.markers ∧ fold [0x37#8] ∉ otherwise.cfg.ignorable ∧
        otherwise.cfg.parseIntTable.lookup [0x37#8] = some (some 70)) ∧
      otherwise.cfg.parseIntTable.lookup [0x38#8] = some none ∧
      (otherwise.cfg.parseIntTable.lookup [0x39#8] = none ∧ parseInt [0x39#8] = some 9) ∧
      otherwise.cfg.parseIntTable.lookup [0x78#8] = none ∧ parseInt [0x78#8] = none := by decide

theorem witness_TokMarkAnnouncesTheTerminalWord :
    State.reset.cfg.markerClose = .afterNextWord ∧ (parsing false false [5] [5]).work.pend = false ∧
      ((parsing true true [] []).work.pend = true ∧ (parsing true true [] []).work.cur = []) ∧
      (parsing true true [5] [5]).work.pend = true ∧ (parsing true true [5] [5]).work.cur ≠ [] := by decide

theorem witness_TokMarkAtMarkerClosesTheChunk :
    (parsingAt []).cfg.markerClose = .atMarker ∧ (parsingAt []).work.cur = [] ∧
      (parsingAt [5]).cfg.markerClose = .atMarker ∧ (parsingAt [5]).work.cur ≠ [] := by decide

theorem witness_TokIntAccumulatesAndClosesWhenPending :
    (parsing false false [] []).work.pend = false ∧ (parsing true true [] []).work.pend = true := by decide

theorem witness_TokEosSelectsTheMode :
    ((parsing true true [] []).work.seen = true ∧ (parsing true true [] []).work.cur = []) ∧
      ((parsing true false [5] [5]).work.seen = true ∧ (parsing true false [5] [5]).work.cur ≠ []) ∧
      (parsing false false [5] [5]).work.seen = false := by decide

/-- `N = 1` runs and `N = 0` is refused. -/
theorem witness_PktParseNeverFailsOnText :
    outcomeOf (exec (.pktParse (bytes [0x35, 0x20, 0x36]) 1) State.reset) = some (.ok (.packets [[6]]) []) ∧
      outcomeOf (exec (.pktParse (bytes [0x35, 0x20, 0x36]) 0) State.reset) = some (.refused .badConfig) := by
  decide

theorem witness_PktParseRunsItsMicroOperations :
    (1 : Int) ≤ 1 ∧ outcomeOf (exec (.pktParse (bytes [0x35, 0x20, 0x36]) 1) State.reset) = some (.ok (.packets [[6]]) []) := by
  decide

/-- `TLAST` has a marker and `5` has none (also for `MarkerChunksHoldEveryIntegerToken` and
`FixedSizeParseCutsTheFlatSequence`). -/
theorem witness_ModeIsMarkerIffAMarkerOccurred :
    (∃ t, exec (.pktParse tlast 1) State.reset = .next t ∧ t.outcome = some (.ok (.packets []) [])) ∧
      (∃ tok ∈ tokenize State.reset.cfg tlast, classify State.reset.cfg tok = .mark) ∧
      (∃ t, exec (.pktParse [0x35#8] 1) State.reset = .next t ∧
        t.outcome = some (.ok (.packets []) [.remainderDropped 1])) ∧
      ∀ tok ∈ tokenize State.reset.cfg [0x35#8], classify State.reset.cfg tok ≠ .mark :=
  ⟨runs_of_outcome (by decide), by decide, runs_of_outcome (by decide), by decide⟩

theorem witness_FixedSizeParseCutsTheFlatSequence :
    (1 : Nat) ≤ 1 ∧ ∀ tok ∈ tokenize State.reset.cfg (bytes [0x35, 0x20, 0x36]), classify State.reset.cfg tok ≠ .mark := by
  decide

/-- `5 TLAST 6`, under both settings. -/
theorem witness_MarkerChunksHoldEveryIntegerToken :
    (∃ t, exec (.pktParse (bytes [0x35, 0x20, 0x54, 0x4C, 0x41, 0x53, 0x54, 0x20, 0x36]) 1) State.reset = .next t ∧
      t.outcome = some (.ok (.packets [[6]]) [])) ∧
    (∃ t, exec (.pktParse (bytes [0x35, 0x20, 0x54, 0x4C, 0x41, 0x53, 0x54, 0x20, 0x36]) 1) closing = .next t ∧
      t.outcome = some (.ok (.packets []) [.shortChunk 0 1, .shortChunk 1 1])) ∧
    ∃ tok ∈ tokenize closing.cfg (bytes [0x35, 0x20, 0x54, 0x4C, 0x41, 0x53, 0x54, 0x20, 0x36]),
      classify closing.cfg tok = .mark :=
  ⟨runs_of_outcome (by decide), runs_of_outcome (by decide), by decide⟩

theorem witness_ExtractionFollowsTheChunks : (1 : Nat) ≤ 1 := by decide

theorem witness_FramedStreamsParseBack :
    (1 : Nat) ≤ 1 ∧ (∀ v ∈ ([([], 9)] : List (Payload × Int)), (v.1 ++ [v.2]).length = 1) ∧
      State.reset.cfg = Config.default := by decide

theorem witness_HeaderWordsAreNotReadByTheParser :
    (∀ p ∈ ([(-7, [], 9)] : List (Int × Payload × Int)), (p.2.1 ++ [p.2.2]).length = 1) ∧
      State.reset.cfg = Config.default := by decide

/-- (a) with no other packet around, (b) with one before. -/
theorem witness_LostMarkerLosesOnlyTheSuccessor :
    (∀ p ∈ ([] ++ (1, [], 2) :: (3, [], 4) :: [] : List (Int × Payload × Int)), (p.2.1 ++ [p.2.2]).length = 1) ∧
      ([(1, [], 2)] : List (Int × Payload × Int)) ≠ [] ∧
      (∀ p ∈ ([(1, [], 2)] ++ [(3, [], 4)] : List (Int × Payload × Int)), (p.2.1 ++ [p.2.2]).length = 1) ∧
      State.reset.cfg = Config.default := by decide

/-- Right shapes with a surplus packet; exact integers; and with finite widths a pair at the ends of its word, and one past
them. -/
theorem witness_GldReduceRunsOnTheOverlap :
    (∀ ab ∈ ([[7], [8, 9]] : List Payload).zip [[-3]], ab.1.length = 1 * 1 ∧ ab.2.length = 1 * 1) ∧
      (State.reset.cfg.wordBits = none ∧ State.reset.cfg.accBits = none) ∧
      (∀ (p : Nat) (a b : Payload), (([[-128]] : List Payload).zip [[127]])[p]? = some (a, b) →
        pairInWidths narrow.cfg ⟨1, 1, 1, 0, 1, []⟩ p a b) ∧
      ¬∀ (p : Nat) (a b : Payload), (([[128]] : List Payload).zip [[127]])[p]? = some (a, b) →
        pairInWidths narrow.cfg ⟨1, 1, 1, 0, 1, []⟩ p a b := by
  refine ⟨by decide, by decide, fun p a b h => ?_, fun h => ?_⟩
  · match p, h with
    | 0, h =>
      cases h
      exact (widthsOk_iff _ _ _ _ _).mp (by decide)
  · exact absurd ((widthsOk_iff _ _ _ _ _).mpr (h 0 [128] [127] rfl)) (by decide)

/-- Two pairs, without bases and with one base: pair 0 has its own, pair 1 takes the last. -/
theorem witness_GoldenTimestampsFollowTheirBase :
    (∃ t, exec (.gldReduce [[1], [2]] [[3], [4]] (1 : Nat) (1 : Nat) (1 : Nat) 5 10 []) State.reset = .next t ∧
      t.outcome = some (.ok (.records [[(3, 5)], [(8, 15)]]) [])) ∧
    (∃ t, exec (.gldReduce [[1], [2]] [[3], [4]] (1 : Nat) (1 : Nat) (1 : Nat) 5 10 [100]) State.reset = .next t ∧
      t.outcome = some (.ok (.records [[(3, 100)], [(8, 100)]]) [])) ∧
    ([[(3, 5)], [(8, 15)]] : List GoldenRecord)[1]? = some [(8, 15)] ∧ ([(8, 15)] : GoldenRecord)[0]? = some (8, 15) ∧
    ([100] : List Int)[0]? = some 100 ∧ ([100] : List Int).getLast? = some 100 ∧ ([100] : List Int).length ≤ 1 :=
  ⟨runs_of_outcome (by decide), runs_of_outcome (by decide), rfl, rfl, rfl, rfl, by decide⟩

/-- Also for `GoldenRecordsDependOnTheirPairOnly` (with itself) and `TimestampsIncreaseWhenTheStepIsPositive`. -/
theorem witness_GoldenValuesAreColumnMaxima :
    (∃ t, exec (.gldReduce [[1, 2, 3, 4]] [[5, 6, 7, 8]] (2 : Nat) (2 : Nat) (2 : Nat) 0 1 []) State.reset = .next t ∧
      t.outcome = some (.ok (.records [[(43, 0), (50, 1)]]) [])) ∧
    ([[(43, 0), (50, 1)]] : List GoldenRecord)[0]? = some [(43, 0), (50, 1)] ∧
    ([(43, 0), (50, 1)] : GoldenRecord)[1]? = some (50, 1) :=
  ⟨runs_of_outcome (by decide), rfl, rfl⟩

theorem witness_TimestampsIncreaseWhenTheStepIsPositive :
    (0 : Int) < 1 ∧ ∃ t, exec (.gldReduce [[1, 2, 3, 4]] [[5, 6, 7, 8]] (2 : Nat) (2 : Nat) (2 : Nat) 0 1 []) State.reset =
      .next t ∧ t.outcome = some (.ok (.records [[(43, 0), (50, 1)]]) []) :=
  ⟨by decide, runs_of_outcome (by decide)⟩

/-- Two calls that share their pair 0 and differ in length. -/
theorem witness_GoldenRecordsDependOnTheirPairOnly :
    (∃ t, exec (.gldReduce [[1], [2]] [[3], [4]] 1 1 1 5 10 []) State.reset = .next t ∧
      t.outcome = some (.ok (.records [[(3, 5)], [(8, 15)]]) [])) ∧
    (∃ t, exec (.gldReduce [[1]] [[3], [0]] 1 1 1 5 10 []) State.reset = .next t ∧
      t.outcome = some (.ok (.records [[(3, 5)]]) [.streamLengthMismatch 1 2])) ∧
    ([[1], [2]] : List Payload)[0]? = ([[1]] : List Payload)[0]? ∧
    ([[3], [4]] : List Payload)[0]? = ([[3], [0]] : List Payload)[0]? :=
  ⟨runs_of_outcome (by decide), runs_of_outcome (by decide), rfl, rfl⟩

theorem witness_GldReduceLeavesItsLastPair :
    ∃ t, exec (.gldReduce ([[1]] ++ [[2]]) ([[3]] ++ [[4]]) (1 : Nat) (1 : Nat) (1 : Nat) 5 10 []) State.reset = .next t ∧
      t.outcome = some (.ok (.records [[(3, 5)], [(8, 15)]]) []) :=
  runs_of_outcome (by decide)

/-- Each dimension at 0; a short A operand and a short B operand; under finite widths a bad pair after a good one. -/
theorem witness_GldReduceRefusals :
    (((0 : Int) < 1 ∨ (1 : Int) < 1 ∨ (1 : Int) < 1) ∧ ((1 : Int) < 1 ∨ (0 : Int) < 1 ∨ (1 : Int) < 1) ∧
      ((1 : Int) < 1 ∨ (1 : Int) < 1 ∨ (0 : Int) < 1)) ∧
      (∃ ab ∈ ([[1, 2, 3]] : List Payload).zip [[5, 6, 7, 8]], ab.1.length ≠ 2 * 2 ∨ ab.2.length ≠ 2 * 2) ∧
      (∃ ab ∈ ([[1, 2, 3, 4]] : List Payload).zip [[5, 6, 7]], ab.1.length ≠ 2 * 2 ∨ ab.2.length ≠ 2 * 2) ∧
      (State.reset.cfg.wordBits = none ∧ State.reset.cfg.accBits = none) ∧
      ((([[1], [2, 2]] : List Payload).zip [[3], [4]])[1]? = some ([2, 2], [4]) ∧ ([2, 2] : Payload).length ≠ 1 * 1) ∧
      ∀ (q : Nat) (c d : Payload), q < 1 → (([[1], [2, 2]] : List Payload).zip [[3], [4]])[q]? = some (c, d) →
        c.length = 1 * 1 ∧ d.length = 1 * 1 ∧ pairInWidths narrow.cfg ⟨1, 1, 1, 0, 1, []⟩ q c d := by
  refine ⟨by decide, by decide, by decide, by decide, by decide, fun q c d hq h => ?_⟩
  match q, hq, h with
  | 0, _, h =>
    cases h
    exact ⟨rfl, rfl, (widthsOk_iff _ _ _ _ _).mp (by decide)⟩

/-- Both ends of an 8-bit word; one past an end is refused by the model. -/
theorem witness_FiniteWidthsNeverWrap :
    (narrow.cfg.wordBits = some 8 ∧ narrow.cfg.accBits = some 16) ∧
    (∃ t, exec (.gldReduce [[-128]] [[127]] (1 : Nat) (1 : Nat) (1 : Nat) 0 1 []) narrow = .next t ∧
      t.outcome = some (.ok (.records [[(-16256, 0)]]) [])) ∧
    outcomeOf (exec (.gldReduce [[128]] [[127]] (1 : Nat) (1 : Nat) (1 : Nat) 0 1 []) narrow) =
      some (.refused .widthExceeded) :=
  ⟨by decide, runs_of_outcome (by decide), by decide⟩

theorem witness_GldEmitRepeatsTheLastValue : ([] : GoldenRecord) ∈ [[(1, 2)], []] := by decide

theorem witness_StepRunsTheDecodedInstruction :
    ((handed [.issue ⟨0x01#8, {}⟩]).cls = none ∧ decode (.cmd ⟨0x01#8, {}⟩) = .ok (.hdrBuild 0 0)) ∧
      ((handed [.data 0x8FFF0000#32]).cls = none ∧ decode (.data 0x8FFF0000#32) = .ok (.hdr32 1#1 0#3 0#5)) ∧
      decode (.token 0x12#8 5) = .ok (.tokInt 5) ∧ decodeTableWord 8 0x10 = some .tokMark :=
  ⟨⟨rfl, rfl⟩, ⟨rfl, rfl⟩, rfl, by decide⟩

/-- A parse under way is a good state, and a step from it runs. -/
theorem witness_StepKeepsTheInvariant :
    (parsing true true [5] [5]).Inv ∧ ∃ t, step { parsing true true [5] [5] with cls := some (0x12#8, 6) } = .next t := by
  refine ⟨⟨?_, fun _ h => (by cases h), by decide⟩, _, rfl⟩
  constructor <;> decide

/-- From the host's list, a fatal item among it, and from the latch. -/
theorem witness_StepTakesTheHostsItemsInOrder :
    (∃ t, step (handed [.issue ⟨0x01#8, {}⟩, .missingInputFile]) = .next t) ∧
      (∃ t, step (handed [.missingInputFile]) = .next t) ∧
      (∃ t, step { parsing true true [5] [5] with cls := some (0x12#8, 6) } = .next t) := ⟨⟨_, rfl⟩, ⟨_, rfl⟩, ⟨_, rfl⟩⟩

theorem witness_OutcomeDependsOnOperandsOnly :
    isOperation (.hdrBuild 0 0) = true ∧ State.reset.cfg = (parsing true true [5] [5]).cfg := by decide

theorem witness_RefusedOperationLeavesNoOutput :
    isOperation (.pktFrame [] 0) = true ∧
      ∃ t, exec (.pktFrame [] 0) State.reset = .next t ∧ t.outcome = some (.refused .emptyPayload) :=
  ⟨by decide, runs_of_outcome (by decide)⟩

/-- A silent operation, a parse in each mode with a diagnostic, a reduction with one. -/
theorem witness_DiagnosticsComeFromTheirOperation :
    (∃ t, exec (.hdrBuild 0 0) State.reset = .next t ∧ t.outcome = some (.ok (.word 0x8FFF0000#32) [])) ∧
      (∃ t, exec (.pktParse [0x35#8] 1) State.reset = .next t ∧
        t.outcome = some (.ok (.packets []) [.remainderDropped 1])) ∧
      (∃ t, exec (.pktParse (bytes [0x35, 0x20, 0x54, 0x4C, 0x41, 0x53, 0x54]) 1) State.reset = .next t ∧
        t.outcome = some (.ok (.packets []) [.shortChunk 0 1])) ∧
      ∃ t, exec (.gldReduce [] [[1]] 1 1 1 0 1 []) State.reset = .next t ∧
        t.outcome = some (.ok (.records []) [.streamLengthMismatch 0 1]) :=
  ⟨runs_of_outcome (by decide), runs_of_outcome (by decide), runs_of_outcome (by decide),
    runs_of_outcome (by decide)⟩

theorem witness_IdleStepChangesNothing : State.reset.cls = none ∧ State.reset.host = [] := by decide

theorem witness_MissingInputFileAbortsTheRun :
    (handed [.missingInputFile, .issue ⟨0x01#8, {}⟩]).cls = none ∧
      (handed [.missingInputFile, .issue ⟨0x01#8, {}⟩]).host = .missingInputFile :: [.issue ⟨0x01#8, {}⟩] ∧
      decode (.cmd ⟨0x01#8, {}⟩) = .ok (.hdrBuild 0 0) := ⟨rfl, rfl, rfl⟩

theorem witness_FailedLookupDefaultsToZero :
    (encode (.hdrBuild 3 9) = .cmd ⟨0x01#8, { packetType := 3, packetId := 9 }⟩ ∧
      encode (.strFrameIndep 3 9 [[1]]) = .cmd ⟨0x05#8, { packetType := 3, baseId := 9, payloads := [[1]] }⟩ ∧
      encode (.strFrameSplit 3 9 [1] 1) = .cmd ⟨0x06#8, { packetType := 3, baseId := 9, buffer := [1], n := 1 }⟩) ∧
    (handed [.issueUnresolved ⟨0x01#8, { packetType := 3, packetId := 9 }⟩ true false]).cls = none ∧
    (handed [.issueUnresolved ⟨0x01#8, { packetType := 3, packetId := 9 }⟩ true false]).host =
      .issueUnresolved ⟨0x01#8, { packetType := 3, packetId := 9 }⟩ true false :: [] :=
  ⟨⟨rfl, rfl, rfl⟩, rfl, rfl⟩

end Sys2Proof.Tests
end

/-! PROOF SUPPORT. What every instruction leaves alone, and what the outcome of an operation depends on. `MODE`, `MAXV`,
`ACC` and `TS` are the elements that the start of an operation does not write (R24); the functions of the operations are
followed with these four erased. -/

namespace Sys2Proof.Machine

/-! ### Working elements but for the four without a reset value -/

/-- The working elements with `MODE`, `MAXV`, `ACC` and `TS` at fixed values: what an operation can tell of them. -/
def Work.eraseUnreset (w : Work) : Work := { w with mode := .fixedSize, maxv := [], acc := 0, ts := 0 }

@[simp] theorem eraseUnreset_out (w : Work) : w.eraseUnreset.out = w.out := rfl
@[simp] theorem eraseUnreset_diags (w : Work) : w.eraseUnreset.diags = w.diags := rfl
@[simp] theorem eraseUnreset_pi (w : Work) : w.eraseUnreset.pi = w.pi := rfl
@[simp] theorem eraseUnreset_p (w : Work) : w.eraseUnreset.p = w.p := rfl

/-- An operation starts from reset as far as it can tell (R24). -/
@[simp] theorem eraseUnreset_atStart (w : Work) : w.atStart.eraseUnreset = Work.reset := rfl

/-! ### The framer -/

/-- The framing loop reads none of the four elements (R79). -/
theorem frameStream_map_eraseUnreset (cfg : Config) (ty b : Int) (payloads : List Payload) (w : Work) :
    (frameStream cfg ty b payloads w).map Work.eraseUnreset = frameStream cfg ty b payloads w.eraseUnreset := by
  induction payloads generalizing w with
  | nil => rfl
  | cons v rest ih =>
    simp only [frameStream, eraseUnreset_pi, eraseUnreset_out]
    by_cases hv : v = []
    · simp only [hv, if_true]; rfl
    · simp only [hv, if_false]
      rcases buildHeader cfg ty (b + w.pi) with e | h
      · rfl
      · rcases hf : framePacket cfg v h.toNat with e | t
        · simp only [hf]; rfl
        · simp only [hf]; exact ih _

/-- Two runs of the framing loop from operation starts (R79). -/
theorem frameStream_atStart (cfg : Config) (ty b : Int) (payloads : List Payload) (v w : Work) :
    (frameStream cfg ty b payloads v.atStart).map Work.eraseUnreset =
      (frameStream cfg ty b payloads w.atStart).map Work.eraseUnreset := by
  simp only [frameStream_map_eraseUnreset, eraseUnreset_atStart]

/-- Two runs of `STR_FRAME_SPLIT` from operation starts (R80, R81). -/
theorem frameSplit_atStart (cfg : Config) (ty b : Int) (buffer : Payload) (n : Int) (v w : Work) :
    (frameSplit cfg ty b buffer n v.atStart).map Work.eraseUnreset =
      (frameSplit cfg ty b buffer n w.atStart).map Work.eraseUnreset := by
  unfold frameSplit
  split
  · rfl
  · split
    · rfl
    · exact frameStream_atStart cfg ty b _ v w

/-! ### The parser -/

/-- A delivered token neither reads nor writes the four elements (R87). -/
theorem deliver_eraseUnreset (cfg : Config) (w : Work) (t : Token) :
    (w.deliver cfg t).eraseUnreset = w.eraseUnreset.deliver cfg t := by
  unfold Work.deliver
  split
  · cases hm : cfg.markerClose
    · simp only [mark_afterNextWord hm]; rfl
    · simp only [mark_atMarker hm]; rfl
  · rfl
  · simp only [int_eq]; rfl
  · rfl

theorem deliverAll_eraseUnreset (cfg : Config) (w : Work) (ts : List Token) :
    (deliverAll cfg w ts).eraseUnreset = deliverAll cfg w.eraseUnreset ts := by
  induction ts generalizing w with
  | nil => rfl
  | cons t ts ih => rw [deliverAll_cons, deliverAll_cons, ih, deliver_eraseUnreset]

/-- The end of stream writes `MODE` and reads none of the four (R94). -/
theorem eos_eraseUnreset (w : Work) : w.eos.eraseUnreset = w.eraseUnreset.eos.eraseUnreset := by
  cases hs : w.seen
  · rw [eos_fixed hs, eos_fixed (w := w.eraseUnreset) hs]; rfl
  · rw [eos_marker hs, eos_marker (w := w.eraseUnreset) hs]; rfl

theorem extract_eraseUnreset (w : Work) : w.extract.eraseUnreset = w.eraseUnreset.extract := by
  rw [extract_eq, extract_eq]; rfl

/-- The four phases of a parse as a run from reset (R85). -/
theorem parse_eraseUnreset (cfg : Config) (w : Work) (text : Text) (n : Int) :
    (w.parse cfg text n).eraseUnreset = (Work.reset.parse cfg text n).eraseUnreset := by
  have key (v : Work) : (v.parse cfg text n).eraseUnreset =
      (deliverAll cfg (Work.reset.parseStart [] n) (tokenize cfg text)).eos.eraseUnreset.extract := by
    have hstart : (v.parseStart [] n).eraseUnreset = Work.reset.parseStart [] n := rfl
    rw [parse_eq, extract_eraseUnreset, eos_eraseUnreset, deliverAll_eraseUnreset, hstart]
  rw [key w, key Work.reset]

/-- Two runs of `PKT_PARSE` (R85, R88). -/
theorem parsePackets_eraseUnreset (cfg : Config) (text : Text) (n : Int) (v w : Work) :
    (parsePackets cfg text n v).map Work.eraseUnreset = (parsePackets cfg text n w).map Work.eraseUnreset := by
  unfold parsePackets
  split
  · rfl
  · simp only [Except.map, parse_eraseUnreset cfg v, parse_eraseUnreset cfg w]

/-! ### The reducer -/

/-- The loop over the pairs writes `MAXV`, `ACC` and `TS` and reads none of the four (R105). -/
theorem reducePairs_map_eraseUnreset (cfg : Config) (g : ReduceConfig) (as bs : List Payload) (w : Work) :
    (reducePairs cfg g as bs w).map Work.eraseUnreset =
      (reducePairs cfg g as bs w.eraseUnreset).map Work.eraseUnreset := by
  induction as generalizing bs w with
  | nil => rfl
  | cons a as ih =>
    cases bs with
    | nil => rfl
    | cons b bs =>
      have hpair : (w.reducePair g a b).eraseUnreset = (w.eraseUnreset.reducePair g a b).eraseUnreset := rfl
      simp only [reducePairs, eraseUnreset_p]
      by_cases hs : shapesOk g a b = true
      · by_cases hw : widthsOk cfg g w.p a b = true
        · simp only [hs, hw, if_true]
          rw [ih, hpair, ← ih]
        · simp only [hs, hw, if_true, if_false, Bool.false_eq_true]
      · simp only [hs, if_false, Bool.false_eq_true]

/-- Two runs of `GLD_REDUCE` from operation starts (R105, R109). -/
theorem reduceStreams_atStart (cfg : Config) (as bs : List Payload) (ra ca cb start step : Int) (bases : List Int)
    (v w : Work) :
    (reduceStreams cfg as bs ra ca cb start step bases v.atStart).map Work.eraseUnreset =
      (reduceStreams cfg as bs ra ca cb start step bases w.atStart).map Work.eraseUnreset := by
  have hwarn (u : Work) : (u.atStart.warnLengths as.length bs.length).eraseUnreset =
      Work.reset.warnLengths as.length bs.length := by
    unfold Work.warnLengths
    split <;> rfl
  unfold reduceStreams
  split
  · rfl
  · rw [reducePairs_map_eraseUnreset, hwarn v, ← hwarn w, ← reducePairs_map_eraseUnreset]

/-! ### The outcome -/

/-- What the outcome tells of an operation that completed: its result and `DIAGS` (R8). -/
def visible (p : Work × Result) : Result × List Diag := (p.2, p.1.diags)

/-- Operations that end alike as far as the outcome tells are seen alike (R8, R33). -/
theorem sameSeen_conclude {s t : State} {x y : Except Reason (Work × Result)} (h : x.map visible = y.map visible) :
    sameSeen (conclude s x) (conclude t y) := by
  match x, y, h with
  | .ok (w, r), .ok (w', r'), h =>
    have hpair : (r, w.diags) = (r', w'.diags) := Except.ok.inj h
    obtain ⟨hr, hd⟩ := Prod.mk.inj hpair
    simp [sameSeen, hr, hd]
  | .error e, .error e', h =>
    have he : e = e' := Except.error.inj h
    simp [sameSeen, he]

/-- An operation whose result and diagnostics are computed from its operands alone. -/
theorem sameSeen_conclude_of_operands {α : Type} (s t : State) (x : Except Reason α) (f g : α → Work × Result)
    (h : ∀ a, visible (f a) = visible (g a)) : sameSeen (conclude s (x.map f)) (conclude t (x.map g)) := by
  apply sameSeen_conclude
  cases x with
  | error e => rfl
  | ok a => exact congrArg Except.ok (h a)

/-- An operation whose result is read from its final working elements, none of the four among them. -/
theorem sameSeen_conclude_of_work (s t : State) {x y : Except Reason Work} (result : Work → Result)
    (hresult : ∀ w, result w.eraseUnreset = result w) (h : x.map Work.eraseUnreset = y.map Work.eraseUnreset) :
    sameSeen (conclude s (x.map fun w => (w, result w))) (conclude t (y.map fun w => (w, result w))) := by
  apply sameSeen_conclude
  match x, y, h with
  | .error e, .error e', h => exact congrArg Except.error (Except.error.inj h)
  | .ok v, .ok w, h =>
    have hvw : v.eraseUnreset = w.eraseUnreset := Except.ok.inj h
    have hres : result v = result w := by rw [← hresult v, hvw, hresult w]
    have hdiags : v.diags = w.diags := by rw [← eraseUnreset_diags v, hvw, eraseUnreset_diags w]
    simp [Except.map, visible, hres, hdiags]

/-! ### The fetch and the decoder -/

/-- A step with nothing to take leaves PSC idle (R141). -/
theorem step_of_nothing_waiting {s : State} (hcls : s.cls = none) (hhost : s.host = []) : step s = .next s := by
  simp [step, fetch, hcls, hhost]

/-- The fetch takes the operation the host issues (R11). -/
theorem fetch_of_issue {s : State} {c : Command} {rest : List HostItem} (hcls : s.cls = none)
    (hhost : s.host = .issue c :: rest) : fetch s = .item (.cmd c) { s with host := rest } := by
  simp [fetch, hcls, hhost]

/-- A missing required input file ends the run (R126). -/
theorem step_of_missingInputFile {s : State} {rest : List HostItem} (hcls : s.cls = none)
    (hhost : s.host = .missingInputFile :: rest) :
    step s = .next ({ s with host := rest }.abort .missingInputFile) := by
  simp [step, fetch, hcls, hhost]

/-- A command decodes to one of the nine operations (R60). -/
theorem isOperation_of_decode_cmd {c : Command} {i : Instr} (h : decode (.cmd c) = .ok i) : isOperation i = true := by
  simp only [decode, decodeCommand] at h
  split_ifs at h <;> cases h <;> rfl

/-! ### The classifier -/

/-- A token the table names is read as the table says (R4). -/
theorem readInt_of_lookup_some {cfg : Config} {t : Token} {r : Option Int} (h : cfg.parseIntTable.lookup t = some r) :
    readInt cfg t = r := by
  simp [readInt, h]

/-- A token the table does not name is read as R50 says. -/
theorem readInt_of_lookup_none {cfg : Config} {t : Token} (h : cfg.parseIntTable.lookup t = none) :
    readInt cfg t = parseInt t := by
  simp [readInt, h]

theorem classify_of_marker {cfg : Config} {t : Token} (hm : fold t ∈ cfg.markers) : classify cfg t = .mark := by
  simp [classify, hm]

theorem classify_of_ignorable {cfg : Config} {t : Token} (hm : fold t ∉ cfg.markers) (hi : fold t ∈ cfg.ignorable) :
    classify cfg t = .ign := by
  simp [classify, hm, hi]

theorem classify_of_readInt_some {cfg : Config} {t : Token} {v : Int} (hm : fold t ∉ cfg.markers)
    (hi : fold t ∉ cfg.ignorable) (hr : readInt cfg t = some v) : classify cfg t = .int v := by
  simp [classify, hm, hi, hr]

theorem classify_of_readInt_none {cfg : Config} {t : Token} (hm : fold t ∉ cfg.markers)
    (hi : fold t ∉ cfg.ignorable) (hr : readInt cfg t = none) : classify cfg t = .bad := by
  simp [classify, hm, hi, hr]

end Sys2Proof.Machine

/-! PROOFS. The statements about the scope of the model (spec/00_scope.md). -/

namespace Sys2Proof.Machine

/-- Settles O44: an operation ends in `conclude`, which writes the working state and the outcome; a data word and a token
micro-operation write one of these two at most. -/
theorem everyInstructionGoesOn : Obligations.EveryInstructionGoesOn := by
  intro i s
  cases i with
  | hdrBuild | hdrCheck | hdrFields | pktFrame | strFrameIndep | strFrameSplit | pktParse | gldReduce | gldEmit =>
    exact conclude_goes_on s _
  | hdr32 | tokMark | tokIgn | tokInt | tokBad | tokEos => exact ⟨_, rfl, rfl, rfl, rfl, rfl⟩

/-- Settles O49, operation by operation: the codec, `PKT_FRAME` and `GLD_EMIT` compute from operands alone; the other four
work on elements that agree, at their start and from then on, but for `MODE`, `MAXV`, `ACC` and `TS`. -/
theorem outcomeDependsOnOperandsOnly : Obligations.OutcomeDependsOnOperandsOnly := by
  intro i s t hop hcfg
  cases i with
  | hdrBuild ty id =>
    simp only [exec, execHdrBuild, hcfg]
    exact sameSeen_conclude_of_operands s t _ _ _ fun _ => rfl
  | hdrCheck h => exact sameSeen_conclude_of_operands s t _ _ _ fun _ => rfl
  | hdrFields h => exact sameSeen_conclude_of_operands s t _ _ _ fun _ => rfl
  | pktFrame values h =>
    simp only [exec, execPktFrame, hcfg]
    exact sameSeen_conclude_of_operands s t _ _ _ fun _ => rfl
  | strFrameIndep ty b payloads =>
    simp only [exec, execStrFrameIndep, hcfg]
    exact sameSeen_conclude_of_work s t (fun w => .text w.out) (fun _ => rfl) (frameStream_atStart _ _ _ _ _ _)
  | strFrameSplit ty b buffer n =>
    simp only [exec, execStrFrameSplit, hcfg]
    exact sameSeen_conclude_of_work s t (fun w => .text w.out) (fun _ => rfl) (frameSplit_atStart _ _ _ _ _ _ _)
  | pktParse text n =>
    simp only [exec, execPktParse, hcfg]
    exact sameSeen_conclude_of_work s t (fun w => .packets w.pkts) (fun _ => rfl) (parsePackets_eraseUnreset _ _ _ _ _)
  | gldReduce as bs ra ca cb start step bases =>
    simp only [exec, execGldReduce, hcfg]
    exact sameSeen_conclude_of_work s t (fun w => .records w.recs) (fun _ => rfl)
      (reduceStreams_atStart _ _ _ _ _ _ _ _ _ _ _)
  | gldEmit records =>
    simp only [exec, execGldEmit, hcfg]
    exact sameSeen_conclude_of_operands s t _ _ _ fun _ => rfl
  | hdr32 | tokMark | tokIgn | tokInt | tokBad | tokEos => cases hop

/-- Settles O48, element by element; reset is idle because the host has handed nothing over. -/
theorem resetLeavesTheElementsAtTheirValues : Obligations.ResetLeavesTheElementsAtTheirValues := by
  refine ⟨fun w => ?_, rfl, rfl, step_of_nothing_waiting rfl rfl⟩
  exact ⟨atStart_out w, atStart_pi w, atStart_tokbuf w, atStart_seen w, atStart_pend w, atStart_cur w, atStart_chunks w,
    atStart_flat w, atStart_p w, atStart_recs w, atStart_diags w⟩

/-- An operation the host issues next has the outcome it has from reset state with the same parameters (R23, R133). -/
theorem step_of_issue_outcome_eq_reset {t : State} {c : Command} {later : List HostItem} {i : Instr}
    (hcls : t.cls = none) (hhost : t.host = .issue c :: later) (hd : decode (.cmd c) = .ok i) :
    ∃ u v, step t = .next u ∧ exec i { State.reset with cfg := t.cfg } = .next v ∧ u.outcome = v.outcome := by
  have hstep : step t = exec i { t with host := later } := step_of_fetch (fetch_of_issue hcls hhost) hd
  have hseen : sameSeen (exec i { t with host := later }) (exec i { State.reset with cfg := t.cfg }) :=
    outcomeDependsOnOperandsOnly i _ _ (isOperation_of_decode_cmd hd) rfl
  obtain ⟨u, hu, -⟩ := everyInstructionGoesOn i { t with host := later }
  obtain ⟨v, hv, -⟩ := everyInstructionGoesOn i { State.reset with cfg := t.cfg }
  rw [hu, hv] at hseen
  exact ⟨u, v, hstep.trans hu, hv, hseen⟩

/-- Settles O53: the aborted run takes the host's item and leaves the parameters alone, so what is issued after it starts
as from reset. -/
theorem missingInputFileAbortsTheRun : Obligations.MissingInputFileAbortsTheRun := by
  intro s rest hcls hhost
  refine ⟨_, step_of_missingInputFile hcls hhost, rfl, fun c later i hrest hd => ?_⟩
  exact step_of_issue_outcome_eq_reset hcls hrest hd

/-- Settles O57, test by test; what `parse_int` reads is the table's entry if there is one. -/
theorem classifierTestsInOrder : Obligations.ClassifierTestsInOrder := by
  refine fun cfg t => ⟨classify_of_marker, classify_of_ignorable, fun hm hi => ⟨?_, ?_, ?_, ?_⟩⟩
  · exact fun v hl => classify_of_readInt_some hm hi (readInt_of_lookup_some hl)
  · exact fun hl => classify_of_readInt_none hm hi (readInt_of_lookup_some hl)
  · exact fun v hl hp => classify_of_readInt_some hm hi ((readInt_of_lookup_none hl).trans hp)
  · exact fun hl hp => classify_of_readInt_none hm hi ((readInt_of_lookup_none hl).trans hp)

end Sys2Proof.Machine

/-! PROOF SUPPORT. What a step does to the elements of spec/10_state.md: how each update keeps the clauses of
`Work.Good`, how the end of an operation keeps the machine's invariant, and what a step takes from the host. -/

namespace Sys2Proof.Machine

/-- What holds of a list's members and of one more holds of the list with that one at its end. -/
theorem forall_mem_append_singleton {α : Type} {P : α → Prop} {l : List α} {a : α} (hl : ∀ x ∈ l, P x) (ha : P a) :
    ∀ x ∈ l ++ [a], P x :=
  List.forall_mem_append.mpr ⟨hl, List.forall_mem_singleton.mpr ha⟩

/-! ### The end of an operation keeps the invariant -/

/-- At the start of an operation every element with a clause is empty or unset (R24). -/
theorem good_atStart (cfg : Config) (w : Work) : w.atStart.Good cfg where
  chunks_nonempty := by simp
  pend_seen := by simp
  pend_atMarker := by simp
  tokbuf_clean := by simp
  pkts_length := by simp
  recs_nonempty := by simp
  diags_ok := by simp
  out_released := rfl
  pi_released := rfl

/-- Good elements hold nothing to release. -/
theorem Work.Good.release {cfg : Config} {w : Work} (h : w.Good cfg) : w.release.Good cfg := by
  rwa [release_of_untouched h.out_released h.pi_released]

/-- No diagnostic in `DIAGS` is the host's (R127). -/
theorem Work.Good.diags_ne_symbolTableMissing {cfg : Config} {w : Work} (h : w.Good cfg) :
    ∀ d ∈ w.diags, d ≠ .symbolTableMissing := by
  rintro d hd rfl
  have : Diag.fieldsOk w.n .symbolTableMissing = true := h.diags_ok _ hd
  cases this

theorem inv_refuse {s : State} (hs : s.Inv) (e : Reason) : (s.refuse e).Inv where
  work := good_atStart _ _
  outcome := by rintro _ ⟨⟩; trivial
  hostDiags := hs.hostDiags

theorem inv_abort {s : State} (hs : s.Inv) (e : FatalReason) : (s.abort e).Inv where
  work := good_atStart _ _
  outcome := by rintro _ ⟨⟩; trivial
  hostDiags := hs.hostDiags

theorem inv_finish {s : State} (hs : s.Inv) {w : Work} {r : Result} (hw : w.release.Good s.cfg)
    (hr : (OpOutcome.ok r w.diags).Good s.cfg) : (s.finish w r).Inv where
  work := hw
  outcome := by rintro _ ⟨⟩; exact hr
  hostDiags := hs.hostDiags

/-- An operation keeps the invariant if what it completes with is good; a refusal always does. -/
theorem inv_of_conclude_map {α : Type} {s t : State} {x : Except Reason α} {f : α → Work × Result} (hs : s.Inv)
    (hx : ∀ a, x = .ok a → (f a).1.release.Good s.cfg ∧ (OpOutcome.ok (f a).2 (f a).1.diags).Good s.cfg)
    (h : conclude s (x.map f) = .next t) : t.Inv := by
  cases x with
  | error e =>
    obtain rfl : s.refuse e = t := Host.Outcome.next.inj h
    exact inv_refuse hs e
  | ok a =>
    obtain rfl : s.finish (f a).1 (f a).2 = t := Host.Outcome.next.inj h
    obtain ⟨hw, hr⟩ := hx a rfl
    exact inv_finish hs hw hr

/-- A micro-operation keeps the invariant if it keeps the elements good. -/
theorem inv_with_work {s : State} (hs : s.Inv) {w : Work} (hw : w.Good s.cfg) : ({ s with work := w }).Inv where
  work := hw
  outcome := hs.outcome
  hostDiags := hs.hostDiags

/-! ### The framer -/

/-- Under `truncate` every header is built (R66). -/
theorem buildHeader_truncate {cfg : Config} (h : cfg.rangePolicy = .truncate) (ty id : Int) :
    buildHeader cfg ty id = .ok (assembleHeader (maskType ty) (maskId id)) := by
  simp [buildHeader, h]

/-- `STR_FRAME_SPLIT` that is not refused frames the slices of its buffer (R80). -/
theorem frameSplit_ok {cfg : Config} {ty b : Int} {buffer : Payload} {n : Int} {w w' : Work}
    (h : frameSplit cfg ty b buffer n w = .ok w') :
    frameStream cfg ty b (slices n.toNat buffer) w = .ok w' := by
  unfold frameSplit at h
  split_ifs at h
  exact h

/-- A stream framed from the start of an operation is a good end: `OUT` holds whole lines and is released with `PI`
(R14, R27). -/
theorem frameStream_atStart_good {cfg : Config} {ty b : Int} {payloads : List Payload} {v w : Work}
    (h : frameStream cfg ty b payloads v.atStart = .ok w) :
    w.release.Good cfg ∧ (OpOutcome.ok (.text w.out) w.diags).Good cfg := by
  obtain ⟨t, ht, rfl⟩ := frameStream_ok h
  exact ⟨good_atStart cfg v, ht, rfl⟩

/-! ### The parser -/

/-- Closing a chunk records none that is empty (R90). -/
theorem chunks_nonempty_close {chunks : List Chunk} (h : ∀ c ∈ chunks, c ≠ []) (cur : Chunk) :
    ∀ c ∈ (if cur = [] then chunks else chunks ++ [cur]), c ≠ [] := by
  split
  · exact h
  next hcur => exact forall_mem_append_singleton h hcur

/-- `TOK_MARK` sets `PEND` with `SEEN`, and never under `at_marker` (R90, R101). -/
theorem Work.Good.mark {cfg : Config} {w : Work} (h : w.Good cfg) : (w.mark cfg).Good cfg := by
  cases hm : cfg.markerClose with
  | afterNextWord =>
    have hchunks : ∀ c ∈ (if w.pend = true ∧ w.cur ≠ [] then w.chunks ++ [w.cur] else w.chunks), c ≠ [] := by
      split
      next hclose => exact forall_mem_append_singleton h.chunks_nonempty hclose.2
      · exact h.chunks_nonempty
    rw [mark_afterNextWord hm]
    exact { h with chunks_nonempty := hchunks, pend_seen := fun _ => rfl, pend_atMarker := fun ha => by simp [hm] at ha }
  | atMarker =>
    rw [mark_atMarker hm]
    exact { h with chunks_nonempty := chunks_nonempty_close h.chunks_nonempty w.cur, pend_seen := fun _ => rfl }

/-- `TOK_INT` closes a chunk that holds its value at least, and leaves `PEND` clear (R92). -/
theorem Work.Good.int {cfg : Config} {w : Work} (h : w.Good cfg) (v : Int) : (w.int v).Good cfg := by
  have hchunks : ∀ c ∈ (if w.pend = true then w.chunks ++ [w.cur ++ [v]] else w.chunks), c ≠ [] := by
    split
    · exact forall_mem_append_singleton h.chunks_nonempty (by simp)
    · exact h.chunks_nonempty
  rw [int_eq]
  exact { h with chunks_nonempty := hchunks, pend_seen := by simp, pend_atMarker := fun _ => rfl }

/-- `TOK_EOS` closes the last chunk after a marker; else it cuts pieces of `1 + N`, and what remains is shorter than one
(R94, R96, R97). -/
theorem Work.Good.eos {cfg : Config} {w : Work} (h : w.Good cfg) : w.eos.Good cfg := by
  cases hs : w.seen with
  | true =>
    rw [eos_marker hs]
    exact { h with chunks_nonempty := chunks_nonempty_close h.chunks_nonempty w.cur, pend_seen := fun _ => hs }
  | false =>
    rw [eos_fixed hs]
    refine { h with chunks_nonempty := ?_, diags_ok := ?_, pend_seen := h.pend_seen }
    · rintro c hc rfl
      have : 0 = 1 + w.n := length_of_mem_slices hc
      omega
    · split
      · exact h.diags_ok
      next hr =>
        have hrange : Diag.fieldsOk w.n (.remainderDropped (w.flat.length % (1 + w.n))) = true :=
          decide_eq_true ⟨Nat.pos_of_ne_zero hr, Nat.mod_lt _ (by omega)⟩
        exact forall_mem_append_singleton h.diags_ok hrange

theorem Work.Good.deliver {cfg : Config} {w : Work} (h : w.Good cfg) (t : Token) : (w.deliver cfg t).Good cfg := by
  unfold Work.deliver
  split
  · exact h.mark
  · exact h
  · exact h.int _
  · exact h

theorem Work.Good.deliverAll {cfg : Config} {w : Work} (h : w.Good cfg) (ts : List Token) :
    (deliverAll cfg w ts).Good cfg := by
  induction ts generalizing w with
  | nil => exact h
  | cons t ts ih => exact ih (h.deliver t)

/-- The diagnostic of a chunk that is not empty has its fields in range (R99, R100). -/
theorem fieldsOk_of_chunkDiag {n k : Nat} {c : Chunk} {d : Diag} (hc : c ≠ []) (h : chunkDiag n k c = some d) :
    d.fieldsOk n = true := by
  have hpos : 0 < c.length := List.length_pos_iff.mpr hc
  unfold chunkDiag at h
  split_ifs at h with hshort hlong
  · cases h; exact decide_eq_true ⟨hpos, hshort⟩
  · cases h; exact decide_eq_true hlong

/-- Phase 4 takes packets of `N` values, and its diagnostics are of chunks that are not empty (R98 to R100). -/
theorem Work.Good.extract {cfg : Config} {w : Work} (h : w.Good cfg) : w.extract.Good cfg := by
  rw [extract_eq]
  refine { h with pkts_length := ?_, diags_ok := ?_ }
  · refine List.forall_mem_append.mpr ⟨h.pkts_length, fun pk hpk => ?_⟩
    obtain ⟨c, hc, rfl⟩ := List.mem_map.mp hpk
    have hlen : 1 + w.n ≤ c.length := of_decide_eq_true (List.mem_filter.mp hc).2
    simp only [List.length_take, List.length_drop]
    omega
  · refine List.forall_mem_append.mpr ⟨h.diags_ok, fun d hd => ?_⟩
    obtain ⟨⟨c, k⟩, hck, hdiag⟩ := List.mem_filterMap.mp hd
    have hc : c ∈ w.chunks := List.fst_mem_of_mem_zipIdx hck
    exact fieldsOk_of_chunkDiag (h.chunks_nonempty c hc) hdiag

/-- A parse starts from good elements. -/
theorem good_parseStart (cfg : Config) (w : Work) (n : Int) : (w.parseStart [] n).Good cfg :=
  { good_atStart cfg w with pkts_length := by simp, diags_ok := by simp }

/-- The four phases of a parse leave good elements (R85). -/
theorem good_parse (cfg : Config) (w : Work) (text : Text) (n : Int) : (w.parse cfg text n).Good cfg := by
  rw [parse_eq]
  exact ((good_parseStart cfg w n).deliverAll _).eos.extract

/-- `PKT_PARSE` that is not refused runs its four phases (R85). -/
theorem parsePackets_ok {cfg : Config} {text : Text} {n : Int} {w w' : Work} (h : parsePackets cfg text n w = .ok w') :
    w' = w.parse cfg text n := by
  unfold parsePackets at h
  split_ifs at h
  exact (Except.ok.inj h).symm

/-! ### The reducer -/

/-- A record has a value for every column (R105, R116). -/
theorem map_fst_stampRecord (step : Int) (ms : List Int) (ts : Int) :
    (stampRecord step ms ts).1.map Prod.fst = ms := by
  rw [stampRecord_eq]
  simp [Function.comp_def]

/-- The record of a pair is not empty, there being a column (R116). -/
theorem stampRecord_colMaxima_ne_nil {g : ReduceConfig} (hcols : 1 ≤ g.colsB) (a b : Payload) (ts : Int) :
    (stampRecord g.step (colMaxima g a b) ts).1 ≠ [] := by
  intro hnil
  have hmax : [] = colMaxima g a b := by rw [← map_fst_stampRecord g.step (colMaxima g a b) ts, hnil, List.map_nil]
  have hlen : (colMaxima g a b).length = g.colsB := length_colMaxima g a b
  rw [← hmax, List.length_nil] at hlen
  omega

theorem Work.Good.reducePair {cfg : Config} {w : Work} (h : w.Good cfg) {g : ReduceConfig} (hcols : 1 ≤ g.colsB)
    (a b : Payload) : (w.reducePair g a b).Good cfg :=
  { h with recs_nonempty :=
      forall_mem_append_singleton h.recs_nonempty (stampRecord_colMaxima_ne_nil hcols a b _) }

theorem Work.Good.foldPairs {cfg : Config} {w : Work} (h : w.Good cfg) {g : ReduceConfig} (hcols : 1 ≤ g.colsB)
    (pairs : List (Payload × Payload)) : (foldPairs g w pairs).Good cfg := by
  induction pairs generalizing w with
  | nil => exact h
  | cons ab rest ih => exact ih (h.reducePair hcols ab.1 ab.2)

/-- The one diagnostic of the reducer is raised for unequal lengths only (R106). -/
theorem Work.Good.warnLengths {cfg : Config} {w : Work} (h : w.Good cfg) (nA nB : Nat) :
    (w.warnLengths nA nB).Good cfg := by
  unfold Work.warnLengths
  split
  · exact h
  next hne =>
    have hrange : Diag.fieldsOk w.n (.streamLengthMismatch nA nB) = true := decide_eq_true hne
    exact { h with diags_ok := forall_mem_append_singleton h.diags_ok hrange }

/-- `GLD_REDUCE` that is not refused leaves good elements (R105, R109). -/
theorem good_of_reduceStreams_ok {cfg : Config} {as bs : List Payload} {ra ca cb start step : Int} {bases : List Int}
    {w w' : Work} (hw : w.Good cfg) (h : reduceStreams cfg as bs ra ca cb start step bases w = .ok w') :
    w'.Good cfg := by
  obtain ⟨-, -, hcb, hpairs⟩ := reduceStreams_ok h
  obtain ⟨rfl, -⟩ := reducePairs_ok hpairs
  have hcols : 1 ≤ cb.toNat := by omega
  exact (hw.warnLengths _ _).foldPairs hcols _

/-- The loop over the pairs ends with its last pair. -/
theorem foldPairs_append_singleton (g : ReduceConfig) (w : Work) (pairs : List (Payload × Payload)) (a b : Payload) :
    foldPairs g w (pairs ++ [(a, b)]) = (foldPairs g w pairs).reducePair g a b := by
  simp [Machine.foldPairs]

/-- The loop over the pairs counts them in `P` (R21). -/
theorem foldPairs_p (g : ReduceConfig) (w : Work) (pairs : List (Payload × Payload)) :
    (foldPairs g w pairs).p = w.p + pairs.length := by
  rw [foldPairs_eq]

/-- What a pair leaves in `TS`: its base timestamp and one step a column (R110). -/
theorem reducePair_ts_eq (g : ReduceConfig) (w : Work) (a b : Payload) :
    (w.reducePair g a b).ts = baseTimestamp g w.p + g.colsB * g.step := by
  rw [reducePair_ts, stampRecord_eq, length_colMaxima]

/-- Without bases the counter after pair `p` stands where pair `p + 1` begins (R21, R112). -/
theorem baseTimestamp_add_columns {g : ReduceConfig} (hbases : g.bases = []) (p : Nat) :
    baseTimestamp g p + g.colsB * g.step = g.start + ((p + 1 : Nat) : Int) * g.step * g.colsB := by
  simp only [baseTimestamp, hbases, List.getLast?_nil]
  push_cast
  ring

/-- What `GLD_REDUCE` on equally many packets and matrices, the last pair being `a` and `b`, leaves where it returns
records: the elements after that pair, with the pairs before it counted (R105). -/
theorem gldReduce_last_pair {as bs : List Payload} {a b : Payload} {ra ca cb start step : Int} {bases : List Int}
    {s t : State} {rs : List GoldenRecord} {ds : List Diag} (hlen : as.length = bs.length)
    (h : exec (.gldReduce (as ++ [a]) (bs ++ [b]) ra ca cb start step bases) s = .next t)
    (ho : t.outcome = some (.ok (.records rs) ds)) :
    ∃ w : Work, w.p = as.length ∧
      t.work = (w.reducePair ⟨ra.toNat, ca.toNat, cb.toNat, start, step, bases⟩ a b).release ∧ rs = t.work.recs := by
  rcases hx : reduceStreams s.cfg (as ++ [a]) (bs ++ [b]) ra ca cb start step bases s.work.atStart with e | w'
  · obtain rfl : s.refuse e = t := by simpa [exec, execGldReduce, hx, Except.map] using h
    cases ho
  · obtain rfl : s.finish w' (.records w'.recs) = t := by simpa [exec, execGldReduce, hx, Except.map] using h
    obtain ⟨-, -, -, hpairs⟩ := reduceStreams_ok hx
    obtain ⟨hfold, -⟩ := reducePairs_ok hpairs
    rw [List.zip_append hlen, List.zip_cons_cons, List.zip_nil_right, foldPairs_append_singleton] at hfold
    refine ⟨_, ?_, congrArg Work.release hfold, by cases ho; rfl⟩
    rw [foldPairs_p]
    simp [Work.warnLengths, hlen]

/-! ### The instructions -/

/-- Every instruction keeps the invariant. -/
theorem exec_keeps_inv {i : Instr} {s t : State} (hs : s.Inv) (h : exec i s = .next t) : t.Inv := by
  cases i with
  | hdrBuild | hdrCheck | hdrFields =>
    exact inv_of_conclude_map hs (fun _ _ => ⟨good_atStart _ _, rfl⟩) h
  | pktFrame values hd =>
    refine inv_of_conclude_map hs (fun t ht => ?_) h
    exact ⟨good_atStart _ _, (framePacket_ok ht).2, rfl⟩
  | strFrameIndep ty b payloads =>
    exact inv_of_conclude_map hs (fun _ hw => frameStream_atStart_good hw) h
  | strFrameSplit ty b buffer n =>
    exact inv_of_conclude_map hs (fun _ hw => frameStream_atStart_good (frameSplit_ok hw)) h
  | pktParse text n =>
    refine inv_of_conclude_map hs (fun w hw => ?_) h
    obtain rfl := parsePackets_ok hw
    have hgood := good_parse s.cfg s.work text n
    exact ⟨hgood.release, hgood.diags_ne_symbolTableMissing⟩
  | gldReduce as bs ra ca cb start step bases =>
    refine inv_of_conclude_map hs (fun w hw => ?_) h
    have hgood := good_of_reduceStreams_ok (good_atStart s.cfg s.work) hw
    exact ⟨hgood.release, hgood.recs_nonempty, hgood.diags_ne_symbolTableMissing⟩
  | gldEmit records =>
    refine inv_of_conclude_map hs (fun t ht => ?_) h
    obtain ⟨-, lines, rfl⟩ := emitRecords_ok ht
    exact ⟨good_atStart _ _, wholeLines_linesText _ lines, rfl⟩
  | hdr32 p ty id =>
    cases h
    exact ⟨hs.work, by rintro _ ⟨⟩; rfl, hs.hostDiags⟩
  | tokMark => cases h; exact inv_with_work hs hs.work.mark
  | tokInt v => cases h; exact inv_with_work hs (hs.work.int v)
  | tokEos => cases h; exact inv_with_work hs hs.work.eos
  | tokIgn | tokBad => cases h; exact hs

/-! ### The fetch and the step -/

/-- The fetch takes the data word the host hands over (R11). -/
theorem fetch_of_data {s : State} {w : Word32} {rest : List HostItem} (hcls : s.cls = none)
    (hhost : s.host = .data w :: rest) : fetch s = .item (.data w) { s with host := rest } := by
  simp [fetch, hcls, hhost]

/-- The fetch takes the classifier's output (R62). -/
theorem fetch_of_class {s : State} {classCode : Byte} {v : Int} (hcls : s.cls = some (classCode, v)) :
    fetch s = .item (.token classCode v) { s with cls := none } := by
  simp [fetch, hcls]

/-- A row's bits read as an instruction are what stands for the row, decoded. -/
theorem decode_of_decodeTableWord {nbits w : Nat} {i : Instr} (h : decodeTableWord nbits w = some i) :
    decode (tableFetched nbits w) = .ok i := by
  unfold decodeTableWord at h
  split at h
  next j hj => rw [hj, Option.some.inj h]
  · cases h

/-- What the fetch leaves of a state it takes something from: the latch emptied, or else the host's list one item
shorter, and perhaps the record of a failed lookup (R11, R62, R127). -/
structure Taken (s s' : State) : Prop where
  cfg : s'.cfg = s.cfg
  work : s'.work = s.work
  outcome : s'.outcome = s.outcome
  cls : s'.cls = none
  host_of_class : s.cls ≠ none → s'.host = s.host
  host_of_idle_latch : s.cls = none → s'.host = s.host.tail
  hostDiags : s'.hostDiags = s.hostDiags ∨ s'.hostDiags = s.hostDiags ++ [.symbolTableMissing]

/-- The host's item goes, and with it nothing else. -/
theorem taken_host {s : State} {x : HostItem} {rest : List HostItem} (hcls : s.cls = none) (hhost : s.host = x :: rest) :
    Taken s { s with host := rest } where
  cfg := rfl
  work := rfl
  outcome := rfl
  cls := hcls
  host_of_class := fun h => absurd hcls h
  host_of_idle_latch := fun _ => by rw [hhost]; rfl
  hostDiags := .inl rfl

/-- The classifier's output goes, and with it nothing else. -/
theorem taken_class {s : State} {p : Byte × Int} (hcls : s.cls = some p) : Taken s { s with cls := none } where
  cfg := rfl
  work := rfl
  outcome := rfl
  cls := rfl
  host_of_class := fun _ => rfl
  host_of_idle_latch := fun h => by simp [hcls] at h
  hostDiags := .inl rfl

theorem taken_of_fetch_abort {s s' : State} (hf : fetch s = .abort s') : Taken s s' := by
  rcases fetch_cases s with ⟨-, -, h⟩ | ⟨hcls, rest, hhost, h⟩ | ⟨_, _, -, h⟩ | ⟨_, _, -, -, h⟩ |
    ⟨_, _, _, _, -, -, h⟩ | ⟨_, _, -, -, h⟩ <;> rw [h] at hf <;> cases hf
  exact taken_host hcls hhost

theorem taken_of_fetch_item {s s' : State} {f : Fetched} (hf : fetch s = .item f s') : Taken s s' := by
  rcases fetch_cases s with ⟨-, -, h⟩ | ⟨-, _, -, h⟩ | ⟨_, _, hcls, h⟩ | ⟨_, _, hcls, hhost, h⟩ |
    ⟨_, _, _, _, hcls, hhost, h⟩ | ⟨_, _, hcls, hhost, h⟩ <;> rw [h] at hf <;> cases hf
  · exact taken_class hcls
  · exact taken_host hcls hhost
  · exact { taken_host hcls hhost with hostDiags := .inr rfl }
  · exact taken_host hcls hhost

/-- A rejection the step goes on from is that of a command, which is refused (R60, R125). -/
theorem takeReject_next {r : Reject} {s t : State} (h : takeReject r s = .next t) : t = s.refuse .badSelector := by
  cases r <;> cases h
  rfl

/-- Everything a step that goes on can do: stay idle, or take something and abort, run an instruction or refuse the
command (R11, R32, R126). -/
theorem step_next_cases {s t : State} (h : step s = .next t) :
    (s.cls = none ∧ s.host = [] ∧ t = s) ∨
    ∃ s', Taken s s' ∧
      (t = s'.abort .missingInputFile ∨ (∃ i, exec i s' = .next t) ∨ t = s'.refuse .badSelector) := by
  rcases step_cases s with ⟨hf, hs⟩ | ⟨s', hf, hs⟩ | ⟨f, s', i, hf, -, hs⟩ | ⟨f, s', r, hf, -, hs⟩ <;> rw [hs] at h
  · obtain rfl := Host.Outcome.next.inj h
    rcases fetch_cases s with ⟨hcls, hhost, -⟩ | ⟨-, _, -, hf'⟩ | ⟨_, _, -, hf'⟩ | ⟨_, _, -, -, hf'⟩ |
      ⟨_, _, _, _, -, -, hf'⟩ | ⟨_, _, -, -, hf'⟩
    · exact .inl ⟨hcls, hhost, rfl⟩
    all_goals rw [hf'] at hf; cases hf
  · exact .inr ⟨s', taken_of_fetch_abort hf, .inl (Host.Outcome.next.inj h).symm⟩
  · exact .inr ⟨s', taken_of_fetch_item hf, .inr (.inl ⟨i, h⟩)⟩
  · exact .inr ⟨s', taken_of_fetch_item hf, .inr (.inr (takeReject_next h))⟩

/-- What the fetch leaves has the invariant: it adds to the host's diagnostics the host's own only (R127). -/
theorem Taken.inv {s s' : State} (h : Taken s s') (hs : s.Inv) : s'.Inv where
  work := by rw [h.work, h.cfg]; exact hs.work
  outcome := by rw [h.outcome, h.cfg]; exact hs.outcome
  hostDiags := by
    rcases h.hostDiags with he | he <;> rw [he]
    · exact hs.hostDiags
    · exact forall_mem_append_singleton hs.hostDiags rfl

/-- The host's diagnostics are extended at their end or unchanged. -/
theorem Taken.hostDiags_extended {s s' : State} (h : Taken s s') : s.hostDiags <+: s'.hostDiags := by
  rcases h.hostDiags with he | he <;> rw [he]
  exact ⟨_, rfl⟩

/-- However a step ends what it took, it leaves the parameters, the latch and the host's lists as the fetch did. -/
theorem frame_after_taking {s t : State}
    (h : t = s.abort .missingInputFile ∨ (∃ i, exec i s = .next t) ∨ t = s.refuse .badSelector) :
    t.cfg = s.cfg ∧ t.host = s.host ∧ t.hostDiags = s.hostDiags ∧ t.cls = s.cls := by
  rcases h with rfl | ⟨i, hi⟩ | rfl
  · exact ⟨rfl, rfl, rfl, rfl⟩
  · obtain ⟨u, hu, hframe⟩ := everyInstructionGoesOn i s
    obtain rfl : t = u := Host.Outcome.next.inj (hi.symm.trans hu)
    exact hframe
  · exact ⟨rfl, rfl, rfl, rfl⟩

end Sys2Proof.Machine

/-! PROOFS. The statements about the state (spec/10_state.md). -/

namespace Sys2Proof.Machine

/-- Settles O46: what the fetch leaves has the invariant, and so has what an abort, a refusal or any instruction makes of
it. -/
theorem stepKeepsTheInvariant : Obligations.StepKeepsTheInvariant := by
  intro s t hs h
  rcases step_next_cases h with ⟨-, -, rfl⟩ | ⟨s', htaken, rfl | ⟨i, hi⟩ | rfl⟩
  · exact hs
  · exact inv_abort (htaken.inv hs) _
  · exact exec_keeps_inv (htaken.inv hs) hi
  · exact inv_refuse (htaken.inv hs) _

/-- Settles O39: the last round of the loop over the pairs writes the three elements, and its record is the last. -/
theorem gldReduceLeavesItsLastPair : Obligations.GldReduceLeavesItsLastPair := by
  intro as bs a b ra ca cb start step s t rs ds hlen h ho
  obtain ⟨w, hp, hw, rfl⟩ := gldReduce_last_pair hlen h ho
  rw [hw]
  refine ⟨⟨_, List.getLast?_concat, ?_⟩, ?_, ?_⟩
  · exact (map_fst_stampRecord _ _ _).symm
  · rw [release_acc, reducePair_acc]
    exact partialDot_eq _ _ _ _ _ _
  · rw [release_ts, reducePair_ts_eq, baseTimestamp_add_columns rfl, hp]
    rfl

/-- Settles O47: the fetch takes at most one item, and what follows it touches none of these fields. -/
theorem stepTakesTheHostsItemsInOrder : Obligations.StepTakesTheHostsItemsInOrder := by
  intro s t h
  rcases step_next_cases h with ⟨hcls, hhost, rfl⟩ | ⟨s', htaken, hend⟩
  · exact ⟨rfl, hcls, ⟨[], List.append_nil _⟩, fun hne => absurd hcls hne, fun _ => by rw [hhost]; rfl⟩
  · obtain ⟨hcfg, hhost, hdiags, hcls⟩ := frame_after_taking hend
    rw [hcfg, hhost, hdiags, hcls]
    exact ⟨htaken.cfg, htaken.cls, htaken.hostDiags_extended, htaken.host_of_class, htaken.host_of_idle_latch⟩

/-- Settles O14: under `truncate` every header is built, so the loop frames every payload; `OUT` and `PI` are released. -/
theorem strFrameIndepConcatenatesItsPackets : Obligations.StrFrameIndepConcatenatesItsPackets := by
  intro ty b payloads s htrunc text
  have hloop : frameStream s.cfg ty b (payloads.map fun p => p.1 ++ [p.2]) s.work.atStart =
      .ok { s.work.atStart with out := text, pi := payloads.length } := by
    rw [frameStream_eq payloads s.work.atStart fun k _ => buildHeader_truncate htrunc ty _]
    simp [text]
  refine ⟨hloop, ?_⟩
  simp only [exec, execStrFrameIndep, hloop]
  rfl

/-- Settles O43: the fetch finds the host's item, the classifier's output, or what has been placed before both. -/
theorem stepRunsTheDecodedInstruction : Obligations.StepRunsTheDecodedInstruction := by
  refine ⟨?_, ?_, ?_, ?_⟩
  · exact fun _ _ _ _ hcls hhost hd => step_of_fetch (fetch_of_issue hcls hhost) hd
  · exact fun _ _ _ _ hcls hhost hd => step_of_fetch (fetch_of_data hcls hhost) hd
  · exact fun _ _ _ _ hcls hd => step_of_fetch (fetch_of_class hcls) hd
  · exact fun _ _ _ s hd => step_of_fetch (fetch_place s _) (decode_of_decodeTableWord hd)

/-- Settles O45: reset is the start of an operation with no outcome and no diagnostics of the host (R24). -/
theorem invariantHoldsAtReset : Obligations.InvariantHoldsAtReset where
  work := good_atStart Config.default Work.reset
  outcome := by rintro _ ⟨⟩
  hostDiags := by rintro _ ⟨⟩

end Sys2Proof.Machine

/-! PROOF SUPPORT. What an operation leaves in the elements and streams of spec/20_memory.md when it ends: with a refusal,
with packets, and with which diagnostics. -/

namespace Sys2Proof.Machine

/-! ### The end of an operation -/

/-- Each of the nine operations ends in `conclude` (R8, R32). -/
theorem exec_operation_eq_conclude {i : Instr} (hop : isOperation i = true) (s : State) :
    ∃ x, exec i s = conclude s x := by
  cases i with
  | hdrBuild | hdrCheck | hdrFields | pktFrame | strFrameIndep | strFrameSplit | pktParse | gldReduce | gldEmit =>
    exact ⟨_, rfl⟩
  | hdr32 | tokMark | tokIgn | tokInt | tokBad | tokEos => cases hop

/-- A refusal leaves the working elements at an operation's start (R125, R132). -/
theorem work_of_conclude_refused {s t : State} {x : Except Reason (Work × Result)} {e : Reason}
    (h : conclude s x = .next t) (ho : t.outcome = some (.refused e)) : t.work = s.work.atStart := by
  rcases conclude_cases h with ⟨w, r, -, rfl⟩ | ⟨e', -, rfl⟩
  · cases ho
  · rfl

/-- An operation that completed computed what its outcome and the working elements show (R8). -/
theorem ok_of_conclude_map {α : Type} {s t : State} {x : Except Reason α} {f : α → Work × Result} {r : Result}
    {ds : List Diag} (h : conclude s (x.map f) = .next t) (ho : t.outcome = some (.ok r ds)) :
    ∃ a, x = .ok a ∧ t.work = (f a).1.release ∧ ds = (f a).1.diags := by
  cases x with
  | error e =>
    obtain rfl : s.refuse e = t := Host.Outcome.next.inj h
    cases ho
  | ok a =>
    obtain rfl : s.finish (f a).1 (f a).2 = t := Host.Outcome.next.inj h
    cases ho
    exact ⟨a, rfl, rfl, rfl⟩

/-! ### The parser -/

/-- The end of stream writes `MODE`, `CUR`, `CHUNKS` and `DIAGS` at most (R94). -/
theorem eos_frame (w : Work) :
    w.eos = { w with mode := w.eos.mode, cur := w.eos.cur, chunks := w.eos.chunks, diags := w.eos.diags } := by
  by_cases hs : w.seen = true
  · rw [eos_marker hs]
  · rw [eos_fixed (Bool.eq_false_iff.mpr hs)]

/-- Phase 4 writes `PKTS` and `DIAGS` at most (R98). -/
theorem extract_frame (w : Work) : w.extract = { w with diags := w.extract.diags, pkts := w.extract.pkts } := by
  rw [extract_eq]

/-- The working elements of a parse after its phase 2, every token of the text being delivered (R85). -/
def delivered (cfg : Config) (w : Work) (text : Text) (n : Int) : Work :=
  deliverAll cfg (w.parseStart [] n) (tokenize cfg text)

/-- Phases 3 and 4 follow (R85). -/
theorem parse_eq_delivered (cfg : Config) (w : Work) (text : Text) (n : Int) :
    w.parse cfg text n = (delivered cfg w text n).eos.extract := parse_eq cfg w text n

/-- Phases 1 and 2 write the parser's own elements only (R85, R87). -/
theorem delivered_frame (cfg : Config) (w : Work) (text : Text) (n : Int) :
    delivered cfg w text n =
      { w.atStart with
        n := n.toNat, seen := (delivered cfg w text n).seen, pend := (delivered cfg w text n).pend
        cur := (delivered cfg w text n).cur, chunks := (delivered cfg w text n).chunks
        flat := (delivered cfg w text n).flat } :=
  deliverAll_frame cfg (w.parseStart [] n) (tokenize cfg text)

theorem delivered_n (cfg : Config) (w : Work) (text : Text) (n : Int) : (delivered cfg w text n).n = n.toNat := by
  rw [delivered_frame]

/-- No delivered token raises a diagnostic (R93, R121). -/
theorem delivered_diags (cfg : Config) (w : Work) (text : Text) (n : Int) : (delivered cfg w text n).diags = [] := by
  rw [delivered_frame]
  rfl

/-- A parse writes the parser's own elements only (R85, R26). -/
theorem parse_frame (cfg : Config) (w : Work) (text : Text) (n : Int) :
    w.parse cfg text n =
      { w.atStart with
        n := n.toNat, seen := (w.parse cfg text n).seen, pend := (w.parse cfg text n).pend
        cur := (w.parse cfg text n).cur, chunks := (w.parse cfg text n).chunks, flat := (w.parse cfg text n).flat
        mode := (w.parse cfg text n).mode, diags := (w.parse cfg text n).diags
        pkts := (w.parse cfg text n).pkts } := by
  rw [parse_eq_delivered]
  have h1 := delivered_frame cfg w text n
  generalize delivered cfg w text n = u at h1 ⊢
  have h2 := eos_frame u
  generalize u.eos = v at h2 ⊢
  rw [extract_frame v, h2, h1]

theorem parse_n (cfg : Config) (w : Work) (text : Text) (n : Int) : (w.parse cfg text n).n = n.toNat := by
  rw [parse_frame]

/-- A parse has nothing to release (R14). -/
theorem parse_release (cfg : Config) (w : Work) (text : Text) (n : Int) :
    (w.parse cfg text n).release = w.parse cfg text n :=
  release_of_untouched (good_parse cfg w text n).out_released (good_parse cfg w text n).pi_released

/-- `PKT_PARSE` with `N >= 1` completes on every text (R85, R88). -/
theorem exec_pktParse_completes (text : Text) {n : Int} (s : State) (hn : 1 ≤ n) :
    exec (.pktParse text n) s =
      .next (s.finish (s.work.parse s.cfg text n) (.packets (s.work.parse s.cfg text n).pkts)) := by
  have hparse : parsePackets s.cfg text n s.work = .ok (s.work.parse s.cfg text n) := if_neg (by omega)
  simp [exec, execPktParse, hparse, Except.map]

/-- `PKT_PARSE` with `N < 1` is refused (R88). -/
theorem exec_pktParse_refused (text : Text) {n : Int} (s : State) (hn : n < 1) :
    exec (.pktParse text n) s = .next (s.refuse .badConfig) := by
  have hparse : parsePackets s.cfg text n s.work = .error .badConfig := if_pos hn
  simp [exec, execPktParse, hparse, Except.map]

/-! ### The diagnostics of a parse -/

/-- Every slice is a chunk of the expected length, of which phase 4 says nothing (R97, R98). -/
theorem chunkDiag_of_mem_slices {n k : Nat} {l c : Chunk} (hc : c ∈ slices (1 + n) l) : chunkDiag n k c = none := by
  simp [chunkDiag, length_of_mem_slices hc]

/-- The diagnostics after the end of stream are followed by those of the chunks (R130 (b)). -/
theorem extract_diags (w : Work) :
    w.extract.diags = w.diags ++ w.chunks.zipIdx.filterMap fun ck => chunkDiag w.n ck.2 ck.1 := by
  rw [extract_eq]

/-- Without a marker the remainder is all that a parse reports (R97, R123). -/
theorem eos_extract_diags_of_unseen {w : Work} (hs : w.seen = false) :
    w.eos.extract.diags =
      w.diags ++ if w.flat.length % (1 + w.n) = 0 then [] else [.remainderDropped (w.flat.length % (1 + w.n))] := by
  have hsilent : ((slices (1 + w.n) w.flat).zipIdx.filterMap fun ck => chunkDiag w.n ck.2 ck.1) = [] :=
    List.filterMap_eq_nil_iff.mpr fun _ hck => chunkDiag_of_mem_slices (List.fst_mem_of_mem_zipIdx hck)
  rw [extract_diags, eos_fixed hs]
  simp only [hsilent, List.append_nil]
  split <;> simp

/-- After a marker a parse reports chunks only (R96, R99, R100). -/
theorem chunkDiag_of_mem_diags_of_seen {w : Work} (hs : w.seen = true) {d : Diag} (hd : d ∈ w.eos.extract.diags) :
    d ∈ w.diags ∨ ∃ k c, chunkDiag w.n k c = some d := by
  rw [extract_diags, eos_marker hs] at hd
  rcases List.mem_append.mp hd with hd | hd
  · exact .inl hd
  · obtain ⟨⟨c, k⟩, -, hdiag⟩ := List.mem_filterMap.mp hd
    exact .inr ⟨k, c, hdiag⟩

/-- The mode of a parse tells whether a marker was seen (R95). -/
theorem eos_extract_mode (w : Work) : w.eos.extract.mode = if w.seen = true then .marker else .fixedSize := by
  rw [extract_frame]
  cases hs : w.seen
  · rw [eos_fixed hs]; rfl
  · rw [eos_marker hs]; rfl

/-- What is said of a chunk: shorter than `1 + N`, or longer (R99, R100). -/
theorem short_or_long_of_chunkDiag {n k : Nat} {c : Chunk} {d : Diag} (h : chunkDiag n k c = some d) :
    (d = .shortChunk k c.length ∧ c.length < 1 + n) ∨ (d = .longChunk k c.length ∧ 1 + n < c.length) := by
  unfold chunkDiag at h
  split_ifs at h with hshort hlong
  · exact .inl ⟨(Option.some.inj h).symm, hshort⟩
  · exact .inr ⟨(Option.some.inj h).symm, hlong⟩

/-- A parse in `FixedSize` mode reports a remainder or nothing (R97, R123). -/
theorem parse_diags_of_fixedSize {cfg : Config} {w : Work} {text : Text} {n : Int}
    (hmode : (w.parse cfg text n).mode = .fixedSize) :
    (w.parse cfg text n).diags = [] ∨
      ∃ k, (w.parse cfg text n).diags = [.remainderDropped k] ∧ 0 < k ∧ k < 1 + n.toNat := by
  rw [parse_eq_delivered] at hmode ⊢
  have hseen : (delivered cfg w text n).seen = false := by simpa [eos_extract_mode] using hmode
  rw [eos_extract_diags_of_unseen hseen, delivered_diags, delivered_n, List.nil_append]
  split
  · exact .inl rfl
  next hr => exact .inr ⟨_, rfl, Nat.pos_of_ne_zero hr, Nat.mod_lt _ (by omega)⟩

/-- A parse in `Marker` mode reports short and long chunks only (R99, R100, R122). -/
theorem parse_diags_of_marker {cfg : Config} {w : Work} {text : Text} {n : Int}
    (hmode : (w.parse cfg text n).mode = .marker) {d : Diag} (hd : d ∈ (w.parse cfg text n).diags) :
    ∃ k len, (d = .shortChunk k len ∧ len < 1 + n.toNat) ∨ (d = .longChunk k len ∧ 1 + n.toNat < len) := by
  rw [parse_eq_delivered] at hmode hd
  have hseen : (delivered cfg w text n).seen = true := by simpa [eos_extract_mode] using hmode
  rcases chunkDiag_of_mem_diags_of_seen hseen hd with hd | ⟨k, c, hdiag⟩
  · rw [delivered_diags] at hd
    cases hd
  · rw [delivered_n] at hdiag
    exact ⟨k, c.length, short_or_long_of_chunkDiag hdiag⟩

/-- A parse that completed had `N >= 1` and left its elements (R85, R88). -/
theorem pktParse_ok {text : Text} {n : Int} {s t : State} {r : Result} {ds : List Diag}
    (h : exec (.pktParse text n) s = .next t) (ho : t.outcome = some (.ok r ds)) :
    1 ≤ n ∧ t.work = s.work.parse s.cfg text n ∧ ds = (s.work.parse s.cfg text n).diags := by
  by_cases hn : n < 1
  · obtain rfl : s.refuse .badConfig = t := Host.Outcome.next.inj ((exec_pktParse_refused text s hn).symm.trans h)
    cases ho
  · have hn : 1 ≤ n := by omega
    obtain rfl := Host.Outcome.next.inj ((exec_pktParse_completes text s hn).symm.trans h)
    cases ho
    exact ⟨hn, parse_release _ _ _ _, rfl⟩

/-! ### The diagnostics of the reducer and of the silent operations -/

/-- The pairs raise no diagnostic (R105). -/
theorem foldPairs_diags (g : ReduceConfig) (w : Work) (pairs : List (Payload × Payload)) :
    (foldPairs g w pairs).diags = w.diags := by
  rw [foldPairs_eq]

/-- The one diagnostic of the reducer (R106, R124). -/
theorem warnLengths_diags (w : Work) (nA nB : Nat) :
    (w.warnLengths nA nB).diags = w.diags ++ if nA = nB then [] else [.streamLengthMismatch nA nB] := by
  unfold Work.warnLengths
  split <;> simp

/-- `GLD_REDUCE` that is not refused raises what its list lengths call for (R106, R130 (c)). -/
theorem reduceStreams_ok_diags {cfg : Config} {as bs : List Payload} {ra ca cb start step : Int} {bases : List Int}
    {w w' : Work} (h : reduceStreams cfg as bs ra ca cb start step bases w = .ok w') :
    w'.diags = w.diags ++ if as.length = bs.length then [] else [.streamLengthMismatch as.length bs.length] := by
  obtain ⟨-, -, -, hpairs⟩ := reduceStreams_ok h
  obtain ⟨rfl, -⟩ := reducePairs_ok hpairs
  rw [foldPairs_diags, warnLengths_diags]

/-- The framing loop raises no diagnostic (R79). -/
theorem frameStream_ok_diags {cfg : Config} {ty b : Int} {payloads : List Payload} {w w' : Work}
    (h : frameStream cfg ty b payloads w = .ok w') : w'.diags = w.diags := by
  obtain ⟨t, -, rfl⟩ := frameStream_ok h
  rfl

/-- The seven operations but for `PKT_PARSE` and `GLD_REDUCE` complete without a diagnostic (R28, R120). -/
theorem ok_diags_of_silent {i : Instr} {s t : State} {r : Result} {ds : List Diag} (hop : isOperation i = true)
    (h : exec i s = .next t) (ho : t.outcome = some (.ok r ds)) (hparse : ∀ text n, i ≠ .pktParse text n)
    (hreduce : ∀ as bs ra ca cb start step bases, i ≠ .gldReduce as bs ra ca cb start step bases) : ds = [] := by
  cases i with
  | hdrBuild | hdrCheck | hdrFields | pktFrame | gldEmit =>
    obtain ⟨_, -, -, rfl⟩ := ok_of_conclude_map h ho
    rfl
  | strFrameIndep ty b payloads =>
    obtain ⟨w, hw, -, rfl⟩ := ok_of_conclude_map h ho
    exact frameStream_ok_diags hw
  | strFrameSplit ty b buffer n =>
    obtain ⟨w, hw, -, rfl⟩ := ok_of_conclude_map h ho
    exact frameStream_ok_diags (frameSplit_ok hw)
  | pktParse text n => exact absurd rfl (hparse text n)
  | gldReduce as bs ra ca cb start step bases => exact absurd rfl (hreduce as bs ra ca cb start step bases)
  | hdr32 | tokMark | tokIgn | tokInt | tokBad | tokEos => cases hop

end Sys2Proof.Machine

/-! PROOFS. The statements about the streams (spec/20_memory.md). -/

namespace Sys2Proof.Machine

/-- Settles O26: the parse of any text leaves good elements, so its packets have `N` values, and it writes its own elements
only; below 1 the test of `N` comes first. -/
theorem pktParseNeverFailsOnText : Obligations.PktParseNeverFailsOnText := by
  refine ⟨fun text n s hn => ⟨s.work.parse s.cfg text n, ?_, fun p hp => ?_, parse_frame _ _ _ _⟩,
    fun text n s hn => exec_pktParse_refused text s hn⟩
  · rw [exec_pktParse_completes text s hn, State.finish, parse_release]
  · have hlen : p.length = (s.work.parse s.cfg text n).n := (good_parse s.cfg s.work text n).pkts_length p hp
    rw [parse_n] at hlen
    omega

/-- Settles O50: every operation ends in `conclude`, whose refusal leaves the elements at an operation's start. -/
theorem refusedOperationLeavesNoOutput : Obligations.RefusedOperationLeavesNoOutput := by
  intro i s t e hop h ho
  obtain ⟨x, hx⟩ := exec_operation_eq_conclude hop s
  rw [work_of_conclude_refused (hx.symm.trans h) ho]
  exact ⟨atStart_out _, atStart_diags _, atStart_pkts _, atStart_recs _⟩

/-- Settles O51, operation by operation: `DIAGS` is empty at the start of each, and only phases 3 and 4 of a parse and the
reducer's comparison of lengths add to it. -/
theorem diagnosticsComeFromTheirOperation : Obligations.DiagnosticsComeFromTheirOperation := by
  intro i s t r ds hop h ho
  refine ⟨ok_diags_of_silent hop h ho, ?_, ?_⟩
  · rintro text n rfl
    obtain ⟨hn, hwork, rfl⟩ := pktParse_ok h ho
    rw [hwork]
    refine ⟨fun hmode => ?_, fun hmode d hd => ?_⟩
    · rcases parse_diags_of_fixedSize hmode with hnil | ⟨k, hone, hpos, hlt⟩
      · simp [hnil]
      · rw [hone]
        exact ⟨le_rfl, List.forall_mem_singleton.mpr ⟨k, rfl, hpos, by omega⟩⟩
    · obtain ⟨k, len, ⟨rfl, hlt⟩ | ⟨rfl, hlt⟩⟩ := parse_diags_of_marker hmode hd
      · exact ⟨k, len, .inl ⟨rfl, by omega⟩⟩
      · exact ⟨k, len, .inr ⟨rfl, by omega⟩⟩
  · rintro as bs ra ca cb start step bases rfl
    obtain ⟨w, hw, -, rfl⟩ := ok_of_conclude_map h ho
    exact reduceStreams_ok_diags hw

end Sys2Proof.Machine

/-! PROOF SUPPORT. The encodings of spec/30_encoding.md: the header word bit by bit, and the selectors of commands. -/

namespace Sys2Proof.Machine

/-! ### The fixed bits of a header word -/

/-- The fixed bits by mask and match (R42). -/
theorem hdr32Fixed_iff (w : Word32) : hdr32Fixed w = true ↔ w &&& 0x7FFF8FE0#32 = 0x0FFF0000#32 := beq_iff_eq

/-- Where a bit of the mask is set, a word with the fixed bits has that bit of the match (R42). -/
theorem getLsbD_of_hdr32Fixed {w : Word32} (h : hdr32Fixed w = true) {i : Nat}
    (hi : (0x7FFF8FE0#32).getLsbD i = true) : w.getLsbD i = (0x0FFF0000#32).getLsbD i := by
  simpa [hi] using congrArg (·.getLsbD i) ((hdr32Fixed_iff w).mp h)

/-- Every bit outside the three free fields is in the mask (R42). -/
theorem mask_covers_unfree : ∀ i < 31, 4 < i → ¬(12 ≤ i ∧ i ≤ 14) → (0x7FFF8FE0#32).getLsbD i = true := by
  decide

/-- A bit of a field is the bit of the word that far above the field's lowest. -/
theorem getLsbD_eq_of_extractLsb'_eq {n : Nat} {v w : BitVec n} {start len : Nat}
    (h : v.extractLsb' start len = w.extractLsb' start len) {i : Nat} (hlo : start ≤ i) (hhi : i < start + len) :
    v.getLsbD i = w.getLsbD i := by
  have hbit := congrArg (·.getLsbD (i - start)) h
  have hlt : i - start < len := by omega
  simpa [hlt, Nat.add_sub_cancel' hlo] using hbit

/-- The fixed bits and the three free fields are the whole word (R42). -/
theorem eq_of_hdr32Fixed_of_fields {v w : Word32} (hv : hdr32Fixed v = true) (hw : hdr32Fixed w = true)
    (hp : fieldParity v = fieldParity w) (hty : fieldPacketType v = fieldPacketType w)
    (hid : fieldPacketId v = fieldPacketId w) : v = w := by
  refine BitVec.eq_of_getLsbD_eq fun i hi => ?_
  by_cases hbit31 : 31 ≤ i
  · exact getLsbD_eq_of_extractLsb'_eq hp hbit31 hi
  by_cases hbitsTy : 12 ≤ i ∧ i ≤ 14
  · exact getLsbD_eq_of_extractLsb'_eq hty hbitsTy.1 (by omega)
  by_cases hbitsId : i ≤ 4
  · exact getLsbD_eq_of_extractLsb'_eq hid (Nat.zero_le i) (by omega)
  · have hmask := mask_covers_unfree i (by omega) (by omega) hbitsTy
    rw [getLsbD_of_hdr32Fixed hv hmask, getLsbD_of_hdr32Fixed hw hmask]

/-- A word with the fixed bits is the header word of its free fields: no bit of it is lost (R42). -/
theorem headerWord_fields {w : Word32} (h : hdr32Fixed w = true) :
    headerWord (fieldParity w) (fieldPacketType w) (fieldPacketId w) = w := by
  obtain ⟨hfixed, hp, hty, hid⟩ := fields_of_headerWord (fieldParity w) (fieldPacketType w) (fieldPacketId w)
  exact eq_of_hdr32Fixed_of_fields hfixed h hp hty hid

/-- A word with the fixed bits has its sentinels all ones and its reserved and unnamed bits 0 (R40, R41). -/
theorem sentinels_of_hdr32Fixed {w : Word32} (h : hdr32Fixed w = true) :
    fieldSourceRow w = 0x1F#5 ∧ fieldSourceCol w = 0x7F#7 ∧ fieldReserved w = 0#3 ∧
      w.getLsbD 15 = false ∧ ∀ i, 5 ≤ i → i ≤ 11 → w.getLsbD i = false := by
  have hfield (start len : Nat) (hmask : (0x7FFF8FE0#32).extractLsb' start len = BitVec.allOnes len) :
      w.extractLsb' start len = (0x0FFF0000#32).extractLsb' start len := by
    rw [← (hdr32Fixed_iff w).mp h, BitVec.extractLsb'_and, hmask, BitVec.and_allOnes]
  have hmatch : ∀ i, 5 ≤ i → i ≤ 11 → (0x0FFF0000#32).getLsbD i = false := by decide
  refine ⟨hfield 16 5 rfl, hfield 21 7 rfl, hfield 28 3 rfl, getLsbD_of_hdr32Fixed h rfl, fun i hlo hhi => ?_⟩
  rw [getLsbD_of_hdr32Fixed h (mask_covers_unfree i (by omega) (by omega) (by omega)), hmatch i hlo hhi]

/-! ### Parity -/

/-- The header word with its parity bit clear (R48). -/
theorem headerWord_zero (ty : BitVec 3) (id : BitVec 5) : headerWord 0#1 ty id = headerBody ty id := by
  simp [headerWord]

/-- Bit 31 of a header word is its parity bit (R40). -/
theorem getLsbD_31_headerWord (p : BitVec 1) (ty : BitVec 3) (id : BitVec 5) :
    (headerWord p ty id).getLsbD 31 = p.getLsbD 0 := by
  have h := congrArg (·.getLsbD 0) (fields_of_headerWord p ty id).2.1
  simpa [fieldParity] using h

/-- Setting the parity bit adds one to the number of ones (R48). -/
theorem popcount_headerWord_one (ty : BitVec 3) (id : BitVec 5) :
    popcount (headerWord 1#1 ty id) = popcount (headerBody ty id) + 1 := by
  have hlow : ∀ i ∈ List.range 31,
      ((headerWord 1#1 ty id).getLsbD i = true ↔ (headerBody ty id).getLsbD i = true) := by
    intro i hi
    have hlt : i < 31 := List.mem_range.mp hi
    rw [headerWord, BitVec.getLsbD_or, BitVec.getLsbD_shiftLeft]
    simp only [hlt, decide_true, Bool.not_true, Bool.and_false, Bool.false_and, Bool.or_false]
  have h31 : (headerBody ty id).getLsbD 31 = false := by
    rw [← headerWord_zero, getLsbD_31_headerWord]
    rfl
  simp only [popcount, List.range_succ (n := 31), List.countP_append, List.countP_congr hlow, List.countP_singleton,
    getLsbD_31_headerWord, h31]
  rfl

/-- A header word has an odd number of ones exactly if its parity bit is the one R48 gives its body. -/
theorem parityOdd_headerWord_iff (p : BitVec 1) (ty : BitVec 3) (id : BitVec 5) :
    parityOdd (headerWord p ty id) = true ↔ p = parityBit (headerBody ty id) := by
  rcases BitVec.eq_zero_or_eq_one p with rfl | rfl
  · rw [headerWord_zero, parityOdd, parityBit, beq_iff_eq]
    split <;> simp <;> omega
  · rw [parityOdd, popcount_headerWord_one, parityBit, beq_iff_eq]
    split <;> simp <;> omega

/-! ### Canonical headers -/

/-- A word is canonical exactly if it is the assembled header of some type and id (R42, R48). -/
theorem canonicalHeader_iff (w : Word32) :
    canonicalHeader w = true ↔ ∃ (ty : BitVec 3) (id : BitVec 5), w = assembleHeader ty id := by
  rw [canonicalHeader, Bool.and_eq_true]
  constructor
  · rintro ⟨hfixed, hodd⟩
    rw [← headerWord_fields hfixed, parityOdd_headerWord_iff] at hodd
    exact ⟨fieldPacketType w, fieldPacketId w, by rw [assembleHeader, ← hodd, headerWord_fields hfixed]⟩
  · rintro ⟨ty, id, rfl⟩
    exact ⟨(fields_of_headerWord _ ty id).1, (parityOdd_headerWord_iff _ ty id).mpr rfl⟩

/-- An assembled header tells its type and id (R67). -/
theorem assembleHeader_inj {ty ty' : BitVec 3} {id id' : BitVec 5} (h : assembleHeader ty id = assembleHeader ty' id') :
    ty = ty' ∧ id = id' := by
  obtain ⟨-, -, hty, hid⟩ := fields_of_headerWord (parityBit (headerBody ty id)) ty id
  obtain ⟨-, -, hty', hid'⟩ := fields_of_headerWord (parityBit (headerBody ty' id')) ty' id'
  exact ⟨hty.symm.trans ((congrArg fieldPacketType h).trans hty'),
    hid.symm.trans ((congrArg fieldPacketId h).trans hid')⟩

/-- The assembled headers, one for each type and id, in the order of `32 * type + id`. -/
def builtHeaders : List Word32 :=
  (List.finRange 8 ×ˢ List.finRange 32).map fun f => assembleHeader (BitVec.ofFin f.1) (BitVec.ofFin f.2)

theorem mem_builtHeaders (w : Word32) : w ∈ builtHeaders ↔ canonicalHeader w = true := by
  rw [canonicalHeader_iff]
  constructor
  · intro h
    obtain ⟨f, -, rfl⟩ := List.mem_map.mp h
    exact ⟨_, _, rfl⟩
  · rintro ⟨ty, id, rfl⟩
    exact List.mem_map.mpr ⟨(ty.toFin, id.toFin),
      List.mem_product.mpr ⟨List.mem_finRange _, List.mem_finRange _⟩, rfl⟩

theorem length_builtHeaders : builtHeaders.length = 256 := by
  simp [builtHeaders, List.length_product]

theorem nodup_builtHeaders : builtHeaders.Nodup := by
  refine List.Nodup.map (fun f g h => ?_) ((List.nodup_finRange 8).product (List.nodup_finRange 32))
  obtain ⟨hty, hid⟩ := assembleHeader_inj h
  exact Prod.ext (BitVec.ofFin.inj hty) (BitVec.ofFin.inj hid)

/-! ### The value of a header word -/

/-- A header word as the sum of its fields by their weights (R40). -/
theorem toNat_headerWord (p : BitVec 1) (ty : BitVec 3) (id : BitVec 5) :
    (headerWord p ty id).toNat = p.toNat * 2 ^ 31 + 0x0FFF0000 + ty.toNat * 2 ^ 12 + id.toNat := by
  have hp := p.isLt
  have hty := ty.isLt
  have hid := id.isLt
  have hor (k : Nat) {low : Nat} (hlow : low < 2 ^ k) (high : Nat) : low ||| high <<< k = high * 2 ^ k + low := by
    rw [Nat.or_comm, ← Nat.shiftLeft_add_eq_or_of_lt hlow, Nat.shiftLeft_eq]
  have hword : (headerWord p ty id).toNat =
      id.toNat ||| ty.toNat <<< 12 ||| 0x1F <<< 16 ||| 0x7F <<< 21 ||| p.toNat <<< 31 := by
    have hsmall (x k : Nat) (hx : x * 2 ^ k < 2 ^ 32) : x <<< k % 2 ^ 32 = x <<< k := by
      rw [Nat.shiftLeft_eq, Nat.mod_eq_of_lt hx]
    have hmod (x : Nat) (hx : x < 2 ^ 32) : x % 2 ^ 32 = x := Nat.mod_eq_of_lt hx
    simp only [headerWord, headerBody, BitVec.toNat_or, BitVec.toNat_shiftLeft, BitVec.toNat_setWidth,
      BitVec.toNat_ofNat, hmod p.toNat (by omega), hmod ty.toNat (by omega), hmod id.toNat (by omega),
      hsmall p.toNat 31 (by omega), hsmall ty.toNat 12 (by omega)]
    rfl
  rw [hword, hor 12 (by omega), hor 16 (by omega), hor 21 (by omega), hor 31 (by omega)]
  omega

/-! ### `HDR_BUILD` -/

/-- Masking keeps an operand that is in range (R66). -/
@[simp] theorem maskType_toNat (ty : BitVec 3) : maskType ty.toNat = ty := by simp [maskType]

@[simp] theorem maskId_toNat (id : BitVec 5) : maskId id.toNat = id := by simp [maskId]

/-- Under `truncate` `HDR_BUILD` returns the assembled header (R65, R66). -/
theorem exec_hdrBuild_truncate {s : State} (h : s.cfg.rangePolicy = .truncate) (ty id : Int) :
    exec (.hdrBuild ty id) s =
      .next (s.finish s.work.atStart (.word (assembleHeader (maskType ty) (maskId id)))) := by
  simp [exec, execHdrBuild, buildHeader_truncate h, Except.map]

/-- The header `HDR_BUILD` returned, under either policy (R65, R66). -/
theorem eq_assembleHeader_of_exec_hdrBuild {ty id : Int} {s t : State} {h : Word32} {ds : List Diag}
    (hexec : exec (.hdrBuild ty id) s = .next t) (ho : t.outcome = some (.ok (.word h) ds)) :
    h = assembleHeader (maskType ty) (maskId id) := by
  rcases hb : buildHeader s.cfg ty id with e | w
  · obtain rfl : s.refuse e = t := by simpa [exec, execHdrBuild, hb, Except.map] using hexec
    cases ho
  · obtain rfl : s.finish s.work.atStart (.word w) = t := by simpa [exec, execHdrBuild, hb, Except.map] using hexec
    cases ho
    exact buildHeader_ok hb

/-! ### Selectors -/

/-- A selector outside 01 to 09 selects nothing (R60). -/
theorem decode_cmd_of_unused {c : Command} (h : c.selector = 0x00#8 ∨ 0x09#8 < c.selector) :
    decode (.cmd c) = .error .badSelector := by
  have hne (k : Byte) (hk : 0x01#8 ≤ k ∧ k ≤ 0x09#8) : c.selector ≠ k := by
    rintro rfl
    bv_omega
  simp [decode, decodeCommand, hne]

/-- A selector from 01 to 09 selects an operation (R60). -/
theorem decode_cmd_of_used {c : Command} (h : 0x01#8 ≤ c.selector ∧ c.selector ≤ 0x09#8) :
    ∃ i, decode (.cmd c) = .ok i := by
  simp only [decode, decodeCommand]
  split_ifs
  case neg => bv_omega
  all_goals exact ⟨_, rfl⟩

end Sys2Proof.Machine

/-! PROOF SUPPORT. Numerals and tokens (spec/30_encoding.md R49 to R53): what `parse_int` reads, that it reads back what
`dec` writes, case folding and the default classifier. -/

namespace Sys2Proof.Machine

/-! ### Digits and their bytes -/

/-- The digits of base 10 are the bytes of the ten digits (R50). -/
theorem isDec_iff (b : Byte) : isDec b = true ↔ ∃ d : Fin 10, b = digitByte d := by
  simp only [isDec, Bool.and_eq_true, decide_eq_true_eq]
  constructor
  · rintro ⟨hlo, hhi⟩
    exact ⟨⟨b.toNat - 0x30, by bv_omega⟩, by simp only [digitByte]; bv_omega⟩
  · rintro ⟨d, rfl⟩
    have hd := d.isLt
    simp only [digitByte]
    exact ⟨by bv_omega, by bv_omega⟩

/-- The digits of base 16 are the bytes of the sixteen digits, the letters in either case (R50). -/
theorem isHex_iff (b : Byte) : isHex b = true ↔ ∃ (d : Fin 16) (upper : Bool), b = hexDigitByte d upper := by
  constructor
  · simp only [isHex, isDec, Bool.or_eq_true, Bool.and_eq_true, decide_eq_true_eq]
    rintro ((⟨hlo, hhi⟩ | ⟨hlo, hhi⟩) | ⟨hlo, hhi⟩)
    · have hd : b.toNat - 0x30 < 10 := by bv_omega
      exact ⟨⟨b.toNat - 0x30, by omega⟩, false, by simp only [hexDigitByte, hd, if_true]; bv_omega⟩
    · have hd : ¬b.toNat - 0x61 + 10 < 10 := by omega
      exact ⟨⟨b.toNat - 0x61 + 10, by bv_omega⟩, false, by
        simp only [hexDigitByte, hd, if_false, Bool.false_eq_true]; bv_omega⟩
    · have hd : ¬b.toNat - 0x41 + 10 < 10 := by omega
      exact ⟨⟨b.toNat - 0x41 + 10, by bv_omega⟩, true, by simp only [hexDigitByte, hd, if_false, if_true]; bv_omega⟩
  · rintro ⟨d, upper, rfl⟩
    revert d upper
    decide

/-- A digit's byte has the digit's value (R50). -/
theorem digitValue_digitByte : ∀ d : Fin 10, digitValue (digitByte d) = d := by decide

theorem digitValue_hexDigitByte : ∀ (d : Fin 16) (upper : Bool), digitValue (hexDigitByte d upper) = d := by decide

/-- Bytes that are no digits are those that differ from every digit's byte. -/
theorem isDec_eq_false_iff (b : Byte) : isDec b = false ↔ ∀ d : Fin 10, b ≠ digitByte d := by
  rw [← Bool.not_eq_true, isDec_iff, not_exists]

theorem isHex_eq_false_iff (b : Byte) : isHex b = false ↔ ∀ d upper, b ≠ hexDigitByte d upper := by
  rw [← Bool.not_eq_true, isHex_iff]
  simp only [not_exists, ne_eq]

/-- A list whose members are all values of a function is the image of a list. -/
theorem exists_map_eq_of_forall_mem {α β : Type} {f : α → β} {l : List β} (h : ∀ b ∈ l, ∃ a, b = f a) :
    ∃ as : List α, l = as.map f := by
  have hrange : l ∈ Set.range (List.map f) := by
    rw [Set.range_list_map]
    exact fun b hb => (h b hb).imp fun _ ha => ha.symm
  exact hrange.imp fun _ has => has.symm

/-- The value of a written numeral is that of its digits (R50). -/
theorem numeralValue_map {α : Type} (base : Nat) (byte : α → Byte) (value : α → Nat)
    (h : ∀ a, digitValue (byte a) = value a) (ds : List α) :
    numeralValue base (ds.map byte) = Nat.ofDigits base (ds.map value).reverse := by
  rw [numeralValue_eq_ofDigits, List.map_map]
  congr 3
  exact funext h

/-- A token is what is left of it and the noise stripped from its end, which holds no digit (R50). -/
theorem stripNoise_split (digit : Byte → Bool) (t : Text) :
    ∃ noise, t = stripNoise digit t ++ noise ∧ ∀ b ∈ noise, digit b = false := by
  obtain ⟨noise, ht, hnoise, -⟩ := (stripNoise_eq_iff digit t _).mp rfl
  exact ⟨noise, ht, hnoise⟩

/-- Noise after something and at least one digit is all that is stripped (R50). -/
theorem stripNoise_append {digit : Byte → Bool} {front digits noise : Text} (hne : digits ≠ [])
    (hdigits : ∀ b ∈ digits, digit b = true) (hnoise : ∀ b ∈ noise, digit b = false) :
    stripNoise digit (front ++ digits ++ noise) = front ++ digits := by
  refine (stripNoise_eq_iff digit _ _).mpr ⟨noise, rfl, hnoise, fun _ => ?_⟩
  rw [List.getLast_append_of_ne_nil _ hne]
  exact hdigits _ (List.getLast_mem hne)

/-! ### The two bases -/

/-- What the `HEX` part of R50 reads. -/
theorem parseHex_eq_some_iff (neg : Bool) (body : Text) (v : Int) :
    parseHex neg body = some v ↔ ∃ (ds : List (Fin 16 × Bool)) (noise : Text),
      ds ≠ [] ∧ (∀ b ∈ noise, ∀ d upper, b ≠ hexDigitByte d upper) ∧
      body = ds.map (fun d => hexDigitByte d.1 d.2) ++ noise ∧
      v = (if neg = true then -1 else 1) * ((Nat.ofDigits 16 (ds.map fun d => d.1.val).reverse : Nat) : Int) := by
  have hvalue (ds : List (Fin 16 × Bool)) : numeralValue 16 (ds.map fun d => hexDigitByte d.1 d.2) =
      Nat.ofDigits 16 (ds.map fun d => d.1.val).reverse :=
    numeralValue_map 16 _ _ (fun d => digitValue_hexDigitByte d.1 d.2) ds
  have hsign (n : Nat) : (if neg = true then -(n : Int) else n) = (if neg = true then -1 else 1) * (n : Int) := by
    split <;> simp
  simp only [← isHex_eq_false_iff, parseHex, Option.map_eq_some_iff, digitsOf_eq_some_iff, hsign]
  constructor
  · rintro ⟨n, ⟨hne, hdigits, rfl⟩, rfl⟩
    obtain ⟨noise, hbody, hnoise⟩ := stripNoise_split isHex body
    obtain ⟨ds, hds⟩ := exists_map_eq_of_forall_mem (f := fun d : Fin 16 × Bool => hexDigitByte d.1 d.2)
      fun b hb => Prod.exists.mpr ((isHex_iff b).mp (hdigits b hb))
    rw [hds] at hbody hne ⊢
    exact ⟨ds, noise, by simpa using hne, hnoise, hbody, by rw [hvalue]⟩
  · rintro ⟨ds, noise, hne, hnoise, rfl, rfl⟩
    have hdigits : ∀ b ∈ ds.map fun d => hexDigitByte d.1 d.2, isHex b = true := by
      intro b hb
      obtain ⟨d, -, rfl⟩ := List.mem_map.mp hb
      exact (isHex_iff _).mpr ⟨d.1, d.2, rfl⟩
    have hstrip := stripNoise_append (front := []) (by simpa using hne) hdigits hnoise
    rw [List.nil_append] at hstrip
    rw [hstrip]
    exact ⟨_, ⟨by simpa using hne, hdigits, rfl⟩, by rw [hvalue]⟩

/-- A numeral of base 10 begins with a digit, so with no sign. -/
theorem ne_sign_of_isDec {b : Byte} (h : isDec b = true) : b ≠ 0x2D#8 ∧ b ≠ 0x2B#8 := by
  constructor <;> rintro rfl <;> cases h

/-- The `DEC` part of R50, its noise stripped, on bytes: a sign or none, then digits. -/
theorem parseDec_eq_some_iff_stripNoise (t : Token) (v : Int) :
    parseDec t = some v ↔ ∃ (sign digits : Text),
      (sign = [] ∨ sign = [0x2B#8] ∨ sign = [0x2D#8]) ∧ digits ≠ [] ∧ (∀ b ∈ digits, isDec b = true) ∧
      stripNoise isDec t = sign ++ digits ∧
      v = (if sign = [0x2D#8] then -1 else 1) * (numeralValue 10 digits : Int) := by
  unfold parseDec
  constructor
  · intro h
    split at h
    · cases h
    next b rest hstrip =>
      split_ifs at h with hminus hplus <;>
        obtain ⟨n, hn, rfl⟩ := Option.map_eq_some_iff.mp h <;>
        obtain ⟨hne, hdigits, rfl⟩ := (digitsOf_eq_some_iff _ _ _ _).mp hn
      · exact ⟨[0x2D#8], rest, by simp, hne, hdigits, by simp [hstrip, hminus], by simp⟩
      · exact ⟨[0x2B#8], rest, by simp, hne, hdigits, by simp [hstrip, hplus], by simp⟩
      · exact ⟨[], b :: rest, by simp, hne, hdigits, hstrip, by simp⟩
  · rintro ⟨sign, digits, hsign, hne, hdigits, hstrip, rfl⟩
    have hread : digitsOf 10 isDec digits = some (numeralValue 10 digits) :=
      (digitsOf_eq_some_iff _ _ _ _).mpr ⟨hne, hdigits, rfl⟩
    rw [hstrip]
    rcases hsign with rfl | rfl | rfl
    · obtain ⟨b, rest, rfl⟩ := List.exists_cons_of_ne_nil hne
      obtain ⟨hminus, hplus⟩ := ne_sign_of_isDec (hdigits b (by simp))
      simp [hminus, hplus, hread]
    · simp [hread]
    · simp [hread]

/-- What the `DEC` part of R50 reads. -/
theorem parseDec_eq_some_iff (t : Token) (v : Int) :
    parseDec t = some v ↔ ∃ (sign : Text) (ds : List (Fin 10)) (noise : Text),
      (sign = [] ∨ sign = [0x2B#8] ∨ sign = [0x2D#8]) ∧ ds ≠ [] ∧ (∀ b ∈ noise, ∀ d : Fin 10, b ≠ digitByte d) ∧
      t = sign ++ ds.map (fun d : Fin 10 => digitByte d.val) ++ noise ∧
      v = (if sign = [0x2D#8] then -1 else 1) * ((Nat.ofDigits 10 (ds.map fun d => d.val).reverse : Nat) : Int) := by
  have hvalue (ds : List (Fin 10)) : numeralValue 10 (ds.map fun d : Fin 10 => digitByte d.val) =
      Nat.ofDigits 10 (ds.map fun d => d.val).reverse :=
    numeralValue_map 10 _ _ digitValue_digitByte ds
  simp only [← isDec_eq_false_iff, parseDec_eq_some_iff_stripNoise]
  constructor
  · rintro ⟨sign, digits, hsign, hne, hdigits, hstrip, rfl⟩
    obtain ⟨noise, ht, hnoise⟩ := stripNoise_split isDec t
    obtain ⟨ds, rfl⟩ := exists_map_eq_of_forall_mem (f := fun d : Fin 10 => digitByte d.val)
      fun b hb => (isDec_iff b).mp (hdigits b hb)
    rw [hstrip] at ht
    exact ⟨sign, ds, noise, hsign, by simpa using hne, hnoise, ht, by rw [hvalue]⟩
  · rintro ⟨sign, ds, noise, hsign, hne, hnoise, rfl, rfl⟩
    have hdigits : ∀ b ∈ ds.map fun d : Fin 10 => digitByte d.val, isDec b = true := by
      intro b hb
      obtain ⟨d, -, rfl⟩ := List.mem_map.mp hb
      exact (isDec_iff _).mpr ⟨d, rfl⟩
    have hbytes : ds.map (fun d : Fin 10 => digitByte d.val) ≠ [] := by simpa using hne
    exact ⟨sign, _, hsign, hbytes, hdigits, stripNoise_append hbytes hdigits hnoise, by rw [hvalue]⟩

/-! ### The whole token -/

/-- The two tests before `DEC` (R50). -/
theorem hexPrefix_eq_some_iff (t : Token) (neg : Bool) (body : Text) :
    hexPrefix t = some (neg, body) ↔ ∃ x, (x = 0x78#8 ∨ x = 0x58#8) ∧
      t = (if neg = true then [0x2D#8] else []) ++ 0x30#8 :: x :: body := by
  have hx (x : Byte) : isX x = true ↔ x = 0x78#8 ∨ x = 0x58#8 := by simp [isX]
  constructor
  · intro h
    unfold hexPrefix at h
    split at h
    next a b rest =>
      split_ifs at h with hpos
      · obtain ⟨rfl, hb⟩ := hpos
        cases h
        exact ⟨b, (hx b).mp hb, rfl⟩
      · split at h
        next c body' =>
          split_ifs at h with hneg
          obtain ⟨rfl, rfl, hc⟩ := hneg
          cases h
          exact ⟨c, (hx c).mp hc, rfl⟩
        · cases h
    · cases h
  · rintro ⟨x, hxx, rfl⟩
    have hisX := (hx x).mpr hxx
    cases neg <;> simp [hexPrefix, hisX]

/-- What comes before `DEC` takes the tokens that begin as hexadecimal, and leaves it the others (R50). -/
theorem hasHexPrefix_iff (t : Token) : hasHexPrefix t ↔ ∃ neg body, hexPrefix t = some (neg, body) := by
  simp only [hexPrefix_eq_some_iff]
  constructor
  · rintro ⟨x, rest, hx, rfl | rfl⟩
    · exact ⟨false, rest, x, hx, rfl⟩
    · exact ⟨true, rest, x, hx, rfl⟩
  · rintro ⟨_ | _, rest, x, hx, rfl⟩
    · exact ⟨x, rest, hx, .inl rfl⟩
    · exact ⟨x, rest, hx, .inr rfl⟩

theorem isHexNumeral_iff (t : Token) (v : Int) :
    isHexNumeral t v ↔ ∃ neg body, hexPrefix t = some (neg, body) ∧ parseHex neg body = some v := by
  simp only [hexPrefix_eq_some_iff, parseHex_eq_some_iff]
  constructor
  · rintro ⟨neg, x, ds, noise, hx, hne, hnoise, rfl, hv⟩
    exact ⟨neg, _, ⟨x, hx, by simp⟩, ds, noise, hne, hnoise, rfl, hv⟩
  · rintro ⟨neg, _, ⟨x, hx, rfl⟩, ds, noise, hne, hnoise, rfl, hv⟩
    exact ⟨neg, x, ds, noise, hx, hne, hnoise, by simp, hv⟩

theorem isDecNumeral_iff (t : Token) (v : Int) :
    isDecNumeral t v ↔ hexPrefix t = none ∧ parseDec t = some v := by
  rw [isDecNumeral, hasHexPrefix_iff, parseDec_eq_some_iff, Option.eq_none_iff_forall_ne_some]
  simp only [not_exists, Prod.forall, ne_eq]

/-- What `parse_int` reads: a hexadecimal numeral, or else a decimal one (R50). -/
theorem parseInt_eq_some_iff (t : Token) (v : Int) : parseInt t = some v ↔ isHexNumeral t v ∨ isDecNumeral t v := by
  rw [isHexNumeral_iff, isDecNumeral_iff, parseInt]
  rcases hexPrefix t with _ | ⟨neg, body⟩ <;> simp

/-! ### Decimal rendering -/

/-- The digits of a rendered natural number (R52): a single 0, or those of base 10 with the most significant first. -/
def decDigits (n : Nat) : List (Fin 10) :=
  if n = 0 then [0] else (Nat.digits 10 n).reverse.map (Fin.ofNat 10)

theorem map_val_decDigits (n : Nat) : (decDigits n).map Fin.val = if n = 0 then [0] else (Nat.digits 10 n).reverse := by
  unfold decDigits
  split
  · rfl
  · rw [List.map_map]
    refine (List.map_congr_left fun d hd => ?_).trans (List.map_id _)
    exact Nat.mod_eq_of_lt (Nat.digits_lt_base (by norm_num) (List.mem_reverse.mp hd))

theorem decNat_eq (n : Nat) : decNat n = (decDigits n).map fun d : Fin 10 => digitByte d.val := by
  have hval : (decDigits n).map (fun d : Fin 10 => digitByte d.val) = ((decDigits n).map Fin.val).map digitByte := by
    rw [List.map_map]
    rfl
  rw [hval, map_val_decDigits, decNat]
  split <;> rfl

theorem ofDigits_decDigits (n : Nat) : Nat.ofDigits 10 ((decDigits n).map Fin.val).reverse = n := by
  rw [map_val_decDigits]
  split
  next h => simp [h]
  · rw [List.reverse_reverse, Nat.ofDigits_digits]

theorem decDigits_ne_nil (n : Nat) : decDigits n ≠ [] := by
  unfold decDigits
  split
  · exact List.cons_ne_nil _ _
  next hn => simpa [Nat.digits_eq_nil_iff_eq_zero] using hn

/-- A rendered integer is a `-` where it is negative, and its digits (R52). -/
theorem dec_eq (v : Int) :
    dec v = (if v < 0 then [0x2D#8] else []) ++ (decDigits v.natAbs).map fun d : Fin 10 => digitByte d.val := by
  rw [dec, decNat_eq]
  split <;> rfl

/-- The bytes of a rendered integer (R52). -/
theorem mem_dec {v : Int} {b : Byte} (h : b ∈ dec v) : b = 0x2D#8 ∨ isDec b = true := by
  rw [dec_eq, List.mem_append] at h
  rcases h with h | h
  · split at h
    · exact .inl (List.mem_singleton.mp h)
    · cases h
  · obtain ⟨d, -, rfl⟩ := List.mem_map.mp h
    exact .inr ((isDec_iff _).mpr ⟨d, rfl⟩)

/-- A rendered integer has no hexadecimal beginning: it holds no `x`. -/
theorem not_hasHexPrefix_dec (v : Int) : ¬hasHexPrefix (dec v) := by
  rintro ⟨x, rest, hx, h⟩
  have hmem : x ∈ dec v := by rcases h with h | h <;> simp [h]
  rcases hx with rfl | rfl <;> rcases mem_dec hmem with h' | h' <;> cases h'

/-- A rendered integer is a decimal numeral of it (R53). -/
theorem isDecNumeral_dec (v : Int) : isDecNumeral (dec v) v := by
  refine ⟨not_hasHexPrefix_dec v, if v < 0 then [0x2D#8] else [], decDigits v.natAbs, [], ?_, decDigits_ne_nil _,
    by simp, by rw [dec_eq, List.append_nil], ?_⟩
  · split <;> simp
  · rw [ofDigits_decDigits]
    rcases lt_or_ge v 0 with hneg | hpos
    · rw [if_pos hneg, if_pos rfl, neg_one_mul]
      omega
    · rw [if_neg (not_lt.mpr hpos), if_neg (List.cons_ne_nil _ _).symm, one_mul]
      omega

theorem parseInt_dec (v : Int) : parseInt (dec v) = some v :=
  (parseInt_eq_some_iff _ _).mpr (.inr (isDecNumeral_dec v))

/-! ### Case folding -/

/-- Folding moves nothing but lower-case letters (R51). -/
theorem foldByte_of_isDec {b : Byte} (h : isDec b = true) : foldByte b = b := by
  simp only [isDec, Bool.and_eq_true, decide_eq_true_eq] at h
  exact if_neg (by bv_omega)

/-- A byte folds to one that is no lower-case letter exactly if it is that byte or its lower-case letter (R51). -/
theorem foldByte_eq_iff {b c : Byte} (hc : ¬(0x61#8 ≤ c ∧ c ≤ 0x7A#8)) :
    foldByte b = c ↔ b = c ∨ (0x41#8 ≤ c ∧ c ≤ 0x5A#8 ∧ b = c + 0x20#8) := by
  unfold foldByte
  split <;> constructor <;> intro h <;> bv_omega

/-- A token folds to a word without lower-case letters exactly if it is a case variant of it (R49, R51). -/
theorem fold_eq_iff_caseVariant {t word : Token} (hw : ∀ c ∈ word, ¬(0x61#8 ≤ c ∧ c ≤ 0x7A#8)) :
    fold t = word ↔ caseVariant t word := by
  induction word generalizing t with
  | nil => cases t <;> simp [fold, caseVariant]
  | cons c word ih =>
    obtain ⟨hc, hrest⟩ := List.forall_mem_cons.mp hw
    cases t with
    | nil => simp [fold, caseVariant]
    | cons b t =>
      have h1 : fold (b :: t) = c :: word ↔ foldByte b = c ∧ fold t = word := by simp [fold]
      rw [h1, foldByte_eq_iff hc, ih hrest]
      simp only [caseVariant, List.forall₂_cons]

/-! ### The default classifier -/

/-- What `parse_int` reads holds a decimal digit: one of its own, or the 0 of `0x` (R50). -/
theorem exists_isDec_of_parseInt {t : Token} {v : Int} (h : parseInt t = some v) : ∃ b ∈ t, isDec b = true := by
  rcases (parseInt_eq_some_iff t v).mp h with hhex | hdec
  · obtain ⟨neg, x, ds, noise, -, -, -, rfl, -⟩ := hhex
    exact ⟨0x30#8, by simp, rfl⟩
  · obtain ⟨-, sign, ds, noise, -, hne, -, rfl, -⟩ := hdec
    obtain ⟨d, rest, rfl⟩ := List.exists_cons_of_ne_nil hne
    exact ⟨digitByte d, by simp, (isDec_iff _).mpr ⟨d, rfl⟩⟩

/-- No default marker or ignorable token holds a decimal digit (R43). -/
theorem no_isDec_in_default_words :
    ∀ word ∈ Config.default.markers ++ Config.default.ignorable, ∀ b ∈ word, isDec b = false := by
  decide

/-- A token with a decimal digit is no default marker and no default ignorable token (R43). -/
theorem not_mem_default_words {t : Token} (h : ∃ b ∈ t, isDec b = true) :
    t ∉ Config.default.markers ∧ t ∉ Config.default.ignorable := by
  obtain ⟨b, hb, hdigit⟩ := h
  rw [← not_or, ← List.mem_append]
  intro hmem
  have hno := no_isDec_in_default_words t hmem b hb
  rw [hdigit] at hno
  cases hno

/-- Nor does it fold to one (R51). -/
theorem fold_not_mem_default_words {t : Token} (h : ∃ b ∈ t, isDec b = true) :
    fold t ∉ Config.default.markers ∧ fold t ∉ Config.default.ignorable := by
  obtain ⟨b, hb, hdigit⟩ := h
  exact not_mem_default_words ⟨b, List.mem_map.mpr ⟨b, hb, foldByte_of_isDec hdigit⟩, hdigit⟩

/-- What `parse_int` reads is classified as that integer: the two tests before it do not take it (R49, R53). -/
theorem classify_of_parseInt {t : Token} {v : Int} (h : parseInt t = some v) : classify Config.default t = .int v := by
  obtain ⟨hm, hi⟩ := fold_not_mem_default_words (exists_isDec_of_parseInt h)
  exact classify_of_readInt_some hm hi h

/-- The tests of R49 at the default parameters, one for each class. -/
theorem classify_default_iff (t : Token) :
    (classify Config.default t = .mark ↔ fold t ∈ Config.default.markers) ∧
    (classify Config.default t = .ign ↔ fold t ∈ Config.default.ignorable) ∧
    (∀ v, classify Config.default t = .int v ↔ parseInt t = some v) ∧
    (classify Config.default t = .bad ↔
      fold t ∉ Config.default.markers ∧ fold t ∉ Config.default.ignorable ∧ parseInt t = none) := by
  have hdisjoint : ∀ word ∈ Config.default.markers, word ∉ Config.default.ignorable := by decide
  have hword (h : fold t ∈ Config.default.markers ∨ fold t ∈ Config.default.ignorable) (v : Int) :
      parseInt t ≠ some v := fun hv => by
    obtain ⟨hm, hi⟩ := fold_not_mem_default_words (exists_isDec_of_parseInt hv)
    exact h.elim hm hi
  rcases classify_cases Config.default t with ⟨hm, hc⟩ | ⟨hm, hi, hc⟩ | ⟨hm, hi, v, hv, hc⟩ | ⟨hm, hi, hv, hc⟩
  · simp [hc, hm, hdisjoint _ hm, hword (.inl hm)]
  · simp [hc, hm, hi, hword (.inr hi)]
  · rw [readInt_default] at hv
    simp [hc, hm, hi, hv]
  · rw [readInt_default] at hv
    simp [hc, hm, hi, hv]

end Sys2Proof.Machine

/-! PROOF SUPPORT. The text of framed packets as the parser takes it: its lines are its tokens, one packet is one chunk,
and phase 4 gives the payloads. -/

namespace Sys2Proof.Machine

/-! ### Lines as tokens -/

/-- The bytes of a token being read are added to it, up to the separator that ends it (R86). -/
theorem tokenizeFrom_append {cfg : Config} {line : Text} (h : ∀ b ∈ line, b ∉ cfg.separators) (buf rest : Text) :
    tokenizeFrom cfg buf (line ++ rest) = tokenizeFrom cfg (buf ++ line) rest := by
  induction line generalizing buf with
  | nil => simp
  | cons b line ih =>
    obtain ⟨hb, hline⟩ := List.forall_mem_cons.mp h
    rw [List.cons_append, tokenizeFrom, if_neg hb, ih hline, List.append_assoc]
    rfl

/-- Where the line end is a separator and no line holds one or is empty, the tokens of a text of lines are its lines
(R27, R86). -/
theorem tokenize_linesText {cfg : Config} (hend : cfg.lineEnd ∈ cfg.separators) {lines : List Text}
    (h : ∀ line ∈ lines, line ≠ [] ∧ ∀ b ∈ line, b ∉ cfg.separators) : tokenize cfg (linesText cfg lines) = lines := by
  induction lines with
  | nil => rfl
  | cons line lines ih =>
    obtain ⟨⟨hne, hline⟩, hlines⟩ := List.forall_mem_cons.mp h
    rw [tokenize, linesText_cons, tokenizeFrom_append hline, List.nil_append, tokenizeFrom, if_pos hend, if_neg hne]
    exact congrArg (line :: ·) (ih hlines)

theorem dec_ne_nil (v : Int) : dec v ≠ [] := by
  rw [dec_eq]
  simp [decDigits_ne_nil]

/-- No byte of a decimal numeral is a default separator (R43, R52). -/
theorem not_separator_of_mem_dec {v : Int} {b : Byte} (h : b ∈ dec v) : b ∉ Config.default.separators := by
  intro hsep
  have hno : ∀ b ∈ Config.default.separators, b ≠ 0x2D#8 ∧ isDec b = false := by decide
  obtain ⟨hminus, hdigit⟩ := hno b hsep
  rcases mem_dec h with rfl | hd
  · exact hminus rfl
  · rw [hdigit] at hd
    cases hd

/-- A line of framed packets: a decimal numeral or `TLAST` (R44). -/
theorem dec_or_tlast_of_mem_streamLines {packets : List (Int × Payload × Int)} {line : Text} (h : line ∈ streamLines packets) :
    (∃ v, line = dec v) ∨ line = tlast := by
  obtain ⟨p, -, hp⟩ := List.mem_flatMap.mp h
  simp only [List.mem_append, List.mem_cons, List.mem_map, List.not_mem_nil, or_false] at hp
  rcases hp with (rfl | ⟨v, -, rfl⟩) | rfl | rfl
  · exact .inl ⟨_, rfl⟩
  · exact .inl ⟨_, rfl⟩
  · exact .inr rfl
  · exact .inl ⟨_, rfl⟩

/-- The tokens of a stream of framed packets are its lines, at the default parameters (R44, R86). -/
theorem tokenize_streamLines (packets : List (Int × Payload × Int)) :
    tokenize Config.default (linesText Config.default (streamLines packets)) = streamLines packets := by
  refine tokenize_linesText (by decide) fun line hline => ?_
  rcases dec_or_tlast_of_mem_streamLines hline with ⟨v, rfl⟩ | rfl
  · exact ⟨dec_ne_nil v, fun _ => not_separator_of_mem_dec⟩
  · exact ⟨by decide, by decide⟩

/-! ### Delivery of a framed stream -/

theorem deliver_dec (w : Work) (v : Int) : w.deliver Config.default (dec v) = w.int v := by
  rw [Work.deliver, classify_of_parseInt (parseInt_dec v)]

theorem deliver_tlast (w : Work) : w.deliver Config.default tlast = w.mark Config.default := rfl

/-- Integers delivered while no terminal word is pending go into `FLAT` and `CUR` (R92). -/
theorem deliverAll_dec {w : Work} (hpend : w.pend = false) (vs : List Int) :
    deliverAll Config.default w (vs.map dec) = { w with flat := w.flat ++ vs, cur := w.cur ++ vs } := by
  induction vs generalizing w with
  | nil => simp
  | cons v vs ih =>
    rw [List.map_cons, deliverAll_cons, deliver_dec, int_eq, ih rfl]
    simp [hpend]

/-- The words of a stream of framed packets, headers among them. -/
def chunksOf (packets : List (Int × Payload × Int)) : List Chunk := packets.map fun p => p.1 :: p.2.1 ++ [p.2.2]

/-- One framed packet delivered between chunks is one chunk, its header word whatever it is (R56, R90, R92). -/
theorem deliverAll_packet {w : Work} (hpend : w.pend = false) (hcur : w.cur = []) (h last : Int) (front : Payload) :
    deliverAll Config.default w (dec h :: front.map dec ++ [tlast, dec last]) =
      { w with seen := true, flat := w.flat ++ (h :: front ++ [last]), chunks := w.chunks ++ [h :: front ++ [last]] } := by
  rw [← List.map_cons, deliverAll_append, deliverAll_dec hpend, deliverAll_cons, deliver_tlast,
    mark_afterNextWord rfl, deliverAll_cons, deliver_dec, int_eq, deliverAll_nil]
  simp [hpend, hcur]

/-- A stream of framed packets delivered between chunks (R56, R90, R92). -/
theorem deliverAll_streamLines {w : Work} (hpend : w.pend = false) (hcur : w.cur = [])
    (packets : List (Int × Payload × Int)) :
    deliverAll Config.default w (streamLines packets) =
      { w with
        seen := w.seen || !packets.isEmpty
        flat := w.flat ++ (chunksOf packets).flatten
        chunks := w.chunks ++ chunksOf packets } := by
  induction packets generalizing w with
  | nil => simp [streamLines, chunksOf]
  | cons p packets ih =>
    have hlines : streamLines (p :: packets) =
        (dec p.1 :: p.2.1.map dec ++ [tlast, dec p.2.2]) ++ streamLines packets := rfl
    rw [hlines, deliverAll_append, deliverAll_packet hpend hcur, ih]
    · simp [chunksOf]
    · exact hpend
    · exact hcur

/-- Phase 4 on chunks of `1 + N` words: every chunk is a packet less its header, and nothing is reported (R98). -/
theorem extract_of_full_chunks {w : Work} (h : ∀ c ∈ w.chunks, c.length = 1 + w.n) :
    w.extract.pkts = w.pkts ++ w.chunks.map (fun c => c.drop 1) ∧ w.extract.diags = w.diags := by
  have hfull : w.chunks.filter (fun c => decide (1 + w.n ≤ c.length)) = w.chunks :=
    List.filter_eq_self.mpr fun c hc => decide_eq_true (h c hc).ge
  have htake : w.chunks.map (fun c => (c.drop 1).take w.n) = w.chunks.map (fun c => c.drop 1) :=
    List.map_congr_left fun c hc => List.take_of_length_le (by rw [List.length_drop, h c hc]; omega)
  have hquiet : w.chunks.zipIdx.filterMap (fun ck => chunkDiag w.n ck.2 ck.1) = [] :=
    List.filterMap_eq_nil_iff.mpr fun ck hck => by
      simp [chunkDiag, h ck.1 (List.fst_mem_of_mem_zipIdx hck)]
  rw [extract_eq, hfull, htake, hquiet]
  exact ⟨rfl, List.append_nil _⟩

/-- A stream that ends between chunks of `1 + N` words: phases 3 and 4 give their packets, whether there was a marker or
nothing at all (R94 to R98). -/
theorem eos_extract_of_full_chunks {w : Work} (hcur : w.cur = []) (h : ∀ c ∈ w.chunks, c.length = 1 + w.n)
    (hunseen : w.seen = false → w.flat = [] ∧ w.chunks = []) :
    w.eos.extract.pkts = w.pkts ++ w.chunks.map (fun c => c.drop 1) ∧ w.eos.extract.diags = w.diags := by
  have heos : w.eos.chunks = w.chunks ∧ w.eos.diags = w.diags ∧ w.eos.n = w.n ∧ w.eos.pkts = w.pkts := by
    cases hs : w.seen
    · obtain ⟨hflat, hchunks⟩ := hunseen hs
      rw [eos_fixed hs, hflat, hchunks]
      simp [slices]
    · rw [eos_marker hs, hcur]
      exact ⟨rfl, rfl, rfl, rfl⟩
  obtain ⟨hchunks, hdiags, hwidth, hpkts⟩ := heos
  have hextract := extract_of_full_chunks (w := w.eos) (by rw [hchunks, hwidth]; exact h)
  rwa [hchunks, hdiags, hpkts] at hextract

theorem length_of_mem_chunksOf {n : Nat} {packets : List (Int × Payload × Int)}
    (h : ∀ p ∈ packets, (p.2.1 ++ [p.2.2]).length = n) : ∀ c ∈ chunksOf packets, c.length = 1 + n := by
  intro c hc
  obtain ⟨p, hp, rfl⟩ := List.mem_map.mp hc
  have hlen := h p hp
  rw [List.cons_append, List.length_cons, hlen, Nat.add_comm]

/-- A chunk less its header word is the payload (R44). -/
theorem map_drop_chunksOf (packets : List (Int × Payload × Int)) :
    (chunksOf packets).map (fun c => c.drop 1) = payloadsOf packets := by
  rw [chunksOf, List.map_map]
  rfl

/-- What a parse of a stream of framed packets of `N` values gives, at the default parameters: the payloads, whatever the
header words are, and no diagnostic (R56, R89). -/
theorem parse_streamLines {n : Nat} {packets : List (Int × Payload × Int)}
    (hlen : ∀ p ∈ packets, (p.2.1 ++ [p.2.2]).length = n) (w : Work) :
    (w.parse Config.default (linesText Config.default (streamLines packets)) n).pkts = payloadsOf packets ∧
      (w.parse Config.default (linesText Config.default (streamLines packets)) n).diags = [] := by
  rw [parse_eq, tokenize_streamLines, deliverAll_streamLines rfl rfl, ← map_drop_chunksOf]
  refine eos_extract_of_full_chunks rfl (length_of_mem_chunksOf hlen) fun hseen => ?_
  obtain rfl : packets = [] := by simpa using hseen
  exact ⟨rfl, rfl⟩

end Sys2Proof.Machine

/-! PROOFS. The statements about the encodings (spec/30_encoding.md). -/

namespace Sys2Proof.Machine

/-- Settles O1, constructor by constructor: a selector or class code is matched at once, and a header word is read back
field by field. -/
theorem decodeOfEncodeIsTheInstruction : Obligations.DecodeOfEncodeIsTheInstruction := by
  intro i
  cases i with
  | hdrBuild | hdrCheck | hdrFields | pktFrame | strFrameIndep | strFrameSplit | pktParse | gldReduce | gldEmit => rfl
  | tokMark | tokIgn | tokInt | tokBad | tokEos => rfl
  | hdr32 p ty id =>
    obtain ⟨hfixed, hp, hty, hid⟩ := fields_of_headerWord p ty id
    simp only [encode, decode, decodeData, hfixed, if_true, hp, hty, hid]

/-- Settles O2: a word with the fixed bits is the header word of the three fields the decoder reads. -/
theorem dataWordDecodesExactlyByItsFixedBits : Obligations.DataWordDecodesExactlyByItsFixedBits := by
  intro w
  rw [ne_eq, ← hdr32Fixed_iff]
  refine ⟨fun h => ⟨_, if_pos h, ?_⟩, fun h => if_neg h⟩
  rw [encode, headerWord_fields h]

/-- Settles O3: the canonical words are the assembled headers, which tell their type and id, so 8 times 32 of them; the
word 1 passes the parity test without the fixed bits. -/
theorem canonicalWordsAreTheBuiltHeaders : Obligations.CanonicalWordsAreTheBuiltHeaders := by
  have hcanonical (w : Word32) : canonicalHeader w = true ↔ hdr32Fixed w = true ∧ parityOdd w = true :=
    Bool.and_eq_true_iff
  refine ⟨fun w => ?_, ⟨builtHeaders, length_builtHeaders, nodup_builtHeaders, mem_builtHeaders⟩, fun w => ?_,
    fun w h => ((hcanonical w).mp h).2, ⟨1#32, rfl, rfl⟩⟩
  · rw [hcanonical, hdr32Fixed_iff, parityOdd, beq_iff_eq]
  · rw [canonicalHeader_iff]
    constructor
    · rintro ⟨ty, id, rfl⟩
      exact ⟨ty, id, rfl, fun ty' id' h => assembleHeader_inj h.symm⟩
    · rintro ⟨ty, id, rfl, -⟩
      exact ⟨ty, id, rfl⟩

/-- Settles O18: `dec` writes a decimal numeral; it holds a digit, so no test before `parse_int` takes it. -/
theorem decimalNumeralsReadBack : Obligations.DecimalNumeralsReadBack := by
  intro v
  have hread := parseInt_dec v
  obtain ⟨hm, hi⟩ := not_mem_default_words (exists_isDec_of_parseInt hread)
  exact ⟨hread, hm, hi, classify_of_parseInt hread⟩

/-- Settles O32: a header line, whatever its integer, goes to the head of its chunk, and phase 4 drops it there. -/
theorem headerWordsAreNotReadByTheParser : Obligations.HeaderWordsAreNotReadByTheParser := by
  intro n packets s hn hlen hcfg
  obtain ⟨hpkts, hdiags⟩ := parse_streamLines hlen s.work
  refine ⟨_, exec_pktParse_completes _ s (by omega), ?_⟩
  rw [hcfg, finish_outcome, hpkts, hdiags]

/-- Settles O55: the two tests for a hexadecimal beginning decide which part of R50 reads the token. -/
theorem integerTokensReadAsTheirNumber : Obligations.IntegerTokensReadAsTheirNumber := parseInt_eq_some_iff

/-- Settles O56: folding to a default word is being a case variant of it, and what `parse_int` reads folds to none. -/
theorem classifierSortsEveryToken : Obligations.ClassifierSortsEveryToken := by
  intro t
  have hmark : fold t ∈ Config.default.markers ↔ caseVariant t [0x54#8, 0x4C#8, 0x41#8, 0x53#8, 0x54#8] := by
    rw [← fold_eq_iff_caseVariant (by decide)]
    exact List.mem_singleton
  have hign : fold t ∈ Config.default.ignorable ↔
      caseVariant t [0x48#8, 0x45#8, 0x41#8, 0x44#8, 0x45#8, 0x52#8] ∨ caseVariant t [0x49#8, 0x44#8] ∨
      caseVariant t [0x48#8, 0x45#8, 0x41#8, 0x44#8, 0x45#8, 0x52#8, 0x2F#8, 0x49#8, 0x44#8] := by
    rw [← fold_eq_iff_caseVariant (by decide), ← fold_eq_iff_caseVariant (by decide),
      ← fold_eq_iff_caseVariant (by decide)]
    simp [Config.default]
  dsimp only
  rw [← hmark, ← hign]
  exact classify_default_iff t

/-- Settles O4: the decoder rejects the command, and the step takes the rejection as a refusal. -/
theorem unusedSelectorIsRefused : Obligations.UnusedSelectorIsRefused := by
  refine fun c s rest hcls hhost => ⟨fun hunused => ?_, decode_cmd_of_used⟩
  simp only [step, fetch_of_issue hcls hhost, decode_cmd_of_unused hunused]
  rfl

/-- Settles O5, word by word, by running the decoder. -/
theorem writtenOutWordsDecode : Obligations.WrittenOutWordsDecode :=
  ⟨rfl, rfl, rfl, rfl, rfl, rfl, rfl, rfl, rfl⟩

/-- Settles O11: a returned header is assembled under either policy, so it has the fixed bits, which set the sentinels. -/
theorem builtHeadersCarryTheSentinels : Obligations.BuiltHeadersCarryTheSentinels := by
  intro ty id s t h ds hexec ho
  rw [eq_assembleHeader_of_exec_hdrBuild hexec ho]
  exact sentinels_of_hdr32Fixed (fields_of_headerWord _ _ _).1

/-- Settles O12: the word is the sum of its fields; where it is canonical its parity bit is the one `HDR_BUILD` computes. -/
theorem headerDataWordHasItsOwnValue : Obligations.HeaderDataWordHasItsOwnValue := by
  refine fun p ty id s => ⟨headerWord p ty id, rfl, toNat_headerWord p ty id, fun hwf htrunc => ?_⟩
  have hodd : parityOdd (headerWord p ty id) = true := (Bool.and_eq_true_iff.mp hwf).2
  rw [exec_hdrBuild_truncate htrunc, maskType_toNat, maskId_toNat, assembleHeader,
    ← (parityOdd_headerWord_iff p ty id).mp hodd]
  rfl

end Sys2Proof.Machine

/-! PROOF SUPPORT. The header codec of spec/40_header_codec.md: the number of ones of a word under a bit flip and field by
field, the masked operands, and what each of the three operations returns. -/

namespace Sys2Proof.Machine

/-! ### The end of an operation that wrote no working element -/

/-- `Ok` with a result and nothing written leaves the working elements at an operation's start (R8, R24). -/
theorem finish_atStart (s : State) (r : Result) :
    s.finish s.work.atStart r = { s with work := s.work.atStart, outcome := some (.ok r []) } := rfl

/-! ### The number of ones under a bit flip -/

/-- Members on which both predicates hold are counted twice on the right and not at all by the exclusive or. -/
theorem countP_xor_add {α : Type} (l : List α) (p q : α → Bool) :
    l.countP (fun i => p i ^^ q i) + 2 * l.countP (fun i => p i && q i) = l.countP p + l.countP q := by
  induction l with
  | nil => rfl
  | cons i rest ih =>
    simp only [List.countP_cons]
    cases p i <;> cases q i <;> simp <;> omega

theorem popcount_xor_add {w : Nat} (x y : BitVec w) :
    popcount (x ^^^ y) + 2 * popcount (x &&& y) = popcount x + popcount y := by
  simpa [popcount] using countP_xor_add (List.range w) x.getLsbD y.getLsbD

theorem popcount_one_shiftLeft {w i : Nat} (hi : i < w) : popcount (1#w <<< i) = 1 := by
  have hbit : ∀ j ∈ List.range w, ((1#w <<< i).getLsbD j = true ↔ (j == i) = true) := by
    intro j _
    simp [← BitVec.twoPow_eq, BitVec.getLsbD_twoPow]
    omega
  rw [popcount, List.countP_congr hbit]
  exact List.count_eq_one_of_mem List.nodup_range (List.mem_range.mpr hi)

/-- One flipped bit changes the parity of a word (R68). -/
theorem parityOdd_flip {w i : Nat} (x : BitVec w) (hi : i < w) : parityOdd (x ^^^ 1#w <<< i) = !parityOdd x := by
  have hxor := popcount_xor_add x (1#w <<< i)
  rw [popcount_one_shiftLeft hi] at hxor
  rw [Bool.eq_iff_iff, Bool.not_eq_true', parityOdd, parityOdd, beq_iff_eq, beq_eq_false_iff_ne]
  omega

/-- The parity bit makes the number of ones odd (R48, R67). -/
theorem parityOdd_assembleHeader (ty : BitVec 3) (id : BitVec 5) : parityOdd (assembleHeader ty id) = true :=
  (parityOdd_headerWord_iff _ ty id).mpr rfl

/-! ### The number of ones field by field -/

/-- The ones of a field are those of the word in its places. -/
theorem popcount_extractLsb' {w : Nat} (x : BitVec w) (start len : Nat) :
    popcount (x.extractLsb' start len) = (List.range len).countP fun i => x.getLsbD (start + i) := by
  refine List.countP_congr fun i hi => ?_
  simp [List.mem_range.mp hi]

/-- The ones of a word are those of its six fields and of the unnamed bits [11:5] and 15 (R40, R41). -/
theorem popcount_eq_fields (w : Word32) :
    popcount w = popcount (fieldPacketId w) + popcount (w.extractLsb' 5 7) + popcount (fieldPacketType w) +
      popcount (w.extractLsb' 15 1) + popcount (fieldSourceRow w) + popcount (fieldSourceCol w) +
      popcount (fieldReserved w) + popcount (fieldParity w) := by
  have hplaces : popcount w = (List.range (5 + 7 + 3 + 1 + 5 + 7 + 3 + 1)).countP fun i => w.getLsbD i := rfl
  rw [hplaces]
  simp only [fieldPacketId, fieldPacketType, fieldSourceRow, fieldSourceCol, fieldReserved, fieldParity,
    popcount_extractLsb', List.range_add, List.countP_append, List.countP_map, Function.comp_def, Nat.zero_add]

/-- The unnamed bits of a header word hold no ones, its two sentinels twelve (R40, R41). -/
theorem popcount_headerWord (p : BitVec 1) (ty : BitVec 3) (id : BitVec 5) :
    popcount (headerWord p ty id) = popcount id + popcount ty + 12 + popcount p := by
  obtain ⟨hfixed, hp, hty, hid⟩ := fields_of_headerWord p ty id
  obtain ⟨hrow, hcol, hreserved, hbit15, hlow⟩ := sentinels_of_hdr32Fixed hfixed
  have hbits : popcount ((headerWord p ty id).extractLsb' 5 7) = 0 := by
    rw [popcount_extractLsb', List.countP_eq_zero]
    intro i hi
    have hlt : i < 7 := List.mem_range.mp hi
    simp [hlow (5 + i) (by omega) (by omega)]
  have hbit : popcount ((headerWord p ty id).extractLsb' 15 1) = 0 := by
    rw [popcount_extractLsb', List.range_one, List.countP_singleton, hbit15]
    rfl
  have hones : popcount 0x1F#5 = 5 ∧ popcount 0x7F#7 = 7 ∧ popcount 0#3 = 0 := by decide
  rw [popcount_eq_fields, hp, hty, hid, hrow, hcol, hreserved, hbits, hbit, hones.1, hones.2.1, hones.2.2]
  omega

/-- The low 31 bits of a header word are those of the word with its parity bit clear (R48). -/
theorem headerWord_and_low (p : BitVec 1) (ty : BitVec 3) (id : BitVec 5) :
    headerWord p ty id &&& 0x7FFFFFFF#32 = headerWord 0#1 ty id := by
  have hty := ty.isLt
  have hid := id.isLt
  apply BitVec.eq_of_toNat_eq
  rw [BitVec.toNat_and, show (0x7FFFFFFF#32).toNat = 2 ^ 31 - 1 from rfl, Nat.and_two_pow_sub_one_eq_mod,
    toNat_headerWord, toNat_headerWord, BitVec.toNat_zero]
  omega

/-- Over the low 31 bits only, a built header has the ones of its type, of its id and of the sentinels (R67). -/
theorem popcount_low_assembleHeader (ty : BitVec 3) (id : BitVec 5) :
    popcount (assembleHeader ty id &&& 0x7FFFFFFF#32) = popcount id + popcount ty + 12 := by
  rw [assembleHeader, headerWord_and_low, popcount_headerWord]
  rfl

/-! ### The masked operands -/

theorem toNat_maskType (ty : Int) : (maskType ty).toNat = (ty % 8).toNat := by simp [maskType]

theorem toNat_maskId (id : Int) : (maskId id).toNat = (id % 32).toNat := by simp [maskId]

theorem maskType_natCast (ty : Nat) : maskType ty = BitVec.ofNat 3 ty := by simp [maskType]

theorem maskId_natCast (id : Nat) : maskId id = BitVec.ofNat 5 id := by simp [maskId]

/-- Masking reads an operand modulo the number of its field's values (R66). -/
theorem maskType_emod (ty : Int) : maskType (ty % 8) = maskType ty := by
  apply BitVec.eq_of_toNat_eq
  rw [toNat_maskType, toNat_maskType, Int.emod_emod]

theorem maskId_emod (id : Int) : maskId (id % 32) = maskId id := by
  apply BitVec.eq_of_toNat_eq
  rw [toNat_maskId, toNat_maskId, Int.emod_emod]

/-- Masking loses nothing of a type in its range (R66, R67). -/
theorem maskType_inj {ty ty' : Int} (h0 : 0 ≤ ty) (h7 : ty ≤ 7) (h0' : 0 ≤ ty') (h7' : ty' ≤ 7)
    (h : maskType ty = maskType ty') : ty = ty' := by
  have hmod : (ty % 8).toNat = (ty' % 8).toNat := by rw [← toNat_maskType, ← toNat_maskType, h]
  omega

/-- Masking loses nothing of an id in its range (R66, R67). -/
theorem maskId_inj {id id' : Int} (h0 : 0 ≤ id) (h31 : id ≤ 31) (h0' : 0 ≤ id') (h31' : id' ≤ 31)
    (h : maskId id = maskId id') : id = id' := by
  have hmod : (id % 32).toNat = (id' % 32).toNat := by rw [← toNat_maskId, ← toNat_maskId, h]
  omega

/-! ### The header word as R65 writes it -/

/-- The body as a number: the fields shifted to their places and joined by or (R65). -/
theorem toNat_headerBody (ty : BitVec 3) (id : BitVec 5) :
    (headerBody ty id).toNat = id.toNat ||| ty.toNat <<< 12 ||| 0x1F <<< 16 ||| 0x7F <<< 21 := by
  have hty := ty.isLt
  have hid := id.isLt
  have hshift : ty.toNat <<< 12 < 2 ^ 32 := by rw [Nat.shiftLeft_eq]; omega
  have htyWord : ty.toNat < 2 ^ 32 := by omega
  have hidWord : id.toNat < 2 ^ 32 := by omega
  simp only [headerBody, BitVec.toNat_or, BitVec.toNat_shiftLeft, BitVec.toNat_setWidth, Nat.mod_eq_of_lt htyWord,
    Nat.mod_eq_of_lt hidWord, Nat.mod_eq_of_lt hshift]
  rfl

/-- The assembled header as a number: the body with bit 31 set if the body has an even number of ones (R65). -/
theorem toNat_assembleHeader (ty : BitVec 3) (id : BitVec 5) :
    (assembleHeader ty id).toNat =
      (headerBody ty id).toNat ||| (if popcount (headerBody ty id) % 2 = 0 then 1 else 0) <<< 31 := by
  rw [assembleHeader, headerWord, BitVec.toNat_or, parityBit]
  split <;> rfl

/-! ### `HDR_BUILD` -/

theorem inHeaderRange_iff (ty id : Int) : inHeaderRange ty id = true ↔ 0 ≤ ty ∧ ty ≤ 7 ∧ 0 ≤ id ∧ id ≤ 31 := by
  simp [inHeaderRange, and_assoc]

/-- In range the header is built under either policy (R66). -/
theorem buildHeader_of_inRange {ty id : Int} (h : inHeaderRange ty id = true) (cfg : Config) :
    buildHeader cfg ty id = .ok (assembleHeader (maskType ty) (maskId id)) := by
  rw [buildHeader]
  split
  · rfl
  · exact if_pos h

/-- Out of range `range_error` refuses (R66). -/
theorem buildHeader_of_outOfRange {cfg : Config} {ty id : Int} (hcfg : cfg.rangePolicy = .rangeError)
    (h : ¬inHeaderRange ty id = true) : buildHeader cfg ty id = .error .rangeError := by
  simp [buildHeader, hcfg, h]

theorem exec_hdrBuild_of_ok {s : State} {ty id : Int} {h : Word32} (hb : buildHeader s.cfg ty id = .ok h) :
    exec (.hdrBuild ty id) s =
      .next { s with work := s.work.atStart, outcome := some (.ok (.word h) []) } := by
  simp [exec, execHdrBuild, hb, Except.map, finish_atStart]

theorem exec_hdrBuild_of_error {s : State} {ty id : Int} {e : Reason} (hb : buildHeader s.cfg ty id = .error e) :
    exec (.hdrBuild ty id) s = .next { s with work := s.work.atStart, outcome := some (.refused e) } := by
  simp [exec, execHdrBuild, hb, Except.map, State.refuse]

/-- Under `truncate` the header returned for written-out operands is the one assembled from their masks (R65). -/
theorem exec_hdrBuild_eq_of_truncate {s : State} (hcfg : s.cfg.rangePolicy = .truncate) {ty id : Int} {h : Word32}
    (hh : assembleHeader (maskType ty) (maskId id) = h) :
    exec (.hdrBuild ty id) s =
      .next { s with work := s.work.atStart, outcome := some (.ok (.word h) []) } :=
  exec_hdrBuild_of_ok (hh ▸ buildHeader_truncate hcfg ty id)

/-! ### `HDR_CHECK` and `HDR_FIELDS` -/

/-- The operand's word decides what `HDR_CHECK` returns (R68). -/
theorem exec_hdrCheck_of_word {h : Int} {w : Word32} (hw : word32Of h = some w) (s : State) :
    exec (.hdrCheck h) s =
      .next { s with work := s.work.atStart, outcome := some (.ok (.bit (parityOdd w)) []) } := by
  simp [exec, execHdrCheck, checkHeader, hw, Except.map, finish_atStart]

theorem exec_hdrCheck_of_notWord {h : Int} (hw : word32Of h = none) (s : State) :
    exec (.hdrCheck h) s = .next { s with work := s.work.atStart, outcome := some (.refused .notWord32) } := by
  simp [exec, execHdrCheck, checkHeader, hw, Except.map, State.refuse]

/-- The operand's word decides what `HDR_FIELDS` returns (R69). -/
theorem exec_hdrFields_of_word {h : Int} {w : Word32} (hw : word32Of h = some w) (s : State) :
    exec (.hdrFields h) s =
      .next { s with work := s.work.atStart, outcome := some (.ok (.fields (fieldsOf w)) []) } := by
  simp [exec, execHdrFields, headerFields, hw, Except.map, finish_atStart]

theorem exec_hdrFields_of_notWord {h : Int} (hw : word32Of h = none) (s : State) :
    exec (.hdrFields h) s = .next { s with work := s.work.atStart, outcome := some (.refused .notWord32) } := by
  simp [exec, execHdrFields, headerFields, hw, Except.map, State.refuse]

/-- The word of a number below `2^32` is that number (R5). -/
theorem word32Of_natCast {h : Nat} (hlt : h < 4294967296) : word32Of h = some (BitVec.ofNat 32 h) := by
  rw [word32Of_eq_some (Int.natCast_nonneg h) (by omega), BitVec.ofInt_natCast]

/-- Each field is a quotient and remainder of the word's number (R40, R69). -/
theorem toNat_fieldsOf (w : Word32) :
    (fieldsOf w).parityBit.toNat = w.toNat / 2 ^ 31 ∧ (fieldsOf w).reserved.toNat = w.toNat / 2 ^ 28 % 8 ∧
      (fieldsOf w).sourceCol.toNat = w.toNat / 2 ^ 21 % 128 ∧ (fieldsOf w).sourceRow.toNat = w.toNat / 2 ^ 16 % 32 ∧
      (fieldsOf w).packetType.toNat = w.toNat / 2 ^ 12 % 8 ∧ (fieldsOf w).packetId.toNat = w.toNat % 32 := by
  have hfield (start len : Nat) : (w.extractLsb' start len).toNat = w.toNat / 2 ^ start % 2 ^ len := by
    rw [BitVec.extractLsb'_toNat, Nat.shiftRight_eq_div_pow]
  have hlt := w.isLt
  refine ⟨(hfield 31 1).trans ?_, hfield 28 3, hfield 21 7, hfield 16 5, hfield 12 3, (hfield 0 5).trans ?_⟩ <;> omega

/-- The fields of a header word: its three free ones, the sentinels and the reserved bits (R40, R69). -/
theorem fieldsOf_headerWord (p : BitVec 1) (ty : BitVec 3) (id : BitVec 5) :
    fieldsOf (headerWord p ty id) = ⟨p, 0#3, 0x7F#7, 0x1F#5, ty, id⟩ := by
  obtain ⟨hfixed, hp, hty, hid⟩ := fields_of_headerWord p ty id
  obtain ⟨hrow, hcol, hreserved, -⟩ := sentinels_of_hdr32Fixed hfixed
  rw [fieldsOf, hp, hty, hid, hrow, hcol, hreserved]

/-- The fields of an assembled header are those it was assembled from (R69). -/
theorem fieldsOf_assembleHeader (ty : BitVec 3) (id : BitVec 5) :
    ∃ p, fieldsOf (assembleHeader ty id) = ⟨p, 0#3, 0x7F#7, 0x1F#5, ty, id⟩ :=
  ⟨_, fieldsOf_headerWord _ ty id⟩

end Sys2Proof.Machine

/-! PROOFS. The statements about the header codec (spec/40_header_codec.md). -/

namespace Sys2Proof.Machine

/-- Settles O8: a returned header is an assembled one, so canonical, and tells its masked operands, which masking in range
did not change; its low 31 bits have the ones of the type, of the id and twelve more, which leaves the pairs to count. -/
theorem everyBuiltHeaderHasOddParity : Obligations.EveryBuiltHeaderHasOddParity := by
  refine ⟨fun ty id s t h ds hexec ho => ?_, ?_, fun s hcfg => ⟨exec_hdrBuild_eq_of_truncate hcfg rfl, rfl, rfl⟩, ?_⟩
  · have hh := eq_assembleHeader_of_exec_hdrBuild hexec ho
    exact ⟨beq_iff_eq.mp (hh ▸ parityOdd_assembleHeader _ _), (canonicalHeader_iff h).mpr ⟨_, _, hh⟩⟩
  · intro ty id ty' id' s t t' h hty0 hty7 hid0 hid31 hty0' hty7' hid0' hid31' hexec hexec' ho ho'
    have hh := eq_assembleHeader_of_exec_hdrBuild hexec ho
    have hh' := eq_assembleHeader_of_exec_hdrBuild hexec' ho'
    obtain ⟨hty, hid⟩ := assembleHeader_inj (hh.symm.trans hh')
    exact ⟨maskType_inj hty0 hty7 hty0' hty7' hty, maskId_inj hid0 hid31 hid0' hid31' hid⟩
  · simp only [popcount_low_assembleHeader]
    rfl

/-- Settles O9: the check is the parity of the operand's word; a built header has odd parity, and each flip changes it. -/
theorem hdrCheckTestsTheParityOfTheWord : Obligations.HdrCheckTestsTheParityOfTheWord := by
  refine ⟨fun _ => rfl, fun h s h0 hlt => exec_hdrCheck_of_word (word32Of_eq_some h0 hlt) s,
    fun h s hout => exec_hdrCheck_of_notWord (word32Of_eq_none hout) s, fun ty id i hi => ?_,
    fun ty id i j hij hj => ?_, fun s => ⟨rfl, rfl, rfl, rfl, rfl⟩⟩
  · rw [parityOdd_flip _ hi, parityOdd_assembleHeader, Bool.not_true]
  · rw [parityOdd_flip _ hj, parityOdd_flip _ (hij.trans hj), Bool.not_not, parityOdd_assembleHeader]

/-- Settles O10: the fields are cut out of the operand's word, and of a built header they are those it was assembled from. -/
theorem hdrFieldsReadsTheLayoutBack : Obligations.HdrFieldsReadsTheLayoutBack := by
  refine ⟨fun _ => rfl, fun h s hlt => ?_,
    fun h s hout => exec_hdrFields_of_notWord (word32Of_eq_none hout) s, ?_, fun s => rfl⟩
  · have hfields := toNat_fieldsOf (BitVec.ofNat 32 h)
    rw [BitVec.toNat_ofNat, Nat.mod_eq_of_lt hlt] at hfields
    exact ⟨_, exec_hdrFields_of_word (word32Of_natCast hlt) s, hfields⟩
  · intro ty id s t h _ _ hexec ho
    have hh := eq_assembleHeader_of_exec_hdrBuild hexec ho
    obtain ⟨p, hfields⟩ := fieldsOf_assembleHeader (BitVec.ofNat 3 ty) (BitVec.ofNat 5 id)
    rw [maskType_natCast, maskId_natCast] at hh
    rw [← hh] at hfields
    exact ⟨p, hfields ▸ exec_hdrFields_of_word (word32Of_toNat h) t⟩

/-- Settles O6: under `truncate` the header assembled from the masked operands is returned, and its number is R65's. -/
theorem hdrBuildAssemblesTheHeader : Obligations.HdrBuildAssemblesTheHeader := by
  refine ⟨fun _ => rfl, fun ty id s hcfg => ⟨_, exec_hdrBuild_eq_of_truncate hcfg rfl, ?_⟩, fun s hcfg =>
    ⟨exec_hdrBuild_eq_of_truncate hcfg rfl, exec_hdrBuild_eq_of_truncate hcfg rfl,
      exec_hdrBuild_eq_of_truncate hcfg rfl⟩⟩
  have hbody := toNat_headerBody (maskType ty) (maskId id)
  rw [toNat_maskType, toNat_maskId] at hbody
  dsimp only
  rw [← hbody, BitVec.ofNat_toNat, BitVec.setWidth_eq]
  exact toNat_assembleHeader _ _

/-- Settles O7: `truncate` sees the masks of the operands only; `range_error` refuses exactly out of range, and in range
the policy is not looked at. -/
theorem hdrBuildOutOfRangeOperands : Obligations.HdrBuildOutOfRangeOperands := by
  refine ⟨fun ty id s hcfg => ⟨?_, ?_, fun t ht => ?_⟩, fun ty id s hcfg hout => ?_,
    fun ty id s hcfg hid0 hid31 hty0 hty7 => ?_, fun s hcfg =>
    ⟨exec_hdrBuild_eq_of_truncate hcfg rfl, exec_hdrBuild_eq_of_truncate hcfg rfl⟩⟩
  · rw [exec_hdrBuild_truncate hcfg, exec_hdrBuild_truncate hcfg, maskType_emod, maskId_emod]
  · rw [exec_hdrBuild_truncate hcfg, exec_hdrBuild_truncate hcfg]
    rfl
  · rw [exec_hdrBuild_truncate hcfg] at ht
    obtain rfl := Host.Outcome.next.inj ht
    exact ⟨_, rfl⟩
  · refine exec_hdrBuild_of_error (buildHeader_of_outOfRange hcfg ?_)
    rw [inHeaderRange_iff]
    omega
  · have hrange : inHeaderRange ty id = true := (inHeaderRange_iff ty id).mpr ⟨hty0, hty7, hid0, hid31⟩
    exact ⟨_, exec_hdrBuild_of_ok (buildHeader_of_inRange hrange s.cfg),
      fun t _ => exec_hdrBuild_of_ok (buildHeader_of_inRange hrange t.cfg)⟩

end Sys2Proof.Machine

/-! PROOF SUPPORT. The packet framer of spec/41_packet_framer.md: where the loop over the payloads stops, what each of the
three operations returns, and what the parser makes of a framed stream. -/

namespace Sys2Proof.Machine

/-! ### The end of an operation that is refused -/

/-- A refusal inside an operation ends it with the working elements at an operation's start (R125, R132). -/
theorem conclude_map_of_error {α : Type} {s : State} {x : Except Reason α} {f : α → Work × Result} {e : Reason}
    (h : x = .error e) :
    conclude s (x.map f) = .next { s with work := s.work.atStart, outcome := some (.refused e) } := by
  rw [h]
  rfl

/-! ### `PKT_FRAME` -/

theorem exec_pktFrame_of_ok {s : State} {values : Payload} {h : Int} {t : Text}
    (hf : framePacket s.cfg values h = .ok t) :
    exec (.pktFrame values h) s =
      .next { s with work := s.work.atStart, outcome := some (.ok (.text t) []) } := by
  simp only [exec, execPktFrame, hf]
  rfl

/-- A payload with a last value and a header word are framed (R75). -/
theorem framePacket_of_word {h : Int} {w : Word32} (hw : word32Of h = some w) (cfg : Config) (front : Payload)
    (last : Int) : framePacket cfg (front ++ [last]) h = .ok (linesText cfg (packetLines h front last)) := by
  rw [framePacket_append, hw]

theorem framePacket_of_notWord {h : Int} (hw : word32Of h = none) (cfg : Config) (front : Payload) (last : Int) :
    framePacket cfg (front ++ [last]) h = .error .notWord32 := by
  rw [framePacket_append, hw]

/-- Lines end with the line end (R27). -/
theorem getLast?_linesText {cfg : Config} {lines : List Text} (h : lines ≠ []) :
    (linesText cfg lines).getLast? = some cfg.lineEnd := by
  refine (wholeLines_linesText cfg lines).resolve_left ?_
  obtain ⟨line, rest, rfl⟩ := List.exists_cons_of_ne_nil h
  simp [linesText_cons]

/-! ### The loop over the payloads -/

/-- The first `count` headers of a stream are built: no id and no type among them is refused (R66, R78). -/
def headersBuilt (cfg : Config) (ty b : Int) (count : Nat) : Prop :=
  ∀ k : Nat, k < count → buildHeader cfg ty (b + k) = .ok (assembleHeader (maskType ty) (maskId (b + k)))

theorem headersBuilt_of_truncate {cfg : Config} (h : cfg.rangePolicy = .truncate) (ty b : Int) (count : Nat) :
    headersBuilt cfg ty b count :=
  fun _ _ => buildHeader_truncate h ty _

theorem headersBuilt_of_inRange {ty b : Int} {count : Nat}
    (h : ∀ k : Nat, k < count → inHeaderRange ty (b + k) = true) (cfg : Config) : headersBuilt cfg ty b count :=
  fun k hk => buildHeader_of_inRange (h k hk) cfg

/-- The loop frames a first part of the payloads and goes on with the rest (R79). -/
theorem frameStream_append (cfg : Config) (ty b : Int) (before after : List Payload) (w : Work) :
    frameStream cfg ty b (before ++ after) w = (frameStream cfg ty b before w).bind (frameStream cfg ty b after) := by
  induction before generalizing w with
  | nil => rfl
  | cons v rest ih =>
    simp only [List.cons_append, frameStream]
    split
    · rfl
    · cases buildHeader cfg ty (b + w.pi) with
      | error e => rfl
      | ok h =>
        cases hf : framePacket cfg v h.toNat with
        | error e => simp only [hf]; rfl
        | ok t => simp only [hf]; exact ih _

/-- From an operation's start the loop frames every payload whose header is built (R78, R79). -/
theorem frameStream_of_headersBuilt {cfg : Config} {ty b : Int} {payloads : List (Payload × Int)}
    (hb : headersBuilt cfg ty b payloads.length) (w : Work) :
    frameStream cfg ty b (payloads.map fun p => p.1 ++ [p.2]) w.atStart =
      .ok { w.atStart with out := linesText cfg (streamLines (withHeaders ty b 0 payloads)), pi := payloads.length } := by
  rw [frameStream_eq payloads w.atStart fun k hk => by simpa using hb k hk]
  simp

/-- Payloads none of which is empty, each taken as its values before the last and its last value (R44). -/
theorem exists_pairs_of_nonempty {payloads : List Payload} (h : [] ∉ payloads) :
    ∃ pairs : List (Payload × Int), payloads = pairs.map fun p => p.1 ++ [p.2] := by
  refine exists_map_eq_of_forall_mem fun v hv => ?_
  rcases List.eq_nil_or_concat v with rfl | ⟨front, last, rfl⟩
  · exact absurd hv h
  · exact ⟨(front, last), List.concat_eq_append⟩

/-- The loop gets past good packets, with as many of them in `PI` (R79). -/
theorem frameStream_after_good {cfg : Config} {ty b : Int} {before : List Payload} (hne : [] ∉ before)
    (hb : headersBuilt cfg ty b before.length) (after : List Payload) (w : Work) :
    ∃ w', w'.pi = before.length ∧
      frameStream cfg ty b (before ++ after) w.atStart = frameStream cfg ty b after w' := by
  obtain ⟨pairs, rfl⟩ := exists_pairs_of_nonempty hne
  rw [List.length_map] at hb ⊢
  rw [frameStream_append, frameStream_of_headersBuilt hb]
  exact ⟨_, rfl, rfl⟩

/-- An empty payload is refused before its header is looked at (R79). -/
theorem frameStream_cons_nil (cfg : Config) (ty b : Int) (rest : List Payload) (w : Work) :
    frameStream cfg ty b ([] :: rest) w = .error .emptyPayload := rfl

/-- The refusal of `HDR_BUILD` is that of the loop (R79, R137). -/
theorem frameStream_cons_of_header_error {cfg : Config} {ty b : Int} {v : Payload} {w : Work} {e : Reason} (hv : v ≠ [])
    (hb : buildHeader cfg ty (b + w.pi) = .error e) (rest : List Payload) :
    frameStream cfg ty b (v :: rest) w = .error e := by
  rw [frameStream, if_neg hv, hb]

/-! ### `STR_FRAME_INDEP` -/

/-- Where every header is built `STR_FRAME_INDEP` completes with the stream's text (R78, R79, R84). -/
theorem exec_strFrameIndep_of_headersBuilt {s : State} {ty b : Int} {payloads : List (Payload × Int)}
    (hb : headersBuilt s.cfg ty b payloads.length) :
    exec (.strFrameIndep ty b (payloads.map fun p => p.1 ++ [p.2])) s =
      .next { s with
        work := s.work.atStart
        outcome := some (.ok (.text (linesText s.cfg (streamLines (withHeaders ty b 0 payloads)))) []) } := by
  simp only [exec, execStrFrameIndep, frameStream_of_headersBuilt hb]
  rfl

/-- After good packets an empty payload ends `STR_FRAME_INDEP` (R79). -/
theorem exec_strFrameIndep_of_empty {s : State} {ty b : Int} {before : List Payload} (hne : [] ∉ before)
    (hb : headersBuilt s.cfg ty b before.length) (after : List Payload) :
    exec (.strFrameIndep ty b (before ++ [] :: after)) s =
      .next { s with work := s.work.atStart, outcome := some (.refused .emptyPayload) } := by
  obtain ⟨w, -, hloop⟩ := frameStream_after_good hne hb ([] :: after) s.work
  exact conclude_map_of_error (hloop.trans (frameStream_cons_nil _ _ _ _ _))

/-- After good packets a header that is not built ends `STR_FRAME_INDEP` (R79, R137). -/
theorem exec_strFrameIndep_of_header_error {s : State} {ty b : Int} {before : List Payload} {v : Payload} {e : Reason}
    (hne : [] ∉ before) (hb : headersBuilt s.cfg ty b before.length) (hv : v ≠ [])
    (he : buildHeader s.cfg ty (b + before.length) = .error e) (after : List Payload) :
    exec (.strFrameIndep ty b (before ++ v :: after)) s =
      .next { s with work := s.work.atStart, outcome := some (.refused e) } := by
  obtain ⟨w, hpi, hloop⟩ := frameStream_after_good hne hb (v :: after) s.work
  rw [← hpi] at he
  exact conclude_map_of_error (hloop.trans (frameStream_cons_of_header_error hv he after))

/-! ### `STR_FRAME_SPLIT` -/

/-- Lists of one size laid end to end leave no remainder of that size. -/
theorem dvd_length_flatten {α : Type} {size : Nat} {ls : List (List α)} (h : ∀ l ∈ ls, l.length = size) :
    size ∣ ls.flatten.length := by
  rw [List.length_flatten]
  exact List.dvd_sum (List.forall_mem_map.mpr fun l hl => (h l hl).symm.dvd)

/-- Payloads of length `N` laid end to end are cut into those payloads again (R80, R82). -/
theorem frameSplit_flatten {n : Int} (hn : 1 ≤ n) {payloads : List Payload} (h : ∀ v ∈ payloads, (v.length : Int) = n)
    (cfg : Config) (ty b : Int) (w : Work) :
    frameSplit cfg ty b payloads.flatten n w = frameStream cfg ty b payloads w := by
  have hlen : ∀ v ∈ payloads, v.length = n.toNat := fun v hv => by have := h v hv; omega
  have hwhole : payloads.flatten.length % n.toNat = 0 := Nat.mod_eq_zero_of_dvd (dvd_length_flatten hlen)
  rw [frameSplit, if_neg (by omega), if_neg (not_not.mpr hwhole),
    slices_flatten (by omega) payloads hlen]

/-- `STR_FRAME_SPLIT` on payloads laid end to end is `STR_FRAME_INDEP` on the payloads (R82). -/
theorem exec_strFrameSplit_flatten {n : Int} (hn : 1 ≤ n) {payloads : List Payload}
    (h : ∀ v ∈ payloads, (v.length : Int) = n) (ty b : Int) (s : State) :
    exec (.strFrameSplit ty b payloads.flatten n) s = exec (.strFrameIndep ty b payloads) s := by
  simp only [exec, execStrFrameSplit, execStrFrameIndep, frameSplit_flatten hn h]

/-! ### The stream read back -/

theorem map_snd_withHeaders (ty b : Int) (k : Nat) (payloads : List (Payload × Int)) :
    (withHeaders ty b k payloads).map Prod.snd = payloads := by
  induction payloads generalizing k with
  | nil => rfl
  | cons v rest ih => exact congrArg (v :: ·) (ih (k + 1))

/-- The headers of a stream do not touch its payloads (R78). -/
theorem payloadsOf_withHeaders (ty b : Int) (payloads : List (Payload × Int)) :
    payloadsOf (withHeaders ty b 0 payloads) = payloads.map fun p => p.1 ++ [p.2] := by
  conv_rhs => rw [← map_snd_withHeaders ty b 0 payloads, List.map_map]
  rfl

theorem length_of_mem_withHeaders {n : Nat} {payloads : List (Payload × Int)}
    (h : ∀ v ∈ payloads, (v.1 ++ [v.2]).length = n) (ty b : Int) :
    ∀ p ∈ withHeaders ty b 0 payloads, (p.2.1 ++ [p.2.2]).length = n := fun p hp =>
  h p.2 (map_snd_withHeaders ty b 0 payloads ▸ List.mem_map_of_mem hp)

/-- A stream with a packet has a marker, so it is parsed in `Marker` mode (R83, R95). -/
theorem parse_streamLines_mode {packets : List (Int × Payload × Int)} (hne : packets ≠ []) (w : Work) (n : Int) :
    (w.parse Config.default (linesText Config.default (streamLines packets)) n).mode = .marker := by
  rw [parse_eq, tokenize_streamLines, deliverAll_streamLines rfl rfl, eos_extract_mode, if_pos]
  simpa using hne

/-- `TLAST` is no numeral: it holds no digit (R50). -/
theorem dec_ne_tlast (v : Int) : dec v ≠ tlast := by
  intro h
  obtain ⟨d, hd, hdigit⟩ := exists_isDec_of_parseInt (parseInt_dec v)
  rw [h] at hd
  exact absurd hdigit ((by decide : ∀ c ∈ tlast, ¬isDec c = true) d hd)

/-- Without its marker lines a stream is its words, header or not, as decimal numerals (R83). -/
theorem filter_streamLines (packets : List (Int × Payload × Int)) :
    ((streamLines packets).filter fun l => decide (l ≠ tlast)) = (chunksOf packets).flatten.map dec := by
  have hkeep (vs : List Int) : (vs.map dec).filter (fun l => decide (l ≠ tlast)) = vs.map dec :=
    List.filter_eq_self.mpr fun l hl => by
      obtain ⟨v, -, rfl⟩ := List.mem_map.mp hl
      exact decide_eq_true (dec_ne_tlast v)
  induction packets with
  | nil => rfl
  | cons p packets ih =>
    have hlines : streamLines (p :: packets) =
        (p.1 :: p.2.1).map dec ++ (tlast :: [p.2.2].map dec) ++ streamLines packets := rfl
    rw [hlines, List.filter_append, ih, List.filter_append, hkeep, List.filter_cons_of_neg (by simp), hkeep]
    simp [chunksOf]

/-- The tokens of a text of decimal numerals are its lines, at the default parameters (R52, R86). -/
theorem tokenize_map_dec (vs : List Int) :
    tokenize Config.default (linesText Config.default (vs.map dec)) = vs.map dec := by
  refine tokenize_linesText (by decide) fun line hline => ?_
  obtain ⟨v, -, rfl⟩ := List.mem_map.mp hline
  exact ⟨dec_ne_nil v, fun _ => not_separator_of_mem_dec⟩

/-- A stream without a marker that ends after whole chunks of `1 + N` words: phase 3 cuts `FLAT` into those chunks, and
phase 4 gives their packets (R94, R97, R98). -/
theorem eos_extract_of_unseen_chunks {w : Work} {chunks : List Chunk} (hseen : w.seen = false)
    (hflat : w.flat = chunks.flatten) (hlen : ∀ c ∈ chunks, c.length = 1 + w.n) :
    w.eos.extract.pkts = w.pkts ++ chunks.map (fun c => c.drop 1) ∧ w.eos.extract.diags = w.diags := by
  have hwhole : chunks.flatten.length % (1 + w.n) = 0 := Nat.mod_eq_zero_of_dvd (dvd_length_flatten hlen)
  have heos : w.eos = { w with mode := .fixedSize, chunks := chunks } := by
    rw [eos_fixed hseen, hflat, slices_flatten (by omega) chunks hlen, if_pos hwhole]
  rw [heos]
  exact extract_of_full_chunks hlen

/-- What a parse of the words of chunks of `1 + N` gives, their marker lines removed: the packets of the chunks, in
`FixedSize` mode and with no diagnostic (R83, R97). -/
theorem parse_flatten_chunks {n : Nat} {chunks : List Chunk} (hlen : ∀ c ∈ chunks, c.length = 1 + n) (w : Work) :
    let parsed := w.parse Config.default (linesText Config.default (chunks.flatten.map dec)) n
    parsed.pkts = chunks.map (fun c => c.drop 1) ∧ parsed.diags = [] ∧ parsed.mode = .fixedSize := by
  dsimp only
  rw [parse_eq, tokenize_map_dec, deliverAll_dec rfl]
  obtain ⟨hpkts, hdiags⟩ := eos_extract_of_unseen_chunks (chunks := chunks)
    (w := { w.parseStart [] n with flat := chunks.flatten, cur := chunks.flatten }) rfl rfl hlen
  exact ⟨hpkts, hdiags, eos_extract_mode _⟩

/-! ### The framed example under `at_marker` -/

/-- The payload of the framed example (R83). -/
def framedExample : List (Payload × Int) := [([10, -20, 30], 40)]

/-- The default parameters, but for the chunk being closed at the marker (R101). -/
def atMarkerConfig : Config := { Config.default with markerClose := .atMarker }

/-- With the chunk closed at the marker the framed example is a chunk without its last value, and that value alone, both
too short for a packet (R83, R99, R101). -/
theorem parse_example_atMarker :
    let text := linesText Config.default (streamLines (withHeaders 0 3 0 framedExample))
    let parsed := Work.reset.parse atMarkerConfig text 4
    parsed.pkts = [] ∧ parsed.diags = [.shortChunk 0 4, .shortChunk 1 1] := by
  decide

end Sys2Proof.Machine

/-! PROOFS. The statements about the packet framer (spec/41_packet_framer.md) and about reading its streams back. -/

namespace Sys2Proof.Machine

/-- Settles O15: the loop gets past the good packets and stops at the first that is not, or at none. -/
theorem strFrameIndepRefusals : Obligations.StrFrameIndepRefusals := by
  refine ⟨fun ty b payloads s hcfg hempty => ?_, fun ty b before after s _ hne hrange => ?_,
    fun ty b before after v s hcfg hne hrange hv hout => ?_, fun ty b payloads s _ hrange => ?_⟩
  · obtain ⟨before, after, rfl, hne⟩ := List.eq_append_cons_of_mem hempty
    exact exec_strFrameIndep_of_empty hne (headersBuilt_of_truncate hcfg ty b _) after
  · exact exec_strFrameIndep_of_empty hne (headersBuilt_of_inRange hrange s.cfg) after
  · have hrefused := buildHeader_of_outOfRange hcfg (Bool.eq_false_iff.mp hout)
    exact exec_strFrameIndep_of_header_error hne (headersBuilt_of_inRange hrange s.cfg) hv hrefused after
  · exact exec_strFrameIndep_of_headersBuilt (headersBuilt_of_inRange hrange s.cfg)

/-- Settles O16: cutting the concatenation into slices of `N` gives the payloads back, and then the two loops are one. -/
theorem strFrameSplitEqualsIndepOnTheSlices : Obligations.StrFrameSplitEqualsIndepOnTheSlices := by
  refine ⟨fun ty b n payloads s hn hlen => exec_strFrameSplit_flatten hn hlen ty b s,
    fun ty b n payloads s hn hlen hcfg => ?_⟩
  rw [exec_strFrameSplit_flatten hn (List.forall_mem_map.mpr hlen)]
  exact exec_strFrameIndep_of_headersBuilt (headersBuilt_of_truncate hcfg ty b _)

/-- Settles O31: the framer's text is read back packet by packet on the marker path, and without its marker lines it is the
words of the chunks, which the fixed-size path cuts at the same places. -/
theorem framedStreamsParseBack : Obligations.FramedStreamsParseBack := by
  refine ⟨fun ty b n payloads s u hn hlen hs hu => ⟨?_, ?_, ?_⟩, ?_⟩
  · have htrunc : u.cfg.rangePolicy = .truncate := hu ▸ rfl
    exact ⟨_, exec_strFrameIndep_of_headersBuilt (headersBuilt_of_truncate htrunc ty b _), rfl⟩
  · obtain ⟨hpkts, hdiags⟩ := parse_streamLines (length_of_mem_withHeaders hlen ty b) s.work
    refine ⟨_, exec_pktParse_completes _ s (by omega), ?_, fun hne => ?_⟩
    · rw [hs, hu, finish_outcome, hpkts, hdiags, payloadsOf_withHeaders]
    · rw [hs, hu, finish_work, release_mode]
      refine parse_streamLines_mode (fun hnil => hne ?_) s.work n
      rw [← map_snd_withHeaders ty b 0 payloads, hnil, List.map_nil]
  · obtain ⟨hpkts, hdiags, hmode⟩ :=
      parse_flatten_chunks (length_of_mem_chunksOf (length_of_mem_withHeaders hlen ty b)) s.work
    refine ⟨_, exec_pktParse_completes _ s (by omega), ?_, ?_⟩
    · rw [hs, hu, filter_streamLines, finish_outcome, hpkts, hdiags, map_drop_chunksOf, payloadsOf_withHeaders]
    · rw [hs, hu, filter_streamLines, finish_work, release_mode, hmode]
  · obtain ⟨hpkts, hdiags⟩ := parse_example_atMarker
    refine ⟨_, { State.reset with cfg := atMarkerConfig }, _, State.reset, _, rfl,
      exec_strFrameIndep_of_headersBuilt (payloads := framedExample) (headersBuilt_of_truncate rfl 0 3 _), rfl, rfl,
      exec_pktParse_completes _ _ (by omega), ?_⟩
    exact congrArg₂ (fun ps ds => some (OpOutcome.ok (.packets ps) ds)) hpkts hdiags

/-- Settles O13: the operand's word decides whether a payload with a last value is framed. -/
theorem pktFrameWritesMarkerBeforeLastValue : Obligations.PktFrameWritesMarkerBeforeLastValue := by
  refine ⟨fun _ => rfl, fun front last h s h0 hlt => ⟨?_, ?_, ?_⟩, fun h s => ?_, fun front last h s hout => ?_,
    fun s hend => ?_⟩
  · exact exec_pktFrame_of_ok (framePacket_of_word (word32Of_eq_some h0 hlt) s.cfg front last)
  · simp
  · exact getLast?_linesText (by simp)
  · rfl
  · exact conclude_map_of_error (framePacket_of_notWord (word32Of_eq_none hout) s.cfg front last)
  · have hword : word32Of 2415853571 = some 2415853571#32 := rfl
    refine ⟨_, exec_pktFrame_of_ok (framePacket_of_word hword s.cfg [1, 2, 3] 4), ?_⟩
    simp only [linesText, hend]
    rfl

/-- Settles O17: the two tests stand before the loop, in this order. -/
theorem strFrameSplitRefusals : Obligations.StrFrameSplitRefusals := by
  refine ⟨fun ty b n buffer s hn => ?_, fun ty b n buffer s hn hragged => ?_⟩
  · exact conclude_map_of_error (if_pos hn)
  · lift n to Nat using by omega
    have hmod : buffer.length % n ≠ 0 := by exact_mod_cast hragged
    exact conclude_map_of_error ((if_neg (by omega)).trans (if_pos hmod))

end Sys2Proof.Machine

/-! PROOF SUPPORT. The packet parser of spec/42_packet_parser.md: where the tokenizer cuts a text, what the delivery of
tokens keeps of the integers and the markers among them, and what phases 3 and 4 make of the chunks. -/

namespace Sys2Proof.Machine

/-! ### The tokenizer -/

/-- A token holds what was in the buffer or bytes that are no separators, and none is empty (R86). -/
theorem token_of_mem_tokenizeFrom {cfg : Config} {buf text : Text} (hbuf : ∀ b ∈ buf, b ∉ cfg.separators) {t : Token}
    (ht : t ∈ tokenizeFrom cfg buf text) : t ≠ [] ∧ ∀ b ∈ t, b ∉ cfg.separators := by
  induction text generalizing buf with
  | nil =>
    rw [tokenizeFrom] at ht
    split_ifs at ht with hempty
    · cases ht
    · obtain rfl := List.mem_singleton.mp ht
      exact ⟨hempty, hbuf⟩
  | cons b rest ih =>
    have hnil : ∀ b ∈ ([] : Text), b ∉ cfg.separators := List.forall_mem_nil _
    rw [tokenizeFrom] at ht
    split_ifs at ht with hsep hempty
    · exact ih hnil ht
    · rcases List.mem_cons.mp ht with rfl | ht
      · exact ⟨hempty, hbuf⟩
      · exact ih hnil ht
    · exact ih (forall_mem_append_singleton hbuf hsep) ht

/-- A separator ends the token being read, and the next begins after it (R86). -/
theorem tokenizeFrom_append_separator {cfg : Config} {b : Byte} (hsep : b ∈ cfg.separators) (buf x y : Text) :
    tokenizeFrom cfg buf (x ++ b :: y) = tokenizeFrom cfg buf x ++ tokenizeFrom cfg [] y := by
  induction x generalizing buf with
  | nil =>
    rw [List.nil_append, tokenizeFrom, tokenizeFrom, if_pos hsep]
    split <;> rfl
  | cons c x ih =>
    rw [List.cons_append, tokenizeFrom, tokenizeFrom, ih, ih]
    split
    · split <;> rfl
    · rfl

/-- A text without separators is one token, or none if it is empty (R86). -/
theorem tokenize_of_no_separator {cfg : Config} {t : Text} (h : ∀ b ∈ t, b ∉ cfg.separators) :
    tokenize cfg t = if t = [] then [] else [t] := by
  have hread := tokenizeFrom_append h [] []
  rwa [List.append_nil, List.nil_append] at hread

/-! ### The micro-operations as instructions -/

theorem exec_tokMark (s : State) : exec .tokMark s = .next { s with work := s.work.mark s.cfg } := rfl

theorem exec_tokInt (v : Int) (s : State) : exec (.tokInt v) s = .next { s with work := s.work.int v } := rfl

theorem exec_tokEos (s : State) : exec .tokEos s = .next { s with work := s.work.eos } := rfl

/-- The instruction of a token's class is the delivery of the token (R87). -/
theorem exec_class_instr (s : State) (t : Token) :
    exec (classify s.cfg t).instr s = .next { s with work := s.work.deliver s.cfg t } := by
  cases h : classify s.cfg t with
  | mark | ign | int v | bad =>
    simp only [Work.deliver, h]
    rfl

/-- Running the instructions of some tokens is delivering them (R87). -/
theorem execAll_class_instrs (ts : List Token) (rest : List Instr) (s : State) :
    execAll (ts.map (fun t => (classify s.cfg t).instr) ++ rest) s =
      execAll rest { s with work := deliverAll s.cfg s.work ts } := by
  induction ts generalizing s with
  | nil => rfl
  | cons t ts ih =>
    rw [List.map_cons, List.cons_append, execAll, exec_class_instr]
    exact ih { s with work := s.work.deliver s.cfg t }

/-- The micro-operations of a text are phase 2 on its tokens and then the end of the stream (R85, R87). -/
theorem execAll_tokenInstrs (text : Text) (s : State) :
    execAll (tokenInstrs s.cfg text) s =
      .next { s with work := (deliverAll s.cfg s.work (tokenize s.cfg text)).eos } := by
  rw [tokenInstrs, execAll_class_instrs, execAll, exec_tokEos]
  rfl

/-! ### What the tokens leave in the elements -/

/-- `SEEN` records that a marker was delivered (R90 to R93). -/
theorem deliver_seen_iff (cfg : Config) (w : Work) (t : Token) :
    (w.deliver cfg t).seen = true ↔ w.seen = true ∨ classify cfg t = .mark := by
  cases h : classify cfg t with
  | mark => cases hm : cfg.markerClose <;> simp [Work.deliver, h, mark_afterNextWord, mark_atMarker, hm]
  | int v => simp [Work.deliver, h, int_eq]
  | ign | bad => simp [Work.deliver, h]

theorem deliverAll_seen_iff (cfg : Config) (w : Work) (ts : List Token) :
    (deliverAll cfg w ts).seen = true ↔ w.seen = true ∨ ∃ t ∈ ts, classify cfg t = .mark := by
  induction ts generalizing w with
  | nil => simp
  | cons t ts ih => rw [deliverAll_cons, ih, deliver_seen_iff, List.exists_mem_cons_iff, or_assoc]

/-- What is appended to by `TOK_INT` alone collects the integer tokens in order (R87, R92). -/
theorem deliverAll_collects {cfg : Config} {f : Work → List Int} (hmark : ∀ w, f (w.mark cfg) = f w)
    (hint : ∀ w v, f (w.int v) = f w ++ [v]) (w : Work) (ts : List Token) :
    f (deliverAll cfg w ts) = f w ++ intValues (ts.map (classify cfg)) := by
  induction ts generalizing w with
  | nil => simp [intValues]
  | cons t ts ih =>
    rw [deliverAll_cons, ih]
    cases h : classify cfg t <;> simp [Work.deliver, h, intValues, hmark, hint]

theorem mark_flat (cfg : Config) (w : Work) : (w.mark cfg).flat = w.flat := by
  cases hm : cfg.markerClose
  · rw [mark_afterNextWord hm]
  · rw [mark_atMarker hm]

theorem int_flat (w : Work) (v : Int) : (w.int v).flat = w.flat ++ [v] := by
  rw [int_eq]

/-- The integers the chunker holds: those of the chunks closed so far and of the one being assembled (R18). -/
def Work.held (w : Work) : List Int := w.chunks.flatten ++ w.cur

/-- Closing the chunk, recorded or not, loses no integer (R90). -/
theorem flatten_close (chunks : List Chunk) (cur : Chunk) :
    (if cur = [] then chunks else chunks ++ [cur]).flatten = chunks.flatten ++ cur := by
  split <;> simp [*]

theorem mark_held (cfg : Config) (w : Work) : (w.mark cfg).held = w.held := by
  cases hm : cfg.markerClose with
  | afterNextWord => cases hp : w.pend <;> by_cases hc : w.cur = [] <;> simp [mark_afterNextWord hm, Work.held, hp, hc]
  | atMarker => simp [mark_atMarker hm, Work.held, flatten_close]

theorem int_held (w : Work) (v : Int) : (w.int v).held = w.held ++ [v] := by
  cases hp : w.pend <;> simp [int_eq, Work.held, hp]

/-- After a marker the end of stream puts all that the chunker holds into the chunks (R94, R96). -/
theorem eos_chunks_flatten_of_seen {w : Work} (hs : w.seen = true) : w.eos.chunks.flatten = w.held := by
  rw [eos_marker hs]
  exact flatten_close w.chunks w.cur

/-! ### The elements a parse ends with -/

theorem work_of_pktParse {text : Text} {n : Int} {s t : State} (hn : 1 ≤ n) (h : exec (.pktParse text n) s = .next t) :
    t.work = s.work.parse s.cfg text n := by
  obtain rfl := Host.Outcome.next.inj ((exec_pktParse_completes text s hn).symm.trans h)
  exact parse_release _ _ _ _

theorem delivered_pkts (cfg : Config) (w : Work) (text : Text) (n : Int) : (delivered cfg w text n).pkts = [] := by
  rw [delivered_frame]
  rfl

/-- A marker was seen in a parse exactly when there is one among the tokens (R90, R95). -/
theorem delivered_seen_iff (cfg : Config) (w : Work) (text : Text) (n : Int) :
    (delivered cfg w text n).seen = true ↔ ∃ tok ∈ tokenize cfg text, classify cfg tok = .mark := by
  simp [delivered, deliverAll_seen_iff]

theorem delivered_seen_of_no_mark {cfg : Config} {text : Text} (h : ∀ tok ∈ tokenize cfg text, classify cfg tok ≠ .mark)
    (w : Work) (n : Int) : (delivered cfg w text n).seen = false := by
  refine Bool.eq_false_iff.mpr fun hseen => ?_
  obtain ⟨tok, htok, hmark⟩ := (delivered_seen_iff cfg w text n).mp hseen
  exact h tok htok hmark

/-- `FLAT` collects the integer tokens (R92). -/
theorem delivered_flat (cfg : Config) (w : Work) (text : Text) (n : Int) :
    (delivered cfg w text n).flat = intValues ((tokenize cfg text).map (classify cfg)) :=
  deliverAll_collects (f := Work.flat) (mark_flat cfg) int_flat _ _

/-- The chunker holds every integer token (R92, R96, R101). -/
theorem delivered_held (cfg : Config) (w : Work) (text : Text) (n : Int) :
    (delivered cfg w text n).held = intValues ((tokenize cfg text).map (classify cfg)) :=
  deliverAll_collects (f := Work.held) (mark_held cfg) int_held _ _

/-- Phase 4 leaves the elements of phase 3 (R98). -/
theorem extract_keeps (w : Work) :
    w.extract.chunks = w.chunks ∧ w.extract.cur = w.cur ∧ w.extract.flat = w.flat ∧ w.extract.mode = w.mode := by
  rw [extract_eq]
  exact ⟨rfl, rfl, rfl, rfl⟩

/-- The end of stream leaves `FLAT`, the operand and the packets (R94). -/
theorem eos_keeps (w : Work) : w.eos.flat = w.flat ∧ w.eos.n = w.n ∧ w.eos.pkts = w.pkts := by
  rw [eos_frame]
  exact ⟨rfl, rfl, rfl⟩

/-- The end of stream reports the remainder of `FixedSize` mode and nothing else (R94, R97). -/
theorem eos_diags (w : Work) :
    w.eos.diags = w.diags ++
      if w.eos.mode = .fixedSize ∧ w.flat.length % (1 + w.n) ≠ 0 then
        [.remainderDropped (w.flat.length % (1 + w.n))] else [] := by
  cases hs : w.seen
  · by_cases hr : w.flat.length % (1 + w.n) = 0 <;> simp [eos_fixed hs, hr]
  · simp [eos_marker hs]

/-- The end of stream after no marker leaves full chunks (R97). -/
theorem eos_chunks_length_of_unseen {w : Work} (hs : w.seen = false) : ∀ c ∈ w.eos.chunks, c.length = 1 + w.eos.n := by
  rw [eos_fixed hs]
  exact fun _ => length_of_mem_slices

/-- The slices less their first elements (R97, R98). -/
theorem map_drop_slices {α : Type} (n : Nat) (l : List α) :
    (slices (1 + n) l).map (fun c => c.drop 1) =
      (List.range (l.length / (1 + n))).map fun k => (l.drop (k * (1 + n) + 1)).take n := by
  rw [slices, List.map_map]
  refine List.map_congr_left fun k _ => ?_
  rw [Function.comp_apply, List.drop_take, List.drop_drop, Nat.add_sub_cancel_left]

/-! ### Phase 4 chunk by chunk -/

theorem extractFrom_append (k : Nat) (cs ds : List Chunk) (w : Work) :
    Work.extractFrom k (cs ++ ds) w = Work.extractFrom (k + cs.length) ds (Work.extractFrom k cs w) := by
  induction cs generalizing k w with
  | nil => rfl
  | cons c cs ih => simp only [List.cons_append, Work.extractFrom, ih, List.length_cons, Nat.add_assoc, Nat.add_comm 1]

/-- Chunks of `1 + N` words, from any index on, give their packets and no diagnostic (R98). -/
theorem extractFrom_of_full_chunks (k : Nat) {cs : List Chunk} {w : Work} (h : ∀ c ∈ cs, c.length = 1 + w.n) :
    Work.extractFrom k cs w = { w with pkts := w.pkts ++ cs.map fun c => c.drop 1 } := by
  induction cs generalizing k w with
  | nil => simp [Work.extractFrom]
  | cons c cs ih =>
    obtain ⟨hc, hcs⟩ := List.forall_mem_cons.mp h
    have hone : w.takePacket k c = { w with pkts := w.pkts ++ [c.drop 1] } := by
      simp [takePacket_eq, chunkDiag, hc]
    rw [Work.extractFrom, hone, ih]
    · simp
    · exact hcs

/-- A chunk of more than `1 + N` words gives the packet at its front and is reported (R98, R100). -/
theorem takePacket_of_long {w : Work} (k : Nat) {c : Chunk} (h : 1 + w.n < c.length) :
    w.takePacket k c =
      { w with diags := w.diags ++ [.longChunk k c.length], pkts := w.pkts ++ [(c.drop 1).take w.n] } := by
  simp [takePacket_eq, chunkDiag, h, h.le, not_lt.mpr h.le]

/-- Phase 4 on full chunks with one longer chunk among them (R98, R100). -/
theorem extract_of_one_long_chunk {w : Work} {before after : List Chunk} {c : Chunk}
    (hchunks : w.chunks = before ++ c :: after) (hbefore : ∀ d ∈ before, d.length = 1 + w.n)
    (hafter : ∀ d ∈ after, d.length = 1 + w.n) (hlong : 1 + w.n < c.length) :
    w.extract.pkts = w.pkts ++ (before.map (fun d => d.drop 1) ++ (c.drop 1).take w.n :: after.map fun d => d.drop 1) ∧
      w.extract.diags = w.diags ++ [.longChunk before.length c.length] := by
  rw [Work.extract, hchunks, extractFrom_append, extractFrom_of_full_chunks 0 hbefore, Work.extractFrom,
    takePacket_of_long, extractFrom_of_full_chunks]
  · simp
  · exact hafter
  · exact hlong

/-! ### A stream that has lost a marker -/

/-- The words of a framed packet, its header among them (R44). -/
def packetWords (p : Int × Payload × Int) : Chunk := p.1 :: p.2.1 ++ [p.2.2]

theorem chunksOf_append (packets rest : List (Int × Payload × Int)) :
    chunksOf (packets ++ rest) = chunksOf packets ++ chunksOf rest := List.map_append

theorem chunksOf_singleton (p : Int × Payload × Int) : chunksOf [p] = [packetWords p] := rfl

theorem packetWords_ne_nil (p : Int × Payload × Int) : packetWords p ≠ [] := List.cons_ne_nil _ _

/-- A header word and the payload (R44). -/
theorem length_packetWords {n : Nat} {p : Int × Payload × Int} (h : (p.2.1 ++ [p.2.2]).length = n) :
    (packetWords p).length = 1 + n :=
  length_of_mem_chunksOf (List.forall_mem_singleton.mpr h) _ (List.mem_singleton_self _)

/-- Phase 4 reads a packet's payload off the front of a chunk that begins with its words (R98, R100). -/
theorem take_drop_packetWords_append {n : Nat} {p : Int × Payload × Int} (h : (p.2.1 ++ [p.2.2]).length = n)
    (rest : List Int) : ((packetWords p ++ rest).drop 1).take n = p.2.1 ++ [p.2.2] := List.take_left' h

/-- A packet without its marker line is its words as decimal numerals (R44, R102). -/
theorem bareLines_singleton (x : Int × Payload × Int) : bareLines [x] = (packetWords x).map dec := by
  simp [bareLines, packetWords]

/-- The tokens of a text whose lines are decimal numerals and markers are its lines (R44, R86). -/
theorem tokenize_dec_or_tlast {lines : List Text} (h : ∀ line ∈ lines, (∃ v, line = dec v) ∨ line = tlast) :
    tokenize Config.default (linesText Config.default lines) = lines := by
  refine tokenize_linesText (by decide) fun line hline => ?_
  rcases h line hline with ⟨v, rfl⟩ | rfl
  · exact ⟨dec_ne_nil v, fun _ => not_separator_of_mem_dec⟩
  · exact ⟨by decide, by decide⟩

/-- A line of framed packets, the last of them without its marker line (R102). -/
theorem dec_or_tlast_of_mem_lost_marker {before : List (Int × Payload × Int)} {x : Int × Payload × Int} {line : Text}
    (h : line ∈ streamLines before ++ bareLines [x]) : (∃ v, line = dec v) ∨ line = tlast := by
  rcases List.mem_append.mp h with h | h
  · exact dec_or_tlast_of_mem_streamLines h
  · rw [bareLines_singleton] at h
    obtain ⟨v, -, rfl⟩ := List.mem_map.mp h
    exact .inl ⟨v, rfl⟩

/-- A framed packet is added to the chunk being assembled and closes it (R90, R92). -/
theorem deliverAll_packet_onto_cur {w : Work} (hpend : w.pend = false) (y : Int × Payload × Int) :
    deliverAll Config.default w (streamLines [y]) =
      { w with seen := true, flat := w.flat ++ packetWords y
               chunks := w.chunks ++ [w.cur ++ packetWords y], cur := [] } := by
  have hlines : streamLines [y] = (y.1 :: y.2.1).map dec ++ [tlast, dec y.2.2] := by simp [streamLines]
  rw [hlines, deliverAll_append, deliverAll_dec hpend, deliverAll_cons, deliver_tlast, mark_afterNextWord rfl,
    deliverAll_cons, deliver_dec, int_eq, deliverAll_nil]
  simp [hpend, packetWords]

theorem streamLines_cons (y : Int × Payload × Int) (after : List (Int × Payload × Int)) :
    streamLines (y :: after) = streamLines [y] ++ streamLines after := by
  simp [streamLines]

/-- Framed packets before one without its marker line: a chunk each, and its words are left in the chunk being assembled
(R92, R102). -/
theorem deliverAll_lost_marker {w : Work} (hpend : w.pend = false) (hcur : w.cur = [])
    (before : List (Int × Payload × Int)) (x : Int × Payload × Int) :
    deliverAll Config.default w (streamLines before ++ bareLines [x]) =
      { w with
        seen := w.seen || !before.isEmpty
        flat := w.flat ++ (chunksOf before).flatten ++ packetWords x
        chunks := w.chunks ++ chunksOf before
        cur := packetWords x } := by
  rw [deliverAll_append, deliverAll_streamLines hpend hcur, bareLines_singleton, deliverAll_dec]
  · simp [hcur]
  · exact hpend

/-- A packet without its marker line takes the framed one after it into its chunk (R102 (a)). -/
theorem eos_delivered_lost_marker (before after : List (Int × Payload × Int)) (x y : Int × Payload × Int) (w : Work)
    (n : Int) :
    let d := delivered Config.default w
      (linesText Config.default (streamLines before ++ bareLines [x] ++ streamLines (y :: after))) n
    d.seen = true ∧
      d.eos.chunks = chunksOf before ++ (packetWords x ++ packetWords y) :: chunksOf after := by
  have hlines : ∀ line ∈ streamLines before ++ bareLines [x] ++ streamLines (y :: after),
      (∃ v, line = dec v) ∨ line = tlast := List.forall_mem_append.mpr
    ⟨fun _ => dec_or_tlast_of_mem_lost_marker, fun _ => dec_or_tlast_of_mem_streamLines⟩
  rw [delivered, tokenize_dec_or_tlast hlines, deliverAll_append, deliverAll_lost_marker rfl rfl, streamLines_cons,
    deliverAll_append, deliverAll_packet_onto_cur rfl, deliverAll_streamLines rfl rfl]
  refine ⟨rfl, ?_⟩
  rw [eos_marker rfl]
  simp

/-- The last packet's words without its marker line are still a chunk, closed by the end of stream (R94, R102 (b)). -/
theorem eos_delivered_lost_last_marker {before : List (Int × Payload × Int)} (hne : before ≠ [])
    (x : Int × Payload × Int) (w : Work) (n : Int) :
    let d := delivered Config.default w (linesText Config.default (streamLines before ++ bareLines [x])) n
    d.seen = true ∧ d.eos.chunks = chunksOf (before ++ [x]) := by
  rw [delivered, tokenize_dec_or_tlast fun _ => dec_or_tlast_of_mem_lost_marker, deliverAll_lost_marker rfl rfl]
  have hseen : (false || !before.isEmpty) = true := by simpa using hne
  refine ⟨hseen, ?_⟩
  rw [eos_marker hseen]
  simp [chunksOf_append, chunksOf_singleton, packetWords_ne_nil]

/-- After a marker phase 4 of a parse starts without packets and diagnostics (R94, R98). -/
theorem eos_delivered_of_seen {cfg : Config} {w : Work} {text : Text} {n : Nat}
    (hseen : (delivered cfg w text n).seen = true) :
    let e := (delivered cfg w text n).eos
    e.n = n ∧ e.pkts = [] ∧ e.diags = [] := by
  dsimp only
  rw [eos_marker hseen]
  exact ⟨delivered_n cfg w text n, delivered_pkts cfg w text n, delivered_diags cfg w text n⟩

/-- The successor of a packet that has lost its marker is cut off behind it, and the long chunk reported (R100,
R102 (a)). -/
theorem parse_lost_marker {n : Nat} {before after : List (Int × Payload × Int)} {x y : Int × Payload × Int}
    (hlen : ∀ p ∈ before ++ x :: y :: after, (p.2.1 ++ [p.2.2]).length = n) (w : Work) :
    let parsed := w.parse Config.default
      (linesText Config.default (streamLines before ++ bareLines [x] ++ streamLines (y :: after))) n
    parsed.pkts = payloadsOf (before ++ x :: after) ∧ parsed.diags = [.longChunk before.length (2 * (1 + n))] := by
  obtain ⟨hbefore, hrest⟩ := List.forall_mem_append.mp hlen
  obtain ⟨hx, hy, hafter⟩ : _ ∧ _ ∧ _ := by simpa only [List.forall_mem_cons] using hrest
  have hlong : (packetWords x ++ packetWords y).length = 2 * (1 + n) := by
    rw [List.length_append, length_packetWords hx, length_packetWords hy, ← Nat.two_mul]
  obtain ⟨hseen, hchunks⟩ := eos_delivered_lost_marker before after x y w n
  obtain ⟨hwidth, hpkts, hdiags⟩ := eos_delivered_of_seen hseen
  dsimp only
  rw [parse_eq_delivered]
  generalize (delivered Config.default w _ n).eos = e at hchunks hwidth hpkts hdiags ⊢
  subst hwidth
  obtain ⟨htaken, hreported⟩ := extract_of_one_long_chunk hchunks (length_of_mem_chunksOf hbefore)
    (length_of_mem_chunksOf hafter) (by omega)
  rw [htaken, hreported, hpkts, hdiags, take_drop_packetWords_append hx, hlong, map_drop_chunksOf, map_drop_chunksOf]
  simp [payloadsOf, chunksOf]

/-- Where the last packet has lost its marker nothing is lost (R102 (b)). -/
theorem parse_lost_last_marker {n : Nat} {before : List (Int × Payload × Int)} (hne : before ≠ [])
    {x : Int × Payload × Int} (hlen : ∀ p ∈ before ++ [x], (p.2.1 ++ [p.2.2]).length = n) (w : Work) :
    let parsed := w.parse Config.default (linesText Config.default (streamLines before ++ bareLines [x])) n
    parsed.pkts = payloadsOf (before ++ [x]) ∧ parsed.diags = [] := by
  obtain ⟨hseen, hchunks⟩ := eos_delivered_lost_last_marker hne x w n
  obtain ⟨hwidth, hpkts, hdiags⟩ := eos_delivered_of_seen hseen
  dsimp only
  rw [parse_eq_delivered]
  obtain ⟨htaken, hreported⟩ := extract_of_full_chunks (w := (delivered Config.default w _ n).eos)
    (by rw [hchunks, hwidth]; exact length_of_mem_chunksOf hlen)
  rw [htaken, hreported, hpkts, hdiags, hchunks, map_drop_chunksOf]
  exact ⟨rfl, rfl⟩

/-! ### The packets and diagnostics of a parse -/

/-- Phase 4 on the chunks phase 3 leaves, in terms of what a parse ends with (R98 to R100, R130 (b)). -/
theorem parse_extraction (cfg : Config) (w : Work) (text : Text) (n : Nat) :
    let parsed := w.parse cfg text n
    let r := parsed.flat.length % (1 + n)
    parsed.pkts = (parsed.chunks.filter fun c => decide (1 + n ≤ c.length)).map (fun c => (c.drop 1).take n) ∧
      parsed.diags = (if parsed.mode = .fixedSize ∧ r ≠ 0 then [Diag.remainderDropped r] else []) ++
        parsed.chunks.zipIdx.filterMap fun ck => chunkDiag n ck.2 ck.1 := by
  dsimp only
  rw [parse_eq_delivered]
  have hdn : (delivered cfg w text n).n = n := by rw [delivered_n, Int.toNat_natCast]
  have hdiags := delivered_diags cfg w text n
  have hpkts := delivered_pkts cfg w text n
  generalize delivered cfg w text n = d at hdn hdiags hpkts ⊢
  obtain ⟨hchunks, -, hflat, hmode⟩ := extract_keeps d.eos
  obtain ⟨hflat', hwidth, hpkts'⟩ := eos_keeps d
  rw [hchunks, hflat, hmode, extract_eq]
  refine ⟨?_, ?_⟩
  · simp only [hwidth, hpkts', hpkts, hdn, List.nil_append]
  · simp only [hwidth, eos_diags, hdiags, hdn, hflat', List.nil_append]

/-- Without a marker a parse cuts `FLAT` into chunks, which are packets less their first word, and reports the remainder
(R97, R98). -/
theorem parse_of_no_mark {cfg : Config} {text : Text} (h : ∀ tok ∈ tokenize cfg text, classify cfg tok ≠ .mark) (w : Work)
    (n : Nat) :
    let parsed := w.parse cfg text n
    let flat := intValues ((tokenize cfg text).map (classify cfg))
    parsed.flat = flat ∧ parsed.chunks = slices (1 + n) flat ∧
      parsed.pkts = (slices (1 + n) flat).map (fun c => c.drop 1) ∧
      parsed.diags = if flat.length % (1 + n) = 0 then [] else [.remainderDropped (flat.length % (1 + n))] := by
  dsimp only
  rw [parse_eq_delivered, ← delivered_flat cfg w text n]
  have hseen := delivered_seen_of_no_mark h w n
  have hdn : (delivered cfg w text n).n = n := by rw [delivered_n, Int.toNat_natCast]
  have hdiags := delivered_diags cfg w text n
  have hpkts := delivered_pkts cfg w text n
  generalize delivered cfg w text n = d at hseen hdn hdiags hpkts ⊢
  obtain ⟨hchunks, -, hflat, -⟩ := extract_keeps d.eos
  obtain ⟨hflat', -, hpkts'⟩ := eos_keeps d
  have hcut : d.eos.chunks = slices (1 + n) d.flat := by rw [eos_fixed hseen, hdn]
  obtain ⟨htaken, -⟩ := extract_of_full_chunks (eos_chunks_length_of_unseen hseen)
  refine ⟨hflat.trans hflat', hchunks.trans hcut, ?_, ?_⟩
  · rw [htaken, hcut, hpkts', hpkts, List.nil_append]
  · rw [eos_extract_diags_of_unseen hseen, hdn, hdiags, List.nil_append]

end Sys2Proof.Machine

/-! PROOFS. The statements about the packet parser (spec/42_packet_parser.md). -/

namespace Sys2Proof.Machine

/-- Settles O19, by induction on the text: a separator ends the token in the buffer, any other byte goes into it. -/
theorem tokenizerSplitsAtSeparators : Obligations.TokenizerSplitsAtSeparators := fun _ =>
  ⟨fun _ _ => token_of_mem_tokenizeFrom (List.forall_mem_nil _), fun x y _ hsep => tokenizeFrom_append_separator hsep [] x y,
    fun _ => tokenize_of_no_separator⟩

/-- Settles O25: the byte-by-byte parse delivers the text's tokens in order, and each delivery is what `exec` does for the
micro-operation of the token's class. -/
theorem pktParseRunsItsMicroOperations : Obligations.PktParseRunsItsMicroOperations := by
  intro text n s hn
  refine ⟨_, execAll_tokenInstrs text { s with work := s.work.parseStart [] n }, ?_⟩
  rw [exec_pktParse_completes text s hn, State.finish, parse_release, parse_eq]

/-- Settles O27: a delivered marker sets `SEEN`, nothing clears it, and the end of stream chooses the mode by it. -/
theorem modeIsMarkerIffAMarkerOccurred : Obligations.ModeIsMarkerIffAMarkerOccurred := by
  intro text n s t hn h
  rw [work_of_pktParse hn h, parse_eq_delivered, eos_extract_mode]
  refine ⟨fun hmark => if_pos ((delivered_seen_iff _ _ _ _).mpr hmark), fun hnone => ?_⟩
  rw [delivered_seen_of_no_mark hnone]
  rfl

/-- Settles O28: with `SEEN` clear the chunks are the slices of `FLAT`, all of them full, so phase 4 adds no diagnostic. -/
theorem fixedSizeParseCutsTheFlatSequence : Obligations.FixedSizeParseCutsTheFlatSequence := by
  intro text n s hn hnone
  obtain ⟨hflat, hchunks, hpkts, hdiags⟩ := parse_of_no_mark hnone s.work n
  refine ⟨_, exec_pktParse_completes text s (by omega), hflat, hchunks, ?_⟩
  rw [finish_outcome, hpkts, hdiags, map_drop_slices]

/-- Settles O29: every delivery keeps the integers of `CHUNKS` and `CUR` equal to those delivered so far, and the end of
stream moves the rest of them into `CHUNKS`. -/
theorem markerChunksHoldEveryIntegerToken : Obligations.MarkerChunksHoldEveryIntegerToken := by
  intro text n s t hn h hmark
  have hseen := (delivered_seen_iff s.cfg s.work text n).mpr hmark
  have hgood := good_parse s.cfg s.work text n
  rw [work_of_pktParse hn h]
  refine ⟨?_, hgood.chunks_nonempty, ?_⟩
  · rw [parse_eq_delivered, (extract_keeps _).1, eos_chunks_flatten_of_seen hseen, delivered_held]
  · rw [parse_eq_delivered, (extract_keeps _).2.1, eos_marker hseen]

/-- Settles O30: phase 4 goes through the chunks in order, after the diagnostic of phase 3. -/
theorem extractionFollowsTheChunks : Obligations.ExtractionFollowsTheChunks := by
  intro text n s hn
  obtain ⟨hpkts, hdiags⟩ := parse_extraction s.cfg s.work text n
  refine ⟨_, exec_pktParse_completes text s (by omega), ?_⟩
  rw [finish_work, parse_release, finish_outcome]
  exact congrArg₂ (fun ps ds => some (OpOutcome.ok (.packets ps) ds)) hpkts hdiags

/-- Settles O33: the words of the packet without a marker stay in the chunk being assembled until the next marker's
terminal word or the end of stream closes it. -/
theorem lostMarkerLosesOnlyTheSuccessor : Obligations.LostMarkerLosesOnlyTheSuccessor := by
  intro n s hn hcfg
  refine ⟨fun before after x y hlen => ?_, fun before x hne hlen => ?_⟩
  · obtain ⟨hpkts, hdiags⟩ := parse_lost_marker hlen s.work
    refine ⟨_, exec_pktParse_completes _ s (by omega), ?_⟩
    rw [hcfg, finish_outcome, hpkts, hdiags]
  · obtain ⟨hpkts, hdiags⟩ := parse_lost_last_marker hne hlen s.work
    refine ⟨_, exec_pktParse_completes _ s (by omega), ?_⟩
    rw [hcfg, finish_outcome, hpkts, hdiags]

/-- Settles O20: a chunk is closed only where a terminal word was pending and the chunk is not empty. -/
theorem tokMarkAnnouncesTheTerminalWord : Obligations.TokMarkAnnouncesTheTerminalWord := by
  intro s hcfg
  rw [exec_tokMark, mark_afterNextWord hcfg]
  refine ⟨fun hpend => ?_, fun hpend hcur => ?_, fun hpend hcur => ?_⟩
  · simp [hpend]
  · simp [hpend, hcur]
  · simp [hpend, hcur]

/-- Settles O21: the marker closes the chunk, unless it is empty. -/
theorem tokMarkAtMarkerClosesTheChunk : Obligations.TokMarkAtMarkerClosesTheChunk := by
  intro s hcfg
  rw [exec_tokMark, mark_atMarker hcfg]
  refine ⟨fun hcur => ?_, fun hcur => ?_⟩
  · simp [hcur]
  · simp [hcur]

/-- Settles O22: neither meaning writes the state. -/
theorem ignorableAndBadTokensWriteNothing : Obligations.IgnorableAndBadTokensWriteNothing := fun _ => ⟨rfl, rfl⟩

/-- Settles O23, by whether a terminal word is pending. -/
theorem tokIntAccumulatesAndClosesWhenPending : Obligations.TokIntAccumulatesAndClosesWhenPending := by
  intro v s
  rw [exec_tokInt, int_eq]
  refine ⟨fun hpend => ?_, fun hpend => ?_⟩
  · simp [hpend]
  · simp [hpend]

/-- Settles O24: with `SEEN` set the last chunk is closed, unless it is empty; else the chunks are cut from `FLAT`. -/
theorem tokEosSelectsTheMode : Obligations.TokEosSelectsTheMode := by
  intro s
  rw [exec_tokEos]
  refine ⟨fun hseen hcur => ?_, fun hseen hcur => ?_, fun hseen => ?_⟩
  · simp [eos_marker hseen, hcur]
  · simp [eos_marker hseen, hcur]
  · rw [eos_fixed hseen]
    rfl

end Sys2Proof.Machine

/-! PROOF SUPPORT. The golden reducer of spec/43_golden_reducer.md: which pairs the loop gets past and which refusal ends
it, the entries and timestamps of the records it returns, and the lines of `GLD_EMIT`. -/

namespace Sys2Proof.Machine

/-! ### The loop over the pairs -/

/-- The two tests of a pair in the terms of the claims (R109 (b), R115 (d)). -/
theorem pair_passes_iff (cfg : Config) (g : ReduceConfig) (p : Nat) (a b : Payload) :
    (shapesOk g a b = true ∧ widthsOk cfg g p a b = true) ↔
      (a.length = g.rowsA * g.colsA ∧ b.length = g.colsA * g.colsB) ∧ pairInWidths cfg g p a b := by
  rw [shapesOk_iff, widthsOk_iff]

/-- A loop that does not get past every pair is refused at the first that fails a test (R130 (a)). -/
theorem reducePairs_error_of_not_pass {cfg : Config} {g : ReduceConfig} {as bs : List Payload} (w : Work)
    (h : ¬∀ i ab, (as.zip bs)[i]? = some ab →
      shapesOk g ab.1 ab.2 = true ∧ widthsOk cfg g (w.p + i) ab.1 ab.2 = true) :
    ∃ i ab, (as.zip bs)[i]? = some ab ∧
      ¬(shapesOk g ab.1 ab.2 = true ∧ widthsOk cfg g (w.p + i) ab.1 ab.2 = true) ∧
      reducePairs cfg g as bs w =
        .error (if shapesOk g ab.1 ab.2 = true then .widthExceeded else .shapeMismatch) := by
  classical
  have hfails : ∃ i ab, (as.zip bs)[i]? = some ab ∧
      ¬(shapesOk g ab.1 ab.2 = true ∧ widthsOk cfg g (w.p + i) ab.1 ab.2 = true) := by
    simpa only [not_forall, exists_prop] using h
  obtain ⟨ab, hab, hbad⟩ := Nat.find_spec hfails
  refine ⟨_, ab, hab, hbad, reducePairs_of_bad w hab (fun k cd hk hcd => ?_) hbad⟩
  by_contra hfail
  exact Nat.find_min hfails hk ⟨cd, hcd, hfail⟩

/-- With every pair in shape and in width the loop from pair 0 gets to its end. -/
theorem reducePairs_of_inWidths {cfg : Config} {g : ReduceConfig} {as bs : List Payload} {w : Work} (hp : w.p = 0)
    (hshape : ∀ ab ∈ as.zip bs, ab.1.length = g.rowsA * g.colsA ∧ ab.2.length = g.colsA * g.colsB)
    (hin : ∀ p a b, (as.zip bs)[p]? = some (a, b) → pairInWidths cfg g p a b) :
    reducePairs cfg g as bs w = .ok (foldPairs g w (as.zip bs)) := by
  refine reducePairs_of_pass w fun i ab hab => ?_
  rw [hp, Nat.zero_add, pair_passes_iff]
  exact ⟨hshape ab (List.mem_of_getElem? hab), hin i ab.1 ab.2 hab⟩

/-- With every pair in shape, and some pair out of width, the loop from pair 0 ends with the refusal of R115 (d). -/
theorem reducePairs_of_outOfWidth {cfg : Config} {g : ReduceConfig} {as bs : List Payload} {w : Work} (hp : w.p = 0)
    (hshape : ∀ ab ∈ as.zip bs, ab.1.length = g.rowsA * g.colsA ∧ ab.2.length = g.colsA * g.colsB)
    (hout : ¬∀ p a b, (as.zip bs)[p]? = some (a, b) → pairInWidths cfg g p a b) :
    reducePairs cfg g as bs w = .error .widthExceeded := by
  obtain ⟨i, ab, hab, -, hrun⟩ := reducePairs_error_of_not_pass (cfg := cfg) (g := g) w fun hpass =>
    hout fun p a b hab => by
      have hwidths := (hpass p (a, b) hab).2
      rwa [hp, Nat.zero_add, widthsOk_iff] at hwidths
  rw [hrun, if_pos ((shapesOk_iff _ _ _).mpr (hshape ab (List.mem_of_getElem? hab)))]

/-- With exact integers a pair out of shape anywhere ends the loop with `ShapeMismatch` (R109 (b)). -/
theorem reducePairs_of_misshapen_exact {cfg : Config} {g : ReduceConfig} {as bs : List Payload} (w : Work)
    (hw : cfg.wordBits = none) (ha : cfg.accBits = none)
    (hshape : ∃ ab ∈ as.zip bs, ab.1.length ≠ g.rowsA * g.colsA ∨ ab.2.length ≠ g.colsA * g.colsB) :
    reducePairs cfg g as bs w = .error .shapeMismatch := by
  obtain ⟨cd, hcd, hlen⟩ := hshape
  obtain ⟨k, hk⟩ := List.mem_iff_getElem?.mp hcd
  obtain ⟨i, ab, -, hbad, hrun⟩ := reducePairs_error_of_not_pass (cfg := cfg) (g := g) w fun hpass =>
    not_and_or.mpr hlen ((shapesOk_iff _ _ _).mp (hpass k cd hk).1)
  rw [hrun, if_neg fun hs => hbad ⟨hs, widthsOk_exact hw ha _ _ _ _⟩]

/-- A pair out of shape after pairs in shape and in width ends the loop with `ShapeMismatch` (R109 (b), R130 (a)). -/
theorem reducePairs_of_misshapen {cfg : Config} {g : ReduceConfig} {as bs : List Payload} {w : Work} (hp : w.p = 0)
    {p : Nat} {a b : Payload} (hab : (as.zip bs)[p]? = some (a, b))
    (hshape : a.length ≠ g.rowsA * g.colsA ∨ b.length ≠ g.colsA * g.colsB)
    (hbefore : ∀ q c d, q < p → (as.zip bs)[q]? = some (c, d) →
      c.length = g.rowsA * g.colsA ∧ d.length = g.colsA * g.colsB ∧ pairInWidths cfg g q c d) :
    reducePairs cfg g as bs w = .error .shapeMismatch := by
  have hbad : ¬shapesOk g a b = true := mt (shapesOk_iff g a b).mp (not_and_or.mpr hshape)
  rw [reducePairs_of_bad w hab (fun q cd hq hcd => ?_) fun hpass => hbad hpass.1, if_neg hbad]
  rw [hp, Nat.zero_add, pair_passes_iff, and_assoc]
  exact hbefore q cd.1 cd.2 hq hcd

/-! ### The operation around the loop -/

/-- The warning changes `DIAGS` only (R106, R132). -/
theorem warnLengths_eq (w : Work) (nA nB : Nat) :
    w.warnLengths nA nB = { w with diags := (w.warnLengths nA nB).diags } := by
  unfold Work.warnLengths
  split <;> rfl

theorem warnLengths_atStart_p (w : Work) (nA nB : Nat) : (w.atStart.warnLengths nA nB).p = 0 := by
  rw [warnLengths_eq]
  rfl

/-- The working elements after the pairs of an operation: those of its start but for the six that it writes (R105,
R106). -/
theorem foldPairs_atStart_eq (g : ReduceConfig) (w : Work) (nA nB : Nat) (pairs : List (Payload × Payload)) :
    foldPairs g (w.atStart.warnLengths nA nB) pairs =
      { w.atStart with
        diags := if nA = nB then [] else [.streamLengthMismatch nA nB]
        recs := recordsOf g 0 pairs, p := pairs.length
        maxv := (foldPairs g (w.atStart.warnLengths nA nB) pairs).maxv
        acc := (foldPairs g (w.atStart.warnLengths nA nB) pairs).acc
        ts := (foldPairs g (w.atStart.warnLengths nA nB) pairs).ts } := by
  rw [foldPairs_eq, warnLengths_eq, warnLengths_diags]
  simp

/-- With dimensions of at least 1 `GLD_REDUCE` is the loop over the pairs (R105, R109 (a)). -/
theorem reduceStreams_of_dims {ra ca cb : Nat} (hra : 1 ≤ ra) (hca : 1 ≤ ca) (hcb : 1 ≤ cb) (cfg : Config)
    (as bs : List Payload) (start step : Int) (bases : List Int) (w : Work) :
    reduceStreams cfg as bs ra ca cb start step bases w =
      reducePairs cfg ⟨ra, ca, cb, start, step, bases⟩ as bs (w.warnLengths as.length bs.length) :=
  if_neg (by omega)

/-- A refusal of the loop is that of the operation (R125). -/
theorem exec_gldReduce_of_pair_error {ra ca cb : Nat} (hra : 1 ≤ ra) (hca : 1 ≤ ca) (hcb : 1 ≤ cb)
    {as bs : List Payload} {start step : Int} {bases : List Int} {s : State} {e : Reason}
    (h : reducePairs s.cfg ⟨ra, ca, cb, start, step, bases⟩ as bs
      (s.work.atStart.warnLengths as.length bs.length) = .error e) :
    exec (.gldReduce as bs ra ca cb start step bases) s =
      .next { s with work := s.work.atStart, outcome := some (.refused e) } :=
  conclude_map_of_error ((reduceStreams_of_dims hra hca hcb _ _ _ _ _ _ _).trans h)

/-- A loop that gets to its end completes the operation; there is nothing to release (R105). -/
theorem exec_gldReduce_of_pairs {ra ca cb : Nat} (hra : 1 ≤ ra) (hca : 1 ≤ ca) (hcb : 1 ≤ cb)
    {as bs : List Payload} {start step : Int} {bases : List Int} {s : State} {w : Work}
    (h : reducePairs s.cfg ⟨ra, ca, cb, start, step, bases⟩ as bs
      (s.work.atStart.warnLengths as.length bs.length) = .ok w) :
    exec (.gldReduce as bs ra ca cb start step bases) s =
      .next { s with work := w, outcome := some (.ok (.records w.recs) w.diags) } := by
  have hw : w.release = w := by
    obtain ⟨rfl, -⟩ := reducePairs_ok h
    rw [foldPairs_atStart_eq]
    exact release_of_untouched rfl rfl
  have hrun : exec (.gldReduce as bs ra ca cb start step bases) s = .next (s.finish w (.records w.recs)) := by
    simp only [exec, execGldReduce, reduceStreams_of_dims hra hca hcb, h]
    rfl
  rw [hrun, State.finish, hw]

/-! ### What a run that returns records computed -/

/-- An operation that completed has the result it computed (R8). -/
theorem result_of_conclude_map {α : Type} {s t : State} {x : Except Reason α} {f : α → Work × Result} {r : Result}
    {ds : List Diag} (h : conclude s (x.map f) = .next t) (ho : t.outcome = some (.ok r ds)) :
    ∃ a, x = .ok a ∧ r = (f a).2 := by
  obtain ⟨a, rfl, -, -⟩ := ok_of_conclude_map h ho
  obtain rfl : s.finish (f a).1 (f a).2 = t := Host.Outcome.next.inj h
  cases ho
  exact ⟨a, rfl, rfl⟩

/-- Where `GLD_REDUCE` returns records they are those of the paired operands, the dimensions were at least 1 and every
pair has passed its width test (R105, R106, R109). -/
theorem gldReduce_returns {as bs : List Payload} {ra ca cb start step : Int} {bases : List Int} {s t : State}
    {rs : List GoldenRecord} {ds : List Diag} (h : exec (.gldReduce as bs ra ca cb start step bases) s = .next t)
    (ho : t.outcome = some (.ok (.records rs) ds)) :
    (1 ≤ ra ∧ 1 ≤ ca ∧ 1 ≤ cb) ∧
      rs = recordsOf ⟨ra.toNat, ca.toNat, cb.toNat, start, step, bases⟩ 0 (as.zip bs) ∧
      ∀ p a b, (as.zip bs)[p]? = some (a, b) →
        pairInWidths s.cfg ⟨ra.toNat, ca.toNat, cb.toNat, start, step, bases⟩ p a b := by
  obtain ⟨w, hw, hrs⟩ := result_of_conclude_map h ho
  obtain ⟨hra, hca, hcb, hpairs⟩ := reduceStreams_ok hw
  obtain ⟨hfold, hpass⟩ := reducePairs_ok hpairs
  refine ⟨⟨hra, hca, hcb⟩, ?_, fun p a b hab => ?_⟩
  · rw [Result.records.inj hrs, hfold, foldPairs_atStart_eq]
  · have hp := hpass p (a, b) hab
    rw [warnLengths_atStart_p, Nat.zero_add] at hp
    exact ((pair_passes_iff _ _ _ _ _).mp hp).2

/-! ### The entries of a record -/

/-- The row of maxima column by column (R105). -/
theorem getElem?_colMaxima_eq_some_iff (g : ReduceConfig) (a b : Payload) (j : Nat) (m : Int) :
    (colMaxima g a b)[j]? = some m ↔ j < g.colsB ∧ colMaxFrom g a b j 0 = m := by
  rw [colMaxima, List.getElem?_map]
  by_cases hj : j < g.colsB
  · simp [hj]
  · simp [hj]

/-- Column `j` is stamped with the base and `j` steps (R110). -/
theorem getElem?_stampRecord (step : Int) (ms : List Int) (ts : Int) (j : Nat) :
    (stampRecord step ms ts).1[j]? = ms[j]?.map fun m => (m, ts + j * step) := by
  rw [stampRecord_eq]
  simp [List.getElem?_zipIdx, Function.comp_def]

/-- Every record is the stamped row of maxima of a pair (R105). -/
theorem exists_stamped_of_mem_recordsOf {g : ReduceConfig} {p : Nat} {pairs : List (Payload × Payload)}
    {rec : GoldenRecord} (h : rec ∈ recordsOf g p pairs) :
    ∃ a b ts, rec = (stampRecord g.step (colMaxima g a b) ts).1 := by
  obtain ⟨i, hi⟩ := List.mem_iff_getElem?.mp h
  rw [getElem?_recordsOf, Option.map_eq_some_iff] at hi
  obtain ⟨⟨a, b⟩, -, rfl⟩ := hi
  exact ⟨a, b, _, rfl⟩

/-- A record has an entry for every column (R116). -/
theorem length_of_mem_recordsOf {g : ReduceConfig} {p : Nat} {pairs : List (Payload × Payload)} {rec : GoldenRecord}
    (h : rec ∈ recordsOf g p pairs) : rec.length = g.colsB := by
  obtain ⟨a, b, ts, rfl⟩ := exists_stamped_of_mem_recordsOf h
  rw [← List.length_map (f := Prod.fst), map_fst_stampRecord, length_colMaxima]

/-- The entry of column `j` of pair `p`: the two operands it is computed from, its value and its timestamp. -/
theorem recordsOf_entry {g : ReduceConfig} {as bs : List Payload} {p j : Nat} {rec : GoldenRecord} {m ts : Int}
    (hrec : (recordsOf g 0 (as.zip bs))[p]? = some rec) (hj : rec[j]? = some (m, ts)) :
    ∃ a b, (as.zip bs)[p]? = some (a, b) ∧ j < g.colsB ∧ m = colMaxFrom g a b j 0 ∧
      ts = baseTimestamp g p + j * g.step := by
  rw [getElem?_recordsOf, Option.map_eq_some_iff] at hrec
  obtain ⟨⟨a, b⟩, hab, rfl⟩ := hrec
  rw [getElem?_stampRecord, Option.map_eq_some_iff, Nat.zero_add] at hj
  obtain ⟨m', hm, hentry⟩ := hj
  obtain ⟨rfl, rfl⟩ := Prod.mk.inj hentry
  obtain ⟨hlt, rfl⟩ := (getElem?_colMaxima_eq_some_iff _ _ _ _ _).mp hm
  exact ⟨a, b, hab, hlt, rfl, rfl⟩

/-- With a row to read the running comparison ends at the maximum of the dot products (R108). -/
theorem isColumnMaximum_colMaxFrom {g : ReduceConfig} (hrows : 1 ≤ g.rowsA) (a b : Payload) (j : Nat) (m : Int) :
    isColumnMaximum g.rowsA g.colsA g.colsB a b j (colMaxFrom g a b j m) := by
  have hspec := foldl_max_spec (rowDot g a b · j) m (g.rowsA - 1)
  rw [Nat.sub_add_cancel hrows] at hspec
  simpa only [isColumnMaximum, colMaxFrom, rowDot, partialDot_eq, product] using hspec

/-- The entry of column `j` of pair `p`, in the terms of R108 and R110. -/
theorem gldReduce_entry {as bs : List Payload} {ra ca cb : Nat} {start step : Int} {bases : List Int} {s t : State}
    {rs : List GoldenRecord} {ds : List Diag} (h : exec (.gldReduce as bs ra ca cb start step bases) s = .next t)
    (ho : t.outcome = some (.ok (.records rs) ds)) {p j : Nat} {rec : GoldenRecord} {m ts : Int}
    (hrec : rs[p]? = some rec) (hj : rec[j]? = some (m, ts)) :
    ∃ a b, (as.zip bs)[p]? = some (a, b) ∧ j < cb ∧ isColumnMaximum ra ca cb a b j m ∧
      ts = baseTimestamp ⟨ra, ca, cb, start, step, bases⟩ p + j * step := by
  obtain ⟨⟨hra, -, -⟩, rfl, -⟩ := gldReduce_returns h ho
  obtain ⟨a, b, hab, hlt, rfl, rfl⟩ := recordsOf_entry hrec hj
  have hrows : 1 ≤ ra := by exact_mod_cast hra
  exact ⟨a, b, hab, hlt, isColumnMaximum_colMaxFrom (g := ⟨ra, ca, cb, start, step, bases⟩) hrows a b j 0, rfl⟩

/-! ### Timestamps -/

/-- Without bases the columns of all pairs are counted through (R112). -/
theorem baseTimestamp_of_no_bases {g : ReduceConfig} (h : g.bases = []) (p : Nat) :
    baseTimestamp g p = g.start + p * g.step * g.colsB := by
  rw [baseTimestamp, h, List.getLast?_nil]

/-- With a list a pair has its own base, as long as there is one, and then the last (R111). -/
theorem baseTimestamp_of_last {g : ReduceConfig} {last : Int} (h : g.bases.getLast? = some last) (p : Nat) :
    baseTimestamp g p = g.bases.getD p last := by
  rw [baseTimestamp, h]

theorem baseTimestamp_of_base {g : ReduceConfig} {p : Nat} {base : Int} (h : g.bases[p]? = some base) :
    baseTimestamp g p = base := by
  have hne : g.bases ≠ [] := by
    rintro hnil
    simp [hnil] at h
  rw [baseTimestamp_of_last (List.getLast?_eq_getLast_of_ne_nil hne), List.getD_eq_getElem?_getD, h, Option.getD_some]

theorem map_snd_stampRecord (step : Int) (ms : List Int) (ts : Int) :
    (stampRecord step ms ts).1.map Prod.snd = (List.range ms.length).map fun j : Nat => ts + j * step := by
  apply List.ext_getElem?
  intro j
  rw [List.getElem?_map, getElem?_stampRecord, List.getElem?_map]
  by_cases hj : j < ms.length
  · simp [hj]
  · simp [not_lt.mp hj]

/-- Without bases the timestamps laid end to end are one arithmetic progression (R110, R112). -/
theorem stamps_recordsOf {g : ReduceConfig} (hbases : g.bases = []) (p : Nat) (pairs : List (Payload × Payload)) :
    (recordsOf g p pairs).flatten.map Prod.snd =
      (List.range (pairs.length * g.colsB)).map fun i : Nat => baseTimestamp g p + i * g.step := by
  induction pairs generalizing p with
  | nil => simp [recordsOf]
  | cons ab rest ih =>
    have hnext : baseTimestamp g (p + 1) = baseTimestamp g p + g.colsB * g.step := by
      rw [baseTimestamp_add_columns hbases, baseTimestamp_of_no_bases hbases]
    have hcount : (ab :: rest).length * g.colsB = g.colsB + rest.length * g.colsB := by
      rw [List.length_cons, Nat.succ_mul, Nat.add_comm]
    rw [recordsOf, List.flatten_cons, List.map_append, map_snd_stampRecord, length_colMaxima, ih, hnext, hcount,
      List.range_add, List.map_append, List.map_map]
    refine congrArg _ (List.map_congr_left fun i _ => ?_)
    simp only [Function.comp]
    push_cast
    ring

/-- With a positive step an arithmetic progression increases (R144). -/
theorem pairwise_lt_progression {step : Int} (hstep : 0 < step) (base : Int) (count : Nat) :
    ((List.range count).map fun i : Nat => base + i * step).Pairwise (· < ·) := by
  rw [List.pairwise_map]
  refine List.pairwise_lt_range.imp fun {i j} hij => ?_
  have hcast : (i : Int) < j := by exact_mod_cast hij
  have hmul : i * step < j * step := mul_lt_mul_of_pos_right hcast hstep
  omega

/-! ### `GLD_EMIT` -/

/-- Records each with a last entry are written out (R113). -/
theorem emitRecords_append_singletons (cfg : Config) (records : List (GoldenRecord × (Int × Int))) (out : Text) :
    emitRecords cfg (records.map fun r => r.1 ++ [r.2]) out =
      .ok (out ++ linesText cfg (records.flatMap fun r => recordLines (r.1 ++ [r.2]) r.2.1)) := by
  induction records generalizing out with
  | nil => simp [emitRecords]
  | cons r rest ih =>
    simp only [List.map_cons, emitRecords, List.getLast?_concat, ih, emitLines_eq, List.flatMap_cons, linesText_append,
      List.append_assoc]

/-- An empty record anywhere refuses (R113). -/
theorem emitRecords_of_empty {cfg : Config} {records : List GoldenRecord} (h : [] ∈ records) (out : Text) :
    emitRecords cfg records out = .error .emptyRecord := by
  induction records generalizing out with
  | nil => cases h
  | cons rec rest ih =>
    rcases hl : rec.getLast? with _ | last
    · simp only [emitRecords, hl]
    · have hne : [] ≠ rec := by
        rintro rfl
        cases hl
      simp only [emitRecords, hl]
      exact ih ((List.mem_cons.mp h).resolve_left hne) _

/-- `OUT` goes to the host with the outcome and is empty afterwards (R23, R27, R39). -/
theorem exec_gldEmit_of_ok {records : List GoldenRecord} {s : State} {t : Text}
    (h : emitRecords s.cfg records [] = .ok t) :
    exec (.gldEmit records) s = .next { s with work := s.work.atStart, outcome := some (.ok (.text t) []) } := by
  simp only [exec, execGldEmit, h]
  rfl

end Sys2Proof.Machine

/-! PROOFS. The statements about the golden reducer (spec/43_golden_reducer.md). -/

namespace Sys2Proof.Machine

/-- Settles O34: the loop gets past every pair exactly where all are in width, and else the pair that stops it, being in
shape, stops it by its widths. -/
theorem gldReduceRunsOnTheOverlap : Obligations.GldReduceRunsOnTheOverlap := by
  intro as bs ra ca cb start step bases s hra hca hcb hshape inWidths
  have hp := warnLengths_atStart_p s.work as.length bs.length
  refine ⟨fun hw ha p a b _ => (widthsOk_iff _ _ _ _ _).mp (widthsOk_exact hw ha _ p a b), fun hin => ?_, fun hout =>
    exec_gldReduce_of_pair_error hra hca hcb (reducePairs_of_outOfWidth hp hshape hout)⟩
  refine ⟨_, exec_gldReduce_of_pairs hra hca hcb (reducePairs_of_inWidths hp hshape hin), ?_⟩
  rw [foldPairs_atStart_eq]
  refine ⟨rfl, ?_, fun r hr => length_of_mem_recordsOf hr, List.length_zip, rfl⟩
  rw [length_recordsOf, List.length_zip]

/-- Settles O35, by the running comparison's specification at the entry. -/
theorem goldenValuesAreColumnMaxima : Obligations.GoldenValuesAreColumnMaxima := by
  intro as bs ra ca cb start step bases s t rs ds h ho p j rec m ts hrec hj
  obtain ⟨a, b, hab, -, hmax, -⟩ := gldReduce_entry h ho hrec hj
  obtain ⟨ha, hb⟩ := List.getElem?_zip_eq_some.mp hab
  exact ⟨a, b, ha, hb, hmax⟩

/-- Settles O36, by the three ways to find a pair's base. -/
theorem goldenTimestampsFollowTheirBase : Obligations.GoldenTimestampsFollowTheirBase := by
  intro as bs ra ca cb start step bases s t rs ds h ho p j rec m ts hrec hj
  obtain ⟨-, -, -, -, -, rfl⟩ := gldReduce_entry h ho hrec hj
  refine ⟨fun hnil => ?_, fun base hbase => ?_, fun last hlast hp => ?_⟩
  · rw [baseTimestamp_of_no_bases hnil]
    ring
  · rw [baseTimestamp_of_base hbase]
  · rw [baseTimestamp_of_last hlast, List.getD_eq_default _ _ hp]

/-- Settles O37: the timestamps of a record, and without bases those of the run, are an arithmetic progression. -/
theorem timestampsIncreaseWhenTheStepIsPositive : Obligations.TimestampsIncreaseWhenTheStepIsPositive := by
  intro as bs ra ca cb start step bases s t rs ds hstep h ho
  obtain ⟨-, rfl, -⟩ := gldReduce_returns h ho
  refine ⟨fun r hr => ?_, fun hnil => ?_⟩
  · obtain ⟨a, b, ts, rfl⟩ := exists_stamped_of_mem_recordsOf hr
    rw [map_snd_stampRecord]
    exact pairwise_lt_progression hstep _ _
  · rw [stamps_recordsOf hnil]
    exact pairwise_lt_progression hstep _ _

/-- Settles O38: record `p` is a function of pair `p`, the dimensions and the timestamp operands. -/
theorem goldenRecordsDependOnTheirPairOnly : Obligations.GoldenRecordsDependOnTheirPairOnly := by
  intro as bs as' bs' ra ca cb start step bases s s' t t' rs rs' ds ds' h ho h' ho' p _ _ ha hb
  obtain ⟨-, rfl, -⟩ := gldReduce_returns h ho
  obtain ⟨-, rfl, -⟩ := gldReduce_returns h' ho'
  have hpair : (as.zip bs)[p]? = (as'.zip bs')[p]? := by
    rw [List.zip_eq_zipWith, List.zip_eq_zipWith, List.getElem?_zipWith, List.getElem?_zipWith, ha, hb]
  rw [getElem?_recordsOf, getElem?_recordsOf, hpair]

/-- Settles O40: the dimensions are tested before the loop; the first pair to fail a test fails that of its shape, where
no pair fails that of its widths or where the pairs before it pass both. -/
theorem gldReduceRefusals : Obligations.GldReduceRefusals := by
  refine ⟨fun as bs ra ca cb start step bases s hdim => conclude_map_of_error (if_pos hdim),
    fun as bs ra ca cb start step bases s hra hca hcb hw ha hshape => ?_,
    fun as bs a b ra ca cb p start step bases s hra hca hcb hab hshape hbefore => ?_⟩
  · exact exec_gldReduce_of_pair_error hra hca hcb (reducePairs_of_misshapen_exact _ hw ha hshape)
  · exact exec_gldReduce_of_pair_error hra hca hcb
      (reducePairs_of_misshapen (warnLengths_atStart_p _ _ _) hab hshape hbefore)

/-- Settles O41: every pair has passed its width test; a value returned is a dot product, and its timestamp and the next
are values of the counter. -/
theorem finiteWidthsNeverWrap : Obligations.FiniteWidthsNeverWrap := by
  intro as bs ra ca cb start step bases s t rs ds h ho inRange
  obtain ⟨-, -, hin⟩ := gldReduce_returns h ho
  refine ⟨fun k hk ab hab v hv => ?_, fun k hk => ⟨fun ab hab r hr j hj => ?_, fun rec hrec mt hmt => ?_⟩⟩
  · obtain ⟨p, hp⟩ := List.mem_iff_getElem?.mp hab
    obtain ⟨hwords, -, -⟩ := hin p ab.1 ab.2 hp
    exact hwords v hv k hk
  · obtain ⟨p, hp⟩ := List.mem_iff_getElem?.mp hab
    obtain ⟨-, hsums, -⟩ := hin p ab.1 ab.2 hp
    obtain ⟨hproducts, hpartial⟩ := hsums r hr j hj
    exact ⟨fun l hl => hproducts l hl k hk, fun m hm => hpartial m hm k hk⟩
  · obtain ⟨p, hp⟩ := List.mem_iff_getElem?.mp hrec
    obtain ⟨j, hj⟩ := List.mem_iff_getElem?.mp hmt
    obtain ⟨a, b, hab, hlt, ⟨⟨r, hr, hdot⟩, -⟩, hts⟩ := gldReduce_entry h ho hp hj
    obtain ⟨-, hsums, hstamps⟩ := hin p a b hab
    refine ⟨?_, ?_, ?_⟩
    · rw [hdot]
      exact (hsums r hr j hlt).2 ca le_rfl k hk
    · rw [hts]
      exact hstamps j hlt.le k hk
    · have hnext : mt.2 + step =
          baseTimestamp ⟨ra, ca, cb, start, step, bases⟩ p + ((j + 1 : Nat) : Int) * step := by
        rw [hts]
        push_cast
        ring
      rw [hnext]
      exact hstamps (j + 1) hlt k hk

/-- Settles O42: the loop writes the lines of each record with a last value and stops at one without. -/
theorem gldEmitRepeatsTheLastValue : Obligations.GldEmitRepeatsTheLastValue := by
  refine ⟨fun _ => rfl, fun records s => ?_, fun records s hempty => ?_, fun s => ?_⟩
  · exact exec_gldEmit_of_ok (emitRecords_append_singletons s.cfg records [])
  · exact conclude_map_of_error (emitRecords_of_empty hempty [])
  · exact ⟨_, exec_gldEmit_of_ok (emitRecords_append_singletons s.cfg [([(43, 6553600)], (50, 6582400))] []), rfl⟩

end Sys2Proof.Machine

/-! PROOF SUPPORT. A failed lookup (spec/60_exceptions.md R127): the host gives the defaults to a command's operands, and
the decoder reads from them the operation with the defaults. -/

namespace Sys2Proof.Machine

/-- The operation a failed lookup calls in place of the one named (R127): only `HDR_BUILD` and the stream framers take a
type and an id (base id). `decode_defaultLookup` ties it to the host's default on commands. -/
def lookupDefaults (noId noType : Bool) : Instr → Instr
  | .hdrBuild ty id => .hdrBuild (if noType = true then 0 else ty) (if noId = true then 0 else id)
  | .strFrameIndep ty b payloads =>
    .strFrameIndep (if noType = true then 0 else ty) (if noId = true then 0 else b) payloads
  | .strFrameSplit ty b buffer n =>
    .strFrameSplit (if noType = true then 0 else ty) (if noId = true then 0 else b) buffer n
  | i => i

/-- The decoder reads a command with the defaults as the operation with the defaults (R60, R127). -/
theorem decode_defaultLookup {i : Instr} {c : Command} (noId noType : Bool) (h : encode i = .cmd c) :
    decode (.cmd (defaultLookup c noId noType)) = .ok (lookupDefaults noId noType i) := by
  cases i with
  | hdrBuild | strFrameIndep | strFrameSplit => cases h; rfl
  | hdrCheck | hdrFields | pktFrame | pktParse | gldReduce | gldEmit => cases h; rfl
  | hdr32 | tokMark | tokIgn | tokInt | tokBad | tokEos => cases h

/-- The fetch takes a command whose lookup failed with the defaults, and the host records it (R127). -/
theorem fetch_of_issueUnresolved {s : State} {c : Command} {noId noType : Bool} {rest : List HostItem}
    (hcls : s.cls = none) (hhost : s.host = .issueUnresolved c noId noType :: rest) :
    fetch s = .item (.cmd (defaultLookup c noId noType))
      { s with host := rest, hostDiags := s.hostDiags ++ [.symbolTableMissing] } := by
  simp [fetch, hcls, hhost]

/-- A command whose lookup failed runs its operation with the defaults (R127). -/
theorem step_of_issueUnresolved {s : State} {i : Instr} {c : Command} {noId noType : Bool} {rest : List HostItem}
    (hcls : s.cls = none) (hhost : s.host = .issueUnresolved c noId noType :: rest) (hc : encode i = .cmd c) :
    step s = exec (lookupDefaults noId noType i)
      { s with host := rest, hostDiags := s.hostDiags ++ [.symbolTableMissing] } :=
  step_of_fetch (fetch_of_issueUnresolved hcls hhost) (decode_defaultLookup noId noType hc)

end Sys2Proof.Machine

/-! PROOFS. The statement about failed lookups (spec/60_exceptions.md). -/

namespace Sys2Proof.Machine

/-- Settles O54: the step of a command whose lookup failed, at each of the three operations that take a type and an id. -/
theorem failedLookupDefaultsToZero : Obligations.FailedLookupDefaultsToZero := by
  intro ty id b n payloads buffer c noId noType rest s hcls hhost _
  exact ⟨step_of_issueUnresolved hcls hhost, step_of_issueUnresolved hcls hhost, step_of_issueUnresolved hcls hhost⟩

end Sys2Proof.Machine

/-! PROOFS. The statement about the idle step (spec/70_reset_and_hazards.md). -/

namespace Sys2Proof.Machine

/-- Settles O52: with no micro-operation and no item of the host, the fetch is idle and the step keeps the state (R141). -/
theorem idleStepChangesNothing : Obligations.IdleStepChangesNothing :=
  fun _ hcls hhost => step_of_nothing_waiting hcls hhost

end Sys2Proof.Machine
